-- ==== Sys2Proof/Word.lean ====
section
/-! DEFINITION. The words of the Rustune playback core: a byte of module memory and the 32-bit word that a
register, a CTRL value or a cell word is (00_scope.md R10, 10_state.md R39, 30_encoding.md R98). -/

namespace Sys2Proof

/-- A byte of module memory (00_scope.md R10). -/
abbrev Byte := BitVec 8

/-- A 32-bit word: a host register (10_state.md R39) or a cell word `W` (30_encoding.md R98). -/
abbrev Word := BitVec 32

end Sys2Proof
end

