-- ==== Sys2Proof/Config.lean ====
section
/-! DEFINITION. What one instance of the block fixes and the spec leaves OPEN (00_scope.md R6), and the free values
of the model (93_implementation_defined.md, treatment `any value`). None has a body: nothing can be proved of a
particular value, so a theorem of this model holds for every instance. -/

namespace Sys2Proof.Config

/-- `RING_DEPTH` less 1: the depth is an OPEN parameter, at least 1 (00_scope.md R6, 93_implementation_defined.md I5). -/
opaque ringSpare : Nat

/-- `EVQ_DEPTH` less 1: the depth is an OPEN parameter, at least 1 (00_scope.md R6, 93_implementation_defined.md I6). -/
opaque evqSpare : Nat

/-- `PERIOD_TABLE_FT`: the period of a finetune row 1 to 15 and a note 0 to 35, an OPEN parameter of 12-bit entries
(30_encoding.md R108, 93_implementation_defined.md I12). -/
opaque periodTableFt : Nat → Nat → BitVec 12

/-- Free value: what the platform's module memory holds at an address that nothing has written
(93_implementation_defined.md I2). -/
opaque platformByte : Nat → Byte

/-- Free value: what a module-memory read returns once the host has written module memory during a song
(20_memory.md R72). Applied to the model's draw counter, the reader and the address, so that two reads need not agree. -/
opaque drawnByte : Nat → Nat → Nat → Byte

/-- Free value: the 12-bit `out_period` left by a modulation whose exact result lies outside 0 to 4095, which the
spec does not state (43_effects.md R254). Applied to the exact result. -/
opaque periodOutsideRange : Int → BitVec 12

end Sys2Proof.Config
end

