-- ==== Sys2Proof/Machine/State.lean ====
section
/-! DEFINITION. The state of the block (10_state.md R20 to R46), plain data, the reasons a step can stop, and the state
right after reset (70_reset_and_hazards.md R361). -/

namespace Sys2Proof.Machine

/-- ChannelState (10_state.md R21): the 28 fields of one channel. -/
structure Channel where
  /-- Bound sample number, 0 = none. -/
  smp : BitVec 5
  /-- Finetune in effect, two's complement. -/
  ft : BitVec 4
  /-- The unmodulated period (R25). -/
  basePeriod : BitVec 12
  /-- The period the mixer plays (R25). -/
  outPeriod : BitVec 12
  /-- The unmodulated volume, 0 to 64 (R25). -/
  vol : BitVec 7
  /-- The volume the mixer plays, 0 to 64 (R25). -/
  outVol : BitVec 7
  /-- Integer part of the cursor, in frames (R24). -/
  posInt : BitVec 18
  /-- Fractional part of the cursor, in 1/65536 frame (R24). -/
  posFrac : BitVec 16
  /-- The channel is sounding (R23). -/
  active : Bool
  /-- The cursor has wrapped into the loop at least once. -/
  loopActive : Bool
  /-- Vibrato phase accumulator. -/
  vibPos : BitVec 6
  /-- Vibrato rate memory (R26). -/
  vibSpeed : BitVec 4
  /-- Vibrato depth memory (R26). -/
  vibDepth : BitVec 4
  /-- Vibrato waveform select (30_encoding.md R111). -/
  vibWave : BitVec 2
  /-- Tremolo phase accumulator. -/
  tremPos : BitVec 6
  /-- Tremolo rate memory (R26). -/
  tremSpeed : BitVec 4
  /-- Tremolo depth memory (R26). -/
  tremDepth : BitVec 4
  /-- Tremolo waveform select (30_encoding.md R111). -/
  tremWave : BitVec 2
  /-- Tone-portamento target period, 0 = none. -/
  portaTarget : BitVec 12
  /-- Tone-portamento rate memory (R26). -/
  portaRate : BitVec 8
  /-- Sample-offset memory (R26). -/
  offsetMem : BitVec 8
  /-- Pattern-loop start row. -/
  loopRow : BitVec 6
  /-- Pattern-loop remaining count. -/
  loopCount : BitVec 4
  /-- An explicit panning effect has been applied. -/
  panExplicit : Bool
  /-- Effect command of the current row's cell (R27). -/
  cmd : BitVec 4
  /-- Effect parameter of the current row's cell (R27). -/
  param : BitVec 8
  /-- Period of a note held back by note delay (R27). -/
  dlyPeriod : BitVec 12
  /-- Sample number of a note held back by note delay (R27). -/
  dlySmp : BitVec 8
  deriving DecidableEq, Repr

/-- A channel at reset and at START: every field 0 (10_state.md R21). -/
def Channel.silent : Channel :=
  { smp := 0, ft := 0, basePeriod := 0, outPeriod := 0, vol := 0, outVol := 0, posInt := 0, posFrac := 0
    active := false, loopActive := false, vibPos := 0, vibSpeed := 0, vibDepth := 0, vibWave := 0, tremPos := 0
    tremSpeed := 0, tremDepth := 0, tremWave := 0, portaTarget := 0, portaRate := 0, offsetMem := 0, loopRow := 0
    loopCount := 0, panExplicit := false, cmd := 0, param := 0, dlyPeriod := 0, dlySmp := 0 }

/-- The song position, the block's program counter (10_state.md R28), and the global sequencer registers (R29). -/
structure SeqRegs where
  /-- Index into the order table of the entry being played (R28). -/
  order : BitVec 7
  /-- Row within the pattern (R28). -/
  row : BitVec 6
  /-- Tick within the row (R28). -/
  tick : BitVec 5
  /-- Ticks per row. -/
  speed : BitVec 5
  /-- Speed to take effect at the next row boundary, 0 = none. -/
  speedPending : BitVec 5
  /-- Tempo in BPM. -/
  tempo : BitVec 8
  /-- A pattern jump is scheduled. -/
  jumpPending : Bool
  /-- Its target order index. -/
  jumpTarget : BitVec 8
  /-- A pattern break is scheduled. -/
  breakPending : Bool
  /-- Its target row. -/
  breakRow : BitVec 6
  /-- A pattern-loop jump back is scheduled. -/
  loopjumpPending : Bool
  /-- Its target row. -/
  loopjumpRow : BitVec 6
  /-- Remaining extra iterations of the current row. -/
  delayCount : BitVec 4
  /-- The current row is a pattern-delay repetition. -/
  delayActive : Bool
  deriving DecidableEq, Repr

/-- The song position and sequencer registers at reset and at START (10_state.md R28, R29: speed 6, tempo 125). -/
def SeqRegs.initial : SeqRegs :=
  { order := 0, row := 0, tick := 0, speed := 6, speedPending := 0, tempo := 125, jumpPending := false
    jumpTarget := 0, breakPending := false, breakRow := 0, loopjumpPending := false, loopjumpRow := 0
    delayCount := 0, delayActive := false }

/-- A sample header as latched at START (10_state.md R30). -/
structure SampleHdr where
  /-- Length in frames. -/
  len : BitVec 17
  /-- Finetune, two's complement. -/
  ft : BitVec 4
  /-- Default volume, 0 to 64. -/
  vol : BitVec 7
  /-- Loop start in frames. -/
  loopStart : BitVec 17
  /-- Loop length in frames. -/
  loopLen : BitVec 17
  /-- Looping enabled. -/
  loopEn : Bool
  /-- Module memory address of the first PCM byte. -/
  base : BitVec 32
  deriving DecidableEq, Repr

/-- A sample header of zeros: a sample of length 0. -/
def SampleHdr.zero : SampleHdr :=
  { len := 0, ft := 0, vol := 0, loopStart := 0, loopLen := 0, loopEn := false, base := 0 }

/-- The module latches (10_state.md R30). `samples[i]` is sample number `i + 1`. -/
structure Latches where
  /-- `C`, the channel count. -/
  chanCount : BitVec 4
  /-- `song_len`. -/
  songLen : BitVec 8
  /-- `restart`. -/
  restart : BitVec 8
  /-- `order_tab[0..127]`. -/
  orderTab : Vector (BitVec 8) 128
  /-- `P`, the number of stored patterns. -/
  patCount : BitVec 8
  /-- `smp_base`. -/
  smpBase : BitVec 32
  /-- `S[1..31]`. -/
  samples : Vector SampleHdr 31
  deriving DecidableEq, Repr

/-- The latches at reset: `C` is 0 (10_state.md R30); the others are unspecified, zero here (DESIGN CHOICE, log entry 1). -/
def Latches.initial : Latches :=
  { chanCount := 0, songLen := 0, restart := 0, orderTab := Vector.replicate 128 0, patCount := 0, smpBase := 0
    samples := Vector.replicate 31 SampleHdr.zero }

/-- `seq_state`, 2 bits (10_state.md R31). -/
inductive SeqState where
  /-- 0 -/
  | stopped
  /-- 1 -/
  | playing
  /-- 2 -/
  | paused
  /-- 3 -/
  | finished
  deriving DecidableEq, Repr

/-- The codes the 3-bit `error` register holds (60_exceptions.md R330); 6 and 7 are never written (log entry 20). -/
inductive ErrorCode where
  /-- 0 -/
  | none
  /-- 1 -/
  | unknownSignature
  /-- 2 -/
  | truncatedData
  /-- 3 -/
  | invalidSampleLength
  /-- 4 -/
  | patternIndexOutOfRange
  /-- 5 -/
  | playbackError
  deriving DecidableEq, Repr

/-- The clock registers (10_state.md R35). -/
structure ClockRegs where
  /-- Frame count of the tick being mixed. -/
  fptLatched : BitVec 16
  /-- Frames already produced in that tick. -/
  frameInTick : BitVec 16
  deriving DecidableEq, Repr

/-- The counters (10_state.md R36). -/
structure Counters where
  /-- Frames pushed since START, modulo 2^32. -/
  frameCount : BitVec 32
  /-- Tick boundaries since START, modulo 2^32. -/
  tickCount : BitVec 32
  /-- Events rejected by a full queue, saturating. -/
  evDrop : BitVec 32
  deriving DecidableEq, Repr

/-- A stereo frame of two's-complement values (10_state.md R37). -/
structure Frame where
  /-- Left value. -/
  left : BitVec 16
  /-- Right value. -/
  right : BitVec 16
  deriving DecidableEq, Repr

/-- A NoteEvent (45_events.md R310). -/
structure NoteEvent where
  /-- `tick_count` when the event was made. -/
  tickIndex : BitVec 32
  /-- Channel index. -/
  channel : BitVec 3
  /-- The cell's sample number, 0 = none. -/
  sample : BitVec 8
  /-- The cell's raw period. -/
  period : BitVec 12
  /-- The channel's volume after the cell's immediate effects. -/
  volume : BitVec 7
  /-- The cell's effect command. -/
  cmd : BitVec 4
  /-- The cell's effect parameter. -/
  param : BitVec 8
  deriving DecidableEq, Repr

/-- The host-written configuration registers (10_state.md R39, indexes 0x09 to 0x0C). -/
structure CfgRegs where
  /-- CFG_RATE[17:0]. -/
  rate : BitVec 18
  /-- CFG_MODE[0], `INTERP`. -/
  interp : Bool
  /-- CFG_MODE[1], `PANNING_SUPPORTED`. -/
  pan : Bool
  /-- CFG_MODE[2], `ARP_SOURCE`. -/
  arp : Bool
  /-- CFG_GAIN[7:0], `MASTER_GAIN`. -/
  gain : BitVec 8
  /-- MODULE_LEN. -/
  moduleLen : BitVec 32
  deriving DecidableEq, Repr

/-- The active copies of the configuration (10_state.md R41). -/
structure ActiveCfg where
  /-- `a_rate`. -/
  rate : BitVec 18
  /-- `a_interp`. -/
  interp : Bool
  /-- `a_pan`. -/
  pan : Bool
  /-- `a_arp`. -/
  arp : Bool
  /-- `a_gain`. -/
  gain : BitVec 8
  /-- `a_len`. -/
  len : BitVec 32
  deriving DecidableEq, Repr

/-- Module memory (20_memory.md R60): the bytes that have been written, addresses strictly rising. An unlisted address
holds no value of its own; what a read of it gives is `byteAt` of Ops.lean. -/
abbrev Memory := List Host.Cell

/-- One step of one agent (00_scope.md R8): the entries of the schedule `State.inputs` (DESIGN CHOICE, log entry 7). -/
inductive Input where
  /-- The producer's FRAME step (41_clock.md R160). -/
  | frame
  /-- The host writes a register, a CMD step (40_control.md R130). -/
  | regWrite (index : BitVec 8) (value : Word)
  /-- The host reads a register (10_state.md R40). -/
  | regRead (index : BitVec 8)
  /-- The host writes a byte of module memory (20_memory.md R60, R72). -/
  | memWrite (addr : BitVec 32) (value : Byte)
  /-- The host reads a byte of module memory (20_memory.md R72, 60_exceptions.md R347). -/
  | memRead (addr : BitVec 32)
  /-- The audio sink's SINK_POP step (45_events.md R316). -/
  | sinkPop
  /-- The audio sink's SINK_FAIL step (60_exceptions.md R336). -/
  | sinkFail
  /-- The display consumer's EV_POP step (45_events.md R314). -/
  | evPop
  /-- The platform's reset (70_reset_and_hazards.md R360). -/
  | reset
  deriving DecidableEq, Repr

/-- How much of an atomic START or FRAME step is still to be done (log entry 10). Between steps it is `idle`. -/
inductive Phase where
  /-- Nothing is in progress: the next step takes the next agent's step. -/
  | idle
  /-- START's trigger phase is to be run, from channel `chan` on (40_control.md R133). -/
  | startCells
  /-- A FRAME step's tick processing is to be run, from channel `chan` on, then the frame (41_clock.md R160). -/
  | frameCells
  /-- A FRAME step's frame is to be mixed and pushed (41_clock.md R160). -/
  | frameMix
  deriving DecidableEq, Repr

/-- The state of the block (10_state.md R20) with the module memory it reads, and the model's own fields. -/
structure State where
  /-- The channel register file (R21). -/
  ch : Vector Channel 8
  /-- Song position and global sequencer registers (R28, R29). -/
  seq : SeqRegs
  /-- Module latches (R30). -/
  latch : Latches
  /-- Operating state (R31). -/
  seqState : SeqState
  /-- Pause flag (R32). -/
  pauseReq : Bool
  /-- Error register (R33). -/
  error : ErrorCode
  /-- Clock registers (R35). -/
  clk : ClockRegs
  /-- Counters (R36). -/
  cnt : Counters
  /-- Frame ring, oldest first (R37). -/
  ring : List Frame
  /-- Event queue, oldest first (R37). -/
  evq : List NoteEvent
  /-- Configuration registers (R39). -/
  cfg : CfgRegs
  /-- Active configuration (R41). -/
  act : ActiveCfg
  /-- Module memory (20_memory.md R60). -/
  mem : Memory
  /-- The host has written module memory during a song (20_memory.md R72; log entry 6). -/
  dutyBroken : Bool
  /-- The draw counter, to which the free bytes of a broken duty are applied (log entry 6). -/
  draws : Nat
  /-- The agents' steps still to happen, in order (log entry 7). -/
  inputs : List Input
  /-- What the host's last register or module-memory read returned (log entry 9). -/
  readData : Word
  /-- What the last SINK_POP delivered (log entry 9). -/
  sinkOut : Option Frame
  /-- What the last EV_POP delivered (log entry 9). -/
  evOut : Option NoteEvent
  /-- What is left of the atomic step in progress (log entry 10). -/
  phase : Phase
  /-- The channel whose cell `exec` runs (log entry 10). -/
  chan : Fin 8
  deriving DecidableEq, Repr

/-- The reasons a step stops with a fault. -/
inductive Fault where
  /-- Raised by the mixer's PCM fetch alone, when the address it computes is not a 32-bit address (20_memory.md R60).
  Safe: the model stops where no song that passed START's checks can come (20_memory.md R68; log entry 13). -/
  | addressOutsideModuleMemory
  deriving DecidableEq, Repr

/-- The reasons a step is refused. -/
inductive Refusal where
  /-- Raised by an arm of `exec` for an instruction without a meaning. Safe: the model stops. No arm raises it. -/
  | notModelled (mnemonic : String)
  deriving DecidableEq, Repr

/-- The state right after reset (70_reset_and_hazards.md R360, R361). -/
def State.reset : State :=
  { ch := Vector.replicate 8 Channel.silent
    seq := SeqRegs.initial
    latch := Latches.initial
    seqState := .stopped
    pauseReq := false
    error := .none
    clk := { fptLatched := 0, frameInTick := 0 }
    cnt := { frameCount := 0, tickCount := 0, evDrop := 0 }
    ring := []
    evq := []
    cfg := { rate := 44100, interp := false, pan := false, arp := false, gain := 128, moduleLen := 0 }
    act := { rate := 0, interp := false, pan := false, arp := false, gain := 0, len := 0 }
    mem := []
    dutyBroken := false
    draws := 0
    inputs := []
    readData := 0
    sinkOut := none
    evOut := none
    phase := .idle
    chan := 0 }

end Sys2Proof.Machine
end

