-- ==== Sys2Proof/Machine/Tables.lean ====
section
/-! DEFINITION. The constants of the block (00_scope.md R6) and the tables the effects read (30_encoding.md R108 to R111). -/

namespace Sys2Proof.Machine

/-- `RING_DEPTH` (00_scope.md R6), at least 1. -/
def ringDepth : Nat := Config.ringSpare + 1

/-- `EVQ_DEPTH` (00_scope.md R6), at least 1. -/
def evqDepth : Nat := Config.evqSpare + 1

/-- `CLOCK_CONSTANT` in Hz (00_scope.md R6). -/
def clockConstant : Nat := 3546895

/-- `PERIOD_MIN` (00_scope.md R6). -/
def periodMin : Nat := 113

/-- `PERIOD_MAX` (00_scope.md R6). -/
def periodMax : Nat := 856

/-- `MAX_PATTERNS` (00_scope.md R6). -/
def maxPatterns : Nat := 128

/-- `MAX_SAMPLE_FRAMES` (00_scope.md R6). -/
def maxSampleFrames : Nat := 131070

/-- Row 0 of `PERIOD_TABLE`: notes 0 to 35 at finetune 0 (30_encoding.md R108). -/
def periodRow0 : List Nat :=
  [856, 808, 762, 720, 678, 640, 604, 570, 538, 508, 480, 453] ++
  [428, 404, 381, 360, 339, 320, 302, 285, 269, 254, 240, 226] ++
  [214, 202, 190, 180, 170, 160, 151, 143, 135, 127, 120, 113]

/-- `PERIOD_TABLE[r][n]` (30_encoding.md R108): rows 1 to 15 are the OPEN parameter `PERIOD_TABLE_FT`. -/
def periodTable (r n : Nat) : BitVec 12 :=
  if r = 0 then BitVec.ofNat 12 (periodRow0.getD n 0) else Config.periodTableFt r n

/-- `ftrow(ft) = ft mod 16`, of a two's-complement nibble (30_encoding.md R108). -/
def ftRow (ft : BitVec 4) : Nat := ft.toNat

/-- The least note 0 to 35 of table row `r` whose period is at most `p`, or 35 if there is none. -/
def noteAtOrBelow (r : Nat) (p : BitVec 12) : Nat :=
  ((List.range 36).find? (fun n => (periodTable r n).toNat ≤ p.toNat)).getD 35

/-- `LOOKUP(p, ft)`: row 0 finds the note, the finetune row gives its period (30_encoding.md R108). -/
def lookup (p : BitVec 12) (ft : BitVec 4) : BitVec 12 := periodTable (ftRow ft) (noteAtOrBelow 0 p)

/-- `fnoteidx(p, ft)`: the note of a sounding period, in the channel's own finetune row (30_encoding.md R109). -/
def soundingNote (p : BitVec 12) (ft : BitVec 4) : Nat := noteAtOrBelow (ftRow ft) p

/-- `ARP_PERIOD`: `off` semitones above the sounding note, saturating at note 35 (43_effects.md R256). -/
def arpPeriod (p : BitVec 12) (ft : BitVec 4) (off : Nat) : BitVec 12 :=
  periodTable (ftRow ft) (min (soundingNote p ft + off) 35)

/-- `SINE_TABLE[0..31]` (30_encoding.md R110). -/
def sineTable : List Nat :=
  [0, 24, 49, 74, 97, 120, 141, 161, 180, 197, 212, 224, 235, 244, 250, 253] ++
  [255, 253, 250, 244, 235, 224, 212, 197, 180, 161, 141, 120, 97, 74, 49, 24]

/-- `WAVE(w, pos)`: the magnitude of waveform `w` at a phase 0 to 63 (30_encoding.md R111). -/
def wave (w : BitVec 2) (pos : BitVec 6) : Nat :=
  let i := pos.toNat % 32
  if w = 0 then sineTable.getD i 0
  else if w = 1 then (if pos.toNat < 32 then 8 * i else 255 - 8 * i)
  else 255

/-- The signature table: the channel count of the 4 bytes at 1080, if they are known (30_encoding.md R97). -/
def signatureChannels (sig : Nat) : Option Nat :=
  if sig = 0x4D2E4B2E then some 4
  else if sig = 0x4D214B21 then some 4
  else if sig = 0x464C5434 then some 4
  else if sig = 0x3443484E then some 4
  else if sig = 0x3643484E then some 6
  else if sig = 0x3843484E then some 8
  else none

end Sys2Proof.Machine
end

