-- ==== Sys2Proof/Machine/Ops.lean ====
section
/-! DEFINITION. The named operations over memory, registers and queues, and the two error operations: raising a
load-time error (60_exceptions.md R333) and the sink failure (60_exceptions.md R336). The block has no other exception
and no return from one (60_exceptions.md R341). -/

namespace Sys2Proof.Machine

/-- An answer of the machine. -/
abbrev Answer := Host.Outcome State Fault Refusal

/-! ## Module memory -/

/-- The canonical form from address `lo` on: strictly rising, and every address a 32-bit one (20_memory.md R60). -/
def Memory.wfFrom (lo : Nat) : Memory → Bool
  | [] => true
  | (a, _) :: rest => decide (lo ≤ a) && decide (a < 2 ^ 32) && Memory.wfFrom (a + 1) rest

/-- The canonical form of module memory. An unlisted address has no value of its own, so no entry can equal one. -/
def Memory.wf (m : Memory) : Bool := Memory.wfFrom 0 m

/-- The byte listed at an address, if any. -/
def Memory.get : Memory → Nat → Option Byte
  | [], _ => none
  | (x, b) :: rest, a => if a = x then some b else Memory.get rest a

/-- Write one byte, keeping the canonical form. -/
def Memory.put : Memory → Nat → Byte → Memory
  | [], a, v => [(a, v)]
  | (x, b) :: rest, a, v =>
    if a < x then (a, v) :: (x, b) :: rest
    else if a = x then (a, v) :: rest
    else (x, b) :: Memory.put rest a v

/-- Write bytes at rising addresses. -/
def Memory.putBytes (m : Memory) (a : Nat) : List Byte → Memory
  | [] => m
  | b :: rest => Memory.putBytes (Memory.put m a b) (a + 1) rest

/-- One byte of module memory as the reader `who` reads it: the byte the host put there; where nothing has, the
platform's (93_implementation_defined.md I2; log entry 5); and an unconstrained byte once the host has broken its duty:
at every address, as 20_memory.md R72 says, though 70_reset_and_hazards.md R368 and 93_implementation_defined.md I3 speak of
the written address alone, which is the model's choice (log entry 6). -/
def byteAt (s : State) (who a : Nat) : Byte :=
  if s.dutyBroken then Config.drawnByte s.draws who a
  else match s.mem.get a with
    | some b => b
    | none => Config.platformByte a

/-- `MemRead(addr, 2)`, big-endian (20_memory.md R62). -/
def half (rd : Nat → Byte) (a : Nat) : Nat := (rd a).toNat * 256 + (rd (a + 1)).toNat

/-- `MemRead(addr, 4)`, big-endian (20_memory.md R62). -/
def quad (rd : Nat → Byte) (a : Nat) : Nat := half rd a * 65536 + half rd (a + 2)

/-- `cell_addr(p, r, k)` for `c` channels (20_memory.md R65). -/
def cellAddr (c p r k : Nat) : Nat := 1084 + ((p * 64 + r) * c + k) * 4

/-! ## Channels and sample headers -/

/-- `ch[k]` (00_scope.md R12). -/
def State.getCh (s : State) (k : Fin 8) : Channel := s.ch[k.val]

/-- `ch[k] <- c` (00_scope.md R12). -/
def State.setCh (s : State) (k : Fin 8) (c : Channel) : State := { s with ch := s.ch.set k.val c }

/-- Change `ch[k]` by `f`. -/
def State.modCh (s : State) (k : Fin 8) (f : Channel → Channel) : State := s.setCh k (f (s.getCh k))

/-- `S[n]` (00_scope.md R12), for n = 1 to 31. No rule reads another number; there the model gives a header of length 0
(log entry 14). -/
def State.hdr (s : State) (n : Nat) : SampleHdr :=
  if h : 1 ≤ n ∧ n ≤ 31 then s.latch.samples[n - 1]'(by omega) else SampleHdr.zero

/-- The channels that take part, `0 .. C-1`, in ascending order, from channel `k` on (10_state.md R22, R43). -/
def State.channelsFrom (s : State) (k : Nat) : List (Fin 8) :=
  ([0, 1, 2, 3, 4, 5, 6, 7] : List (Fin 8)).filter (fun j => decide (k ≤ j.val) && decide (j.val < s.latch.chanCount.toNat))

/-! ## Queues -/

/-- `EvPush(e)`: append, or reject the new event and count it, saturating (45_events.md R313). -/
def evPush (s : State) (e : NoteEvent) : State :=
  if s.evq.length < evqDepth then { s with evq := s.evq ++ [e] }
  else { s with cnt := { s.cnt with evDrop := if s.cnt.evDrop = BitVec.allOnes 32 then s.cnt.evDrop else s.cnt.evDrop + 1 } }

/-- `RingPush(L, R)` (45_events.md R315); FRAME is enabled only while the ring has room. -/
def ringPush (s : State) (f : Frame) : State := { s with ring := s.ring ++ [f] }

/-- SINK_POP: deliver the oldest frame; not enabled on an empty ring (45_events.md R316). -/
def sinkPop (s : State) : State :=
  match s.ring with
  | [] => s
  | f :: rest => { s with ring := rest, sinkOut := some f }

/-- EV_POP: deliver the oldest event; not enabled on an empty queue (45_events.md R314). -/
def evPop (s : State) : State :=
  match s.evq with
  | [] => s
  | e :: rest => { s with evq := rest, evOut := some e }

/-! ## Errors and reset -/

/-- Raise a load-time error: the code and Stopped, nothing else (60_exceptions.md R333, 40_control.md R136). -/
def raiseLoadError (s : State) (code : ErrorCode) : State := { s with error := code, seqState := .stopped }

/-- SINK_FAIL: PlaybackError (60_exceptions.md R336). -/
def sinkFail (s : State) : State :=
  { s with error := .playbackError, ring := [], seqState := .stopped, pauseReq := false }

/-- The platform's reset: every piece of block state to its reset value at once (70_reset_and_hazards.md R360). Module
memory and what is known of it are not block state and stay (10_state.md R20); so does the schedule (log entry 18). -/
def platformReset (s : State) : State :=
  { State.reset with mem := s.mem, dutyBroken := s.dutyBroken, draws := s.draws, inputs := s.inputs }

/-- The host writes a byte of module memory: always allowed by the memory, but from a START until Stopped or Finished it
breaks the host's duty (20_memory.md R72; log entry 6). Only the bytes that the block reads become open then: that the latches,
the address formulas and so the bounds of 40_control.md R135 stay is the model's choice, where R72 says that the bounds are no
longer guaranteed and does not say what happens (log entry 26). -/
def hostMemWrite (s : State) (a : BitVec 32) (v : Byte) : State :=
  { s with
    mem := s.mem.put a.toNat v
    dutyBroken := s.dutyBroken || decide (s.seqState = .playing) || decide (s.seqState = .paused) }

/-- The host reads a byte of module memory, which changes nothing (60_exceptions.md R347): the byte that stands there. -/
def hostMemRead (s : State) (a : BitVec 32) : State :=
  { s with readData := ((s.mem.get a.toNat).getD (Config.platformByte a.toNat)).setWidth 32 }

end Sys2Proof.Machine
end

