-- ==== Sys2Proof/Machine/Clock.lean ====
section
/-! DEFINITION. The PlaybackClock: frames per tick, the tick boundary and the end of a FRAME step (41_clock.md). -/

namespace Sys2Proof.Machine

/-- `FPT(bpm, rate)`, rounded half up (41_clock.md R161). -/
def framesPerTick (bpm rate : Nat) : Nat := (5 * rate + bpm) / (2 * bpm)

/-- The 16-bit `fpt_latched` for a tempo and a rate (41_clock.md R161). -/
def latchedFpt (tempo : BitVec 8) (rate : BitVec 18) : BitVec 16 := BitVec.ofNat 16 (framesPerTick tempo.toNat rate.toNat)

/-- FRAME is enabled: Playing or Paused, and room in the ring (41_clock.md R160). -/
def frameEnabled (s : State) : Bool :=
  (decide (s.seqState = .playing) || decide (s.seqState = .paused)) && decide (s.ring.length < ringDepth)

/-- The point between two frames at which a tick begins (41_clock.md R160). -/
def atTickBoundary (s : State) : Bool := decide (s.clk.fptLatched.toNat ≤ s.clk.frameInTick.toNat)

/-- The clock's part of a tick boundary, before the Sequencer runs (41_clock.md R160, R162). -/
def crossBoundary (s : State) : State :=
  { s with
    clk := { fptLatched := latchedFpt s.seq.tempo s.act.rate, frameInTick := 0 }
    cnt := { s.cnt with tickCount := s.cnt.tickCount + 1 } }

/-- The end of a FRAME step: push the frame and count it (41_clock.md R160). -/
def pushFrame (s : State) (f : Frame) : State :=
  let s1 := ringPush s f
  { s1 with
    clk := { s1.clk with frameInTick := s1.clk.frameInTick + 1 }
    cnt := { s1.cnt with frameCount := s1.cnt.frameCount + 1 }
    phase := .idle }

end Sys2Proof.Machine
end

