-- ==== Sys2Proof/Syntax.lean ====
section
/-! DEFINITION. The instructions: one constructor per row of spec/opcode_table.json. The 32 effect kinds carry the note
part of their cell (30_encoding.md R99) and their parameter as 30_encoding.md R107 assembles it; the 8 host commands
are the values of CTRL[2:0] (30_encoding.md R112). -/

namespace Sys2Proof

/-- The two encoding spaces of the opcode table (30_encoding.md R115): the cell word and the CTRL value. -/
inductive Space where
  /-- The 32-bit cell word of 30_encoding.md R99. -/
  | cell
  /-- The value written to the CTRL register (30_encoding.md R112). -/
  | ctrl
  deriving DecidableEq, Repr

/-- The decoded fields of a cell word (30_encoding.md R99, R100). -/
structure Cell where
  /-- 12-bit period, 0 = no new note. -/
  period : BitVec 12
  /-- 8-bit sample number, 0 = no change. -/
  smp : BitVec 8
  /-- 4-bit effect command. -/
  cmd : BitVec 4
  /-- 8-bit effect parameter. -/
  param : BitVec 8
  deriving DecidableEq, Repr

/-- An instruction: an effect kind of a cell (30_encoding.md R104) or a host command (30_encoding.md R112). -/
inductive Instr where
  /-- NONE, no effect (43_effects.md R220). -/
  | noEffect (period : BitVec 12) (smp : BitVec 8)
  /-- ARP, arpeggio (43_effects.md R221). -/
  | arp (period : BitVec 12) (smp : BitVec 8) (x y : BitVec 4)
  /-- PUP, portamento up (43_effects.md R222). -/
  | pup (period : BitVec 12) (smp : BitVec 8) (xx : BitVec 8)
  /-- PDN, portamento down (43_effects.md R223). -/
  | pdn (period : BitVec 12) (smp : BitVec 8) (xx : BitVec 8)
  /-- TPORTA, tone portamento (43_effects.md R224). -/
  | tporta (period : BitVec 12) (smp : BitVec 8) (xx : BitVec 8)
  /-- VIB, vibrato (43_effects.md R225). -/
  | vib (period : BitVec 12) (smp : BitVec 8) (x y : BitVec 4)
  /-- TPVS, tone portamento continue and volume slide (43_effects.md R226). -/
  | tpvs (period : BitVec 12) (smp : BitVec 8) (x y : BitVec 4)
  /-- VIBVS, vibrato continue and volume slide (43_effects.md R227). -/
  | vibvs (period : BitVec 12) (smp : BitVec 8) (x y : BitVec 4)
  /-- TREM, tremolo (43_effects.md R228). -/
  | trem (period : BitVec 12) (smp : BitVec 8) (x y : BitVec 4)
  /-- PAN, set panning (43_effects.md R229). -/
  | pan (period : BitVec 12) (smp : BitVec 8) (xx : BitVec 8)
  /-- OFFS, sample offset (43_effects.md R230). -/
  | offs (period : BitVec 12) (smp : BitVec 8) (xx : BitVec 8)
  /-- VSLD, volume slide (43_effects.md R231). -/
  | vsld (period : BitVec 12) (smp : BitVec 8) (x y : BitVec 4)
  /-- JUMP, pattern (order) jump (43_effects.md R232). -/
  | jump (period : BitVec 12) (smp : BitVec 8) (xx : BitVec 8)
  /-- VOL, set volume (43_effects.md R233). -/
  | vol (period : BitVec 12) (smp : BitVec 8) (xx : BitVec 8)
  /-- BRK, pattern break (43_effects.md R234). -/
  | brk (period : BitVec 12) (smp : BitVec 8) (x y : BitVec 4)
  /-- SPD, set speed or tempo (43_effects.md R251). -/
  | spd (period : BitVec 12) (smp : BitVec 8) (xx : BitVec 8)
  /-- EFILT, Amiga filter, no effect (43_effects.md R235). -/
  | efilt (period : BitVec 12) (smp : BitVec 8) (y : BitVec 4)
  /-- EFPU, fine portamento up (43_effects.md R236). -/
  | efpu (period : BitVec 12) (smp : BitVec 8) (y : BitVec 4)
  /-- EFPD, fine portamento down (43_effects.md R237). -/
  | efpd (period : BitVec 12) (smp : BitVec 8) (y : BitVec 4)
  /-- EGLIS, glissando control, no effect (43_effects.md R238). -/
  | eglis (period : BitVec 12) (smp : BitVec 8) (y : BitVec 4)
  /-- EVWAV, set vibrato waveform (43_effects.md R239). -/
  | evwav (period : BitVec 12) (smp : BitVec 8) (y : BitVec 4)
  /-- EFTUN, set finetune (43_effects.md R240). -/
  | eftun (period : BitVec 12) (smp : BitVec 8) (y : BitVec 4)
  /-- ELOOP, pattern loop (43_effects.md R241). -/
  | eloop (period : BitVec 12) (smp : BitVec 8) (y : BitVec 4)
  /-- ETWAV, set tremolo waveform (43_effects.md R242). -/
  | etwav (period : BitVec 12) (smp : BitVec 8) (y : BitVec 4)
  /-- EUN8, no effect (43_effects.md R243). -/
  | eun8 (period : BitVec 12) (smp : BitVec 8) (y : BitVec 4)
  /-- ERTRG, retrigger every y ticks (43_effects.md R244). -/
  | ertrg (period : BitVec 12) (smp : BitVec 8) (y : BitVec 4)
  /-- EFVU, fine volume slide up (43_effects.md R245). -/
  | efvu (period : BitVec 12) (smp : BitVec 8) (y : BitVec 4)
  /-- EFVD, fine volume slide down (43_effects.md R246). -/
  | efvd (period : BitVec 12) (smp : BitVec 8) (y : BitVec 4)
  /-- ECUT, note cut at tick y (43_effects.md R247). -/
  | ecut (period : BitVec 12) (smp : BitVec 8) (y : BitVec 4)
  /-- EDLY, note delay to tick y (43_effects.md R248). -/
  | edly (period : BitVec 12) (smp : BitVec 8) (y : BitVec 4)
  /-- EPDLY, pattern delay (43_effects.md R249). -/
  | epdly (period : BitVec 12) (smp : BitVec 8) (y : BitVec 4)
  /-- EINV, invert loop, no effect (43_effects.md R250). -/
  | einv (period : BitVec 12) (smp : BitVec 8) (y : BitVec 4)
  /-- NOP, CTRL op 0 (40_control.md R143). -/
  | nop
  /-- START, CTRL op 1 (40_control.md R132). -/
  | start
  /-- PAUSE, CTRL op 2 (40_control.md R140). -/
  | pause
  /-- RESUME, CTRL op 3 (40_control.md R141). -/
  | resume
  /-- STOP, CTRL op 4 (40_control.md R142). -/
  | stop
  /-- RSVD5, CTRL op 5, reserved (40_control.md R143). -/
  | rsvd5
  /-- RSVD6, CTRL op 6, reserved (40_control.md R143). -/
  | rsvd6
  /-- RSVD7, CTRL op 7, reserved (40_control.md R143). -/
  | rsvd7
  deriving DecidableEq, Repr

/-- The encoding space an instruction belongs to (30_encoding.md R115). -/
def Instr.space : Instr → Space
  | .nop | .start | .pause | .resume | .stop | .rsvd5 | .rsvd6 | .rsvd7 => .ctrl
  | .noEffect .. => .cell
  | .arp .. => .cell
  | .pup .. => .cell
  | .pdn .. => .cell
  | .tporta .. => .cell
  | .vib .. => .cell
  | .tpvs .. => .cell
  | .vibvs .. => .cell
  | .trem .. => .cell
  | .pan .. => .cell
  | .offs .. => .cell
  | .vsld .. => .cell
  | .jump .. => .cell
  | .vol .. => .cell
  | .brk .. => .cell
  | .spd .. => .cell
  | .efilt .. => .cell
  | .efpu .. => .cell
  | .efpd .. => .cell
  | .eglis .. => .cell
  | .evwav .. => .cell
  | .eftun .. => .cell
  | .eloop .. => .cell
  | .etwav .. => .cell
  | .eun8 .. => .cell
  | .ertrg .. => .cell
  | .efvu .. => .cell
  | .efvd .. => .cell
  | .ecut .. => .cell
  | .edly .. => .cell
  | .epdly .. => .cell
  | .einv .. => .cell

end Sys2Proof
end

