-- ==== Sys2Proof/WellFormed.lean ====
section
/-! DEFINITION. Well-formed instructions. The widths of Syntax.lean carry every range; the one check left is that an
arpeggio has a nonzero parameter, since `cmd 0, param 0` is NONE (30_encoding.md R102, 43_effects.md R220, R221). -/

namespace Sys2Proof

/-- An instruction that some word encodes. -/
def Instr.wf : Instr → Bool
  | .arp _ _ x y => !(x = 0#4 && y = 0#4)
  | .noEffect .. => true
  | .pup .. => true
  | .pdn .. => true
  | .tporta .. => true
  | .vib .. => true
  | .tpvs .. => true
  | .vibvs .. => true
  | .trem .. => true
  | .pan .. => true
  | .offs .. => true
  | .vsld .. => true
  | .jump .. => true
  | .vol .. => true
  | .brk .. => true
  | .spd .. => true
  | .efilt .. => true
  | .efpu .. => true
  | .efpd .. => true
  | .eglis .. => true
  | .evwav .. => true
  | .eftun .. => true
  | .eloop .. => true
  | .etwav .. => true
  | .eun8 .. => true
  | .ertrg .. => true
  | .efvu .. => true
  | .efvd .. => true
  | .ecut .. => true
  | .edly .. => true
  | .epdly .. => true
  | .einv .. => true
  | .nop | .start | .pause | .resume | .stop | .rsvd5 | .rsvd6 | .rsvd7 => true

end Sys2Proof
end

