-- ==== Sys2Proof/Decode.lean ====
section
/-! DEFINITION. Decoding and encoding (30_encoding.md R98 to R107, R112, R115): the bit-field helpers, the decoder of a
cell word and of a CTRL value, the decoder of bytes, the encoder, and the host's table decoder. -/

namespace Sys2Proof

/-- `v[7:4]` of a byte: the nibble `x` of a parameter (30_encoding.md R99). -/
def hiNibble (b : BitVec 8) : BitVec 4 := b.extractLsb' 4 4

/-- `v[3:0]` of a byte: the nibble `y` of a parameter (30_encoding.md R99). -/
def loNibble (b : BitVec 8) : BitVec 4 := b.extractLsb' 0 4

/-- `{x, y}`: the byte of two nibbles (00_scope.md R10). -/
def joinNibbles (x y : BitVec 4) : BitVec 8 := BitVec.ofNat 8 (16 * x.toNat + y.toNat)

/-- The fields of a cell word (30_encoding.md R99). -/
def wordCell (w : Word) : Cell :=
  { period := w.extractLsb' 16 12
    smp := joinNibbles (w.extractLsb' 28 4) (w.extractLsb' 12 4)
    cmd := w.extractLsb' 8 4
    param := w.extractLsb' 0 8 }

/-- The cell word of given fields (30_encoding.md R99). -/
def cellWord (c : Cell) : Word :=
  BitVec.ofNat 32 ((hiNibble c.smp).toNat * 2 ^ 28 + c.period.toNat * 2 ^ 16 + (loNibble c.smp).toNat * 2 ^ 12
    + c.cmd.toNat * 2 ^ 8 + c.param.toNat)

/-- The extended sub-commands of `cmd = 0xE`, selected by `x` (30_encoding.md R103). -/
def extendedKind (p : BitVec 12) (s : BitVec 8) (x y : BitVec 4) : Instr :=
  if x = 0x0#4 then .efilt p s y
  else if x = 0x1#4 then .efpu p s y
  else if x = 0x2#4 then .efpd p s y
  else if x = 0x3#4 then .eglis p s y
  else if x = 0x4#4 then .evwav p s y
  else if x = 0x5#4 then .eftun p s y
  else if x = 0x6#4 then .eloop p s y
  else if x = 0x7#4 then .etwav p s y
  else if x = 0x8#4 then .eun8 p s y
  else if x = 0x9#4 then .ertrg p s y
  else if x = 0xA#4 then .efvu p s y
  else if x = 0xB#4 then .efvd p s y
  else if x = 0xC#4 then .ecut p s y
  else if x = 0xD#4 then .edly p s y
  else if x = 0xE#4 then .epdly p s y
  else .einv p s y

/-- The effect kind of a cell (30_encoding.md R102): every cell has one (R105). -/
def cellKind (c : Cell) : Instr :=
  if c.cmd = 0x0#4 then
    if c.param = 0x00#8 then .noEffect c.period c.smp
    else .arp c.period c.smp (hiNibble c.param) (loNibble c.param)
  else if c.cmd = 0x1#4 then .pup c.period c.smp c.param
  else if c.cmd = 0x2#4 then .pdn c.period c.smp c.param
  else if c.cmd = 0x3#4 then .tporta c.period c.smp c.param
  else if c.cmd = 0x4#4 then .vib c.period c.smp (hiNibble c.param) (loNibble c.param)
  else if c.cmd = 0x5#4 then .tpvs c.period c.smp (hiNibble c.param) (loNibble c.param)
  else if c.cmd = 0x6#4 then .vibvs c.period c.smp (hiNibble c.param) (loNibble c.param)
  else if c.cmd = 0x7#4 then .trem c.period c.smp (hiNibble c.param) (loNibble c.param)
  else if c.cmd = 0x8#4 then .pan c.period c.smp c.param
  else if c.cmd = 0x9#4 then .offs c.period c.smp c.param
  else if c.cmd = 0xA#4 then .vsld c.period c.smp (hiNibble c.param) (loNibble c.param)
  else if c.cmd = 0xB#4 then .jump c.period c.smp c.param
  else if c.cmd = 0xC#4 then .vol c.period c.smp c.param
  else if c.cmd = 0xD#4 then .brk c.period c.smp (hiNibble c.param) (loNibble c.param)
  else if c.cmd = 0xE#4 then extendedKind c.period c.smp (hiNibble c.param) (loNibble c.param)
  else .spd c.period c.smp c.param

/-- The instruction of a cell word: total (30_encoding.md R101, R105). -/
def decodeWord (w : Word) : Instr := cellKind (wordCell w)

/-- The host command of a CTRL value: `op = CTRL[2:0]`, the bits above are ignored (10_state.md R39, 30_encoding.md R112). -/
def decodeCtrl (v : Word) : Instr :=
  let op := v.extractLsb' 0 3
  if op = 0#3 then .nop
  else if op = 1#3 then .start
  else if op = 2#3 then .pause
  else if op = 3#3 then .resume
  else if op = 4#3 then .stop
  else if op = 5#3 then .rsvd5
  else if op = 6#3 then .rsvd6
  else .rsvd7

/-- Why bytes do not decode. No cell word and no CTRL value is illegal (30_encoding.md R105); only missing bytes are refused. -/
inductive DecodeError where
  /-- Fewer than the 4 bytes that a cell or a CTRL value takes (30_encoding.md R113). -/
  | missingBytes
  deriving DecidableEq, Repr

/-- The big-endian word of 4 bytes (20_memory.md R62). -/
def bytesWord (b0 b1 b2 b3 : Byte) : Word :=
  BitVec.ofNat 32 (b0.toNat * 2 ^ 24 + b1.toNat * 2 ^ 16 + b2.toNat * 2 ^ 8 + b3.toNat)

/-- The 4 bytes of a word, the most significant first (20_memory.md R62). -/
def wordBytes (w : Word) : List Byte :=
  [w.extractLsb' 24 8, w.extractLsb' 16 8, w.extractLsb' 8 8, w.extractLsb' 0 8]

/-- Decode the first instruction of a list of bytes, and give back the rest. Total; refuses missing bytes by name. -/
def decode (sp : Space) : List Byte → Except DecodeError (Instr × List Byte)
  | b0 :: b1 :: b2 :: b3 :: rest =>
    .ok (match sp with
      | .cell => decodeWord (bytesWord b0 b1 b2 b3)
      | .ctrl => decodeCtrl (bytesWord b0 b1 b2 b3), rest)
  | _ => .error .missingBytes

/-- The word of an instruction, from the encoding tables (30_encoding.md R99, R102, R103, R112). -/
def encode : Instr → Word
  | .noEffect p s => cellWord ⟨p, s, 0x0#4, 0x00#8⟩
  | .arp p s x y => cellWord ⟨p, s, 0x0#4, joinNibbles x y⟩
  | .pup p s xx => cellWord ⟨p, s, 0x1#4, xx⟩
  | .pdn p s xx => cellWord ⟨p, s, 0x2#4, xx⟩
  | .tporta p s xx => cellWord ⟨p, s, 0x3#4, xx⟩
  | .vib p s x y => cellWord ⟨p, s, 0x4#4, joinNibbles x y⟩
  | .tpvs p s x y => cellWord ⟨p, s, 0x5#4, joinNibbles x y⟩
  | .vibvs p s x y => cellWord ⟨p, s, 0x6#4, joinNibbles x y⟩
  | .trem p s x y => cellWord ⟨p, s, 0x7#4, joinNibbles x y⟩
  | .pan p s xx => cellWord ⟨p, s, 0x8#4, xx⟩
  | .offs p s xx => cellWord ⟨p, s, 0x9#4, xx⟩
  | .vsld p s x y => cellWord ⟨p, s, 0xA#4, joinNibbles x y⟩
  | .jump p s xx => cellWord ⟨p, s, 0xB#4, xx⟩
  | .vol p s xx => cellWord ⟨p, s, 0xC#4, xx⟩
  | .brk p s x y => cellWord ⟨p, s, 0xD#4, joinNibbles x y⟩
  | .spd p s xx => cellWord ⟨p, s, 0xF#4, xx⟩
  | .efilt p s y => cellWord ⟨p, s, 0xE#4, joinNibbles 0x0#4 y⟩
  | .efpu p s y => cellWord ⟨p, s, 0xE#4, joinNibbles 0x1#4 y⟩
  | .efpd p s y => cellWord ⟨p, s, 0xE#4, joinNibbles 0x2#4 y⟩
  | .eglis p s y => cellWord ⟨p, s, 0xE#4, joinNibbles 0x3#4 y⟩
  | .evwav p s y => cellWord ⟨p, s, 0xE#4, joinNibbles 0x4#4 y⟩
  | .eftun p s y => cellWord ⟨p, s, 0xE#4, joinNibbles 0x5#4 y⟩
  | .eloop p s y => cellWord ⟨p, s, 0xE#4, joinNibbles 0x6#4 y⟩
  | .etwav p s y => cellWord ⟨p, s, 0xE#4, joinNibbles 0x7#4 y⟩
  | .eun8 p s y => cellWord ⟨p, s, 0xE#4, joinNibbles 0x8#4 y⟩
  | .ertrg p s y => cellWord ⟨p, s, 0xE#4, joinNibbles 0x9#4 y⟩
  | .efvu p s y => cellWord ⟨p, s, 0xE#4, joinNibbles 0xA#4 y⟩
  | .efvd p s y => cellWord ⟨p, s, 0xE#4, joinNibbles 0xB#4 y⟩
  | .ecut p s y => cellWord ⟨p, s, 0xE#4, joinNibbles 0xC#4 y⟩
  | .edly p s y => cellWord ⟨p, s, 0xE#4, joinNibbles 0xD#4 y⟩
  | .epdly p s y => cellWord ⟨p, s, 0xE#4, joinNibbles 0xE#4 y⟩
  | .einv p s y => cellWord ⟨p, s, 0xE#4, joinNibbles 0xF#4 y⟩
  | .nop => 0#32
  | .start => 1#32
  | .pause => 2#32
  | .resume => 3#32
  | .stop => 4#32
  | .rsvd5 => 5#32
  | .rsvd6 => 6#32
  | .rsvd7 => 7#32

/-- The instruction the decoder reads from a row of spec/opcode_table.json whose bits are `w`. The host-command rows fix
bits 2 to 0, one byte; every cell row fixes bit 11, two bytes: the number of bits tells the two spaces apart. -/
def decodeTableWord (nbits w : Nat) : Option Instr :=
  let sp := if nbits ≤ 8 then Space.ctrl else Space.cell
  match decode sp (wordBytes (BitVec.ofNat 32 w)) with
  | .ok (i, _) => some i
  | .error _ => none

end Sys2Proof
end

