-- ==== Sys2Proof/Machine/Operands.lean ====
section
/-! DEFINITION. The operand forms of a cell (30_encoding.md R99, R107): the raw cell, its nibbles, the cell a
continuation tick reads from the latch, the held note of note delay; and the narrowing of exact results to the
registers' widths. -/

namespace Sys2Proof.Machine

/-- The cell of a note delay of at least one tick: its note part is held back (42_sequencer.md R184). -/
def heldNote (c : Cell) : Bool := c.cmd = 0xE#4 && hiNibble c.param = 0xD#4 && loNibble c.param ≠ 0#4

/-- The cell has a note part (42_sequencer.md R184, 45_events.md R311). -/
def hasNotePart (c : Cell) : Bool := c.period ≠ 0#12 || c.smp ≠ 0#8

/-- The cell a continuation tick runs: the latched effect, with no note part (10_state.md R27). -/
def latchedCell (h : Channel) : Cell := { period := 0#12, smp := 0#8, cmd := h.cmd, param := h.param }

/-- The cell whose note a note delay releases (43_effects.md R248). -/
def delayedCell (h : Channel) : Cell := { period := h.dlyPeriod, smp := h.dlySmp, cmd := 0xE#4, param := h.param }

/-- An exact period as a 12-bit register value. A result outside 0 to 4095, which the spec does not state, leaves a free
value (log entry 12). -/
def narrowPeriod (v : Int) : BitVec 12 :=
  if 0 ≤ v ∧ v ≤ 4095 then BitVec.ofInt 12 v else Config.periodOutsideRange v

/-- `clamp(v, 0, 64)` as a 7-bit volume (43_effects.md R255). -/
def clampVolume (v : Int) : BitVec 7 := BitVec.ofNat 7 (min (max v 0) 64).toNat

/-- `min(v + d, 64)` as a 7-bit volume (43_effects.md R233, R245, R252). -/
def volumeUp (v d : Nat) : BitVec 7 := BitVec.ofNat 7 (min (v + d) 64)

/-- `max(v - d, 0)` as a 7-bit volume (43_effects.md R246, R252). -/
def volumeDown (v d : Nat) : BitVec 7 := BitVec.ofNat 7 (v - d)

/-- `a asr n`: floor of `a / 2^n` (00_scope.md R11). -/
def asr (a : Int) (n : Nat) : Int := a / 2 ^ n

/-- `clamp(v, -32768, 32767)` as a 16-bit output value (44_mixer.md R289). -/
def clampSample (v : Int) : BitVec 16 := BitVec.ofInt 16 (min (max v (-32768)) 32767)

end Sys2Proof.Machine
end

