-- ==== Sys2Proof/Machine/Flags.lean ====
section
/-! DEFINITION. The one-bit flags that are computed rather than set or cleared (10_state.md R34), the derived
`draining`, and the codes of the two coded registers. The block has no arithmetic condition codes. -/

namespace Sys2Proof.Machine

/-- `NOOP(c)`: the cell's sample number is nonzero and names no playable sample (42_sequencer.md R187, R188). -/
def noopNote (s : State) (c : Cell) : Bool :=
  c.smp ≠ 0#8 && (decide (31 < c.smp.toNat) || (s.hdr c.smp.toNat).len = 0#17)

/-- The `active` flag of a restarted channel: a sample is bound and the start lies inside it (42_sequencer.md R189); a start past
the loop but inside the sample counts (log entry 28). -/
def startsInside (s : State) (smp : BitVec 5) (off : Nat) : Bool :=
  smp ≠ 0#5 && decide (off < (s.hdr smp.toNat).len.toNat)

/-- `loop_en` of a sample header, from its loop length in words and its lengths in frames (30_encoding.md R93). -/
def loopEnabled (loopWords loopStart loopLen len : Nat) : Bool :=
  decide (1 < loopWords) && decide (loopStart + loopLen ≤ len)

/-- `draining`: Stopped with frames left in the ring (10_state.md R38). -/
def draining (s : State) : Bool := decide (s.seqState = .stopped) && !s.ring.isEmpty

/-- `SILENT(k)` (44_mixer.md R282). -/
def silentChannel (h : Channel) : Bool := !h.active || h.smp = 0#5 || h.outPeriod = 0#12

/-- The 2-bit code of `seq_state` (10_state.md R31). -/
def SeqState.code : SeqState → Nat
  | .stopped => 0
  | .playing => 1
  | .paused => 2
  | .finished => 3

/-- The 3-bit code of `error` (60_exceptions.md R330). -/
def ErrorCode.code : ErrorCode → Nat
  | .none => 0
  | .unknownSignature => 1
  | .truncatedData => 2
  | .invalidSampleLength => 3
  | .patternIndexOutOfRange => 4
  | .playbackError => 5

end Sys2Proof.Machine
end

