-- ==== Sys2Proof/Machine/Loader.lean ====
section
/-! DEFINITION. The header decoder: reading and checking the module image at START (30_encoding.md R90 to R97,
40_control.md R135). -/

namespace Sys2Proof.Machine

/-- The reader number of the header decoder, beside the channels' 0 to 7 (log entry 6). -/
def headerReader : Nat := 8

/-- Sample header `n`, 1 to 31, of an image, without its base (30_encoding.md R92, R93). -/
def readHeader (rd : Nat → Byte) (n : Nat) : SampleHdr :=
  let h := 20 + 30 * (n - 1)
  let len := 2 * half rd (h + 22)
  let ls := 2 * half rd (h + 26)
  let lw := half rd (h + 28)
  { len := BitVec.ofNat 17 len
    ft := loNibble (rd (h + 24))
    vol := BitVec.ofNat 7 (min (rd (h + 25)).toNat 64)
    loopStart := BitVec.ofNat 17 ls
    loopLen := BitVec.ofNat 17 (2 * lw)
    loopEn := loopEnabled lw ls (2 * lw) len
    base := 0 }

/-- The summed length in frames of samples `1 .. n` of an image (20_memory.md R66). -/
def payloadLen (rd : Nat → Byte) : Nat → Nat
  | 0 => 0
  | n + 1 => payloadLen rd n + (readHeader rd (n + 1)).len.toNat

/-- The 128 order bytes of an image (30_encoding.md R95). -/
def readOrder (rd : Nat → Byte) : Vector (BitVec 8) 128 := Vector.ofFn fun i => rd (952 + i.val)

/-- The largest of the first `n` order bytes of an image. -/
def maxOrder (rd : Nat → Byte) : Nat → Nat
  | 0 => 0
  | n + 1 => max (maxOrder rd n) (rd (952 + n)).toNat

/-- The pattern count `P'`, over all 128 entries (30_encoding.md R96). -/
def patternCount (rd : Nat → Byte) : Nat := 1 + maxOrder rd 128

/-- A sample of the image is longer than the block can play (40_control.md R135 step 5). -/
def sampleTooLong (rd : Nat → Byte) : Bool :=
  (List.range 31).any fun i => decide (maxSampleFrames < (readHeader rd (i + 1)).len.toNat)

/-- The address of the first sample payload for `c` channels (20_memory.md R64). -/
def payloadBase (rd : Nat → Byte) (c : Nat) : Nat := 1084 + patternCount rd * 256 * c

/-- The latches of an image of `c` channels (40_control.md R135 step 7, 20_memory.md R66). -/
def readLatches (rd : Nat → Byte) (c : Nat) : Latches :=
  { chanCount := BitVec.ofNat 4 c
    songLen := rd 950
    restart := rd 951
    orderTab := readOrder rd
    patCount := BitVec.ofNat 8 (patternCount rd)
    smpBase := BitVec.ofNat 32 (payloadBase rd c)
    samples := Vector.ofFn fun i =>
      { readHeader rd (i.val + 1) with base := BitVec.ofNat 32 (payloadBase rd c + payloadLen rd i.val) } }

/-- `LOAD_AND_CHECK` on an image of `len` bytes: the first failing check's code, or the latches (40_control.md R135). -/
def loadAndCheck (rd : Nat → Byte) (len : Nat) : Except ErrorCode Latches :=
  if len < 1084 then .error .truncatedData
  else match signatureChannels (quad rd 1080) with
    | none => .error .unknownSignature
    | some c =>
      if (rd 950).toNat = 0 ∨ 128 < (rd 950).toNat then .error .patternIndexOutOfRange
      else if maxPatterns < patternCount rd then .error .patternIndexOutOfRange
      else if sampleTooLong rd then .error .invalidSampleLength
      else if len < payloadBase rd c + payloadLen rd 31 then .error .truncatedData
      else .ok (readLatches rd c)

/-- `LOAD_AND_CHECK` on the module memory of a state, with the latched image length `a_len` (40_control.md R135). -/
def loadImage (s : State) : Except ErrorCode Latches := loadAndCheck (byteAt s headerReader) s.act.len.toNat

end Sys2Proof.Machine
end

