-- ==== Sys2Proof/Machine/Control.lean ====
section
/-! DEFINITION. The host commands of CTRL (40_control.md R132 to R143). -/

namespace Sys2Proof.Machine

/-- START latches the configuration (10_state.md R41, 40_control.md R133). -/
def latchConfig (s : State) : State :=
  { s with act := { rate := s.cfg.rate, interp := s.cfg.interp, pan := s.cfg.pan, arp := s.cfg.arp, gain := s.cfg.gain
                    len := s.cfg.moduleLen } }

/-- `RESET_SONG_STATE` (40_control.md R138): the ring is not touched. -/
def resetSong (s : State) : State :=
  { s with
    ch := Vector.replicate 8 Channel.silent
    seq := SeqRegs.initial
    pauseReq := false
    error := .none
    cnt := { frameCount := 0, tickCount := 0, evDrop := 0 }
    evq := []
    clk := { fptLatched := latchedFpt SeqRegs.initial.tempo s.act.rate, frameInTick := 0 } }

/-- The accepted START once every check has passed: fresh song state, Playing, and the trigger phase of row 0, which the
same step runs from channel 0 on (40_control.md R133, R134; log entry 10). -/
def beginSong (s : State) (l : Latches) : State :=
  { resetSong { s with latch := l } with seqState := .playing, phase := .startCells, chan := 0 }

/-- START (40_control.md R132, R133, R136). -/
def execStart (s : State) : Answer :=
  .next (
    if s.seqState = .playing ∨ s.seqState = .paused then s
    else
      let s1 := latchConfig s
      match loadImage s1 with
      | .error e => raiseLoadError s1 e
      | .ok l => beginSong s1 l)

/-- PAUSE (40_control.md R140). -/
def execPause (s : State) : Answer :=
  .next (if s.seqState = .playing ∨ s.seqState = .paused then { s with pauseReq := true } else s)

/-- RESUME (40_control.md R141). -/
def execResume (s : State) : Answer :=
  .next (if s.seqState = .playing ∨ s.seqState = .paused then { s with pauseReq := false } else s)

/-- STOP (40_control.md R142). -/
def execStop (s : State) : Answer :=
  .next (if s.seqState = .stopped then s else { s with seqState := .stopped, pauseReq := false })

/-- NOP (40_control.md R143). -/
def execNop (s : State) : Answer := .next s

/-- CTRL op 5, reserved: nothing (40_control.md R143). -/
def execRsvd5 (s : State) : Answer := .next s

/-- CTRL op 6, reserved: nothing (40_control.md R143). -/
def execRsvd6 (s : State) : Answer := .next s

/-- CTRL op 7, reserved: nothing (40_control.md R143). -/
def execRsvd7 (s : State) : Answer := .next s

end Sys2Proof.Machine
end

