-- ==== Sys2Proof/Machine/Notes.lean ====
section
/-! DEFINITION. The note part of a cell (42_sequencer.md R184 to R192): RETRIGGER, NOTE, EMIT, the trigger-phase body of
one channel, and how a cell instruction runs at a tick. -/

namespace Sys2Proof.Machine

/-- The cursor a restart begins at: the sample offset of a `9xx` cell, else 0 (42_sequencer.md R189, 43_effects.md R230). -/
def startOffset (h : Channel) (c : Cell) : Nat :=
  if c.cmd = 0x9#4 then 256 * (if c.param ≠ 0#8 then c.param.toNat else h.offsetMem.toNat) else 0

/-- Restart channel `k`'s sample from frame `off` (42_sequencer.md R189, 43_effects.md R244). -/
def restartAt (s : State) (k : Fin 8) (off : Nat) : State :=
  s.modCh k fun h =>
    { h with posInt := BitVec.ofNat 18 off, posFrac := 0, loopActive := false, active := startsInside s h.smp off }

/-- `RETRIGGER(k, c)` (42_sequencer.md R189). -/
def retrigger (s : State) (k : Fin 8) (c : Cell) : State := restartAt s k (startOffset (s.getCh k) c)

/-- Bind sample number `n` to channel `k`, with its finetune and default volume (42_sequencer.md R187, R192). -/
def bindSample (s : State) (k : Fin 8) (n : BitVec 8) : State :=
  let hd := s.hdr n.toNat
  s.modCh k fun h => { h with smp := n.setWidth 5, ft := hd.ft, vol := hd.vol, outVol := hd.vol }

/-- The sample-number half of `NOTE` (42_sequencer.md R187). -/
def noteSample (s : State) (k : Fin 8) (c : Cell) : State :=
  if c.smp ≠ 0#8 then retrigger (bindSample s k c.smp) k c else s

/-- The finetune an `E5y` cell sets before its period is looked up (42_sequencer.md R187, 43_effects.md R240). -/
def noteFinetune (s : State) (k : Fin 8) (c : Cell) : State :=
  if c.cmd = 0xE#4 && hiNibble c.param = 0x5#4 then s.modCh k fun h => { h with ft := loNibble c.param } else s

/-- The period half of `NOTE`: a tone-portamento target, or a new pitch and a restart (42_sequencer.md R187, R190). -/
def notePeriod (s : State) (k : Fin 8) (c : Cell) : State :=
  if c.period = 0#12 then s
  else
    let q := lookup c.period (s.getCh k).ft
    if (c.cmd = 0x3#4 || c.cmd = 0x5#4) && (s.getCh k).basePeriod ≠ 0#12 then
      s.modCh k fun h => { h with portaTarget := q }
    else retrigger (s.modCh k fun h => { h with basePeriod := q, outPeriod := q }) k c

/-- `NOTE(k, c)` (42_sequencer.md R187); a no-op note does nothing (R188). -/
def note (s : State) (k : Fin 8) (c : Cell) : State :=
  if noopNote s c then s else notePeriod (noteFinetune (noteSample s k c) k c) k c

/-- The NoteEvent of channel `k` and cell `c` (45_events.md R310, R311). -/
def noteEvent (s : State) (k : Fin 8) (c : Cell) : NoteEvent :=
  { tickIndex := s.cnt.tickCount, channel := BitVec.ofNat 3 k.val, sample := c.smp, period := c.period
    volume := (s.getCh k).vol, cmd := c.cmd, param := c.param }

/-- `EMIT(k, c)` (45_events.md R311). -/
def emit (s : State) (k : Fin 8) (c : Cell) : State := evPush s (noteEvent s k c)

/-- `EMIT` for a cell with a note part that is not a no-op note, else nothing (42_sequencer.md R184, 43_effects.md R248). -/
def emitIfNote (s : State) (k : Fin 8) (c : Cell) : State :=
  if hasNotePart c && !noopNote s c then emit s k c else s

/-- Latch the cell's effect and revert the modulated outputs (42_sequencer.md R185, R186). -/
def latchCell (s : State) (k : Fin 8) (c : Cell) : State :=
  s.modCh k fun h => { h with cmd := c.cmd, param := c.param, outPeriod := h.basePeriod, outVol := h.vol }

/-- The note part of a trigger: held back by a note delay, else processed (42_sequencer.md R184). -/
def triggerNote (s : State) (k : Fin 8) (c : Cell) : State :=
  if heldNote c then s.modCh k fun h => { h with dlyPeriod := c.period, dlySmp := c.smp } else note s k c

/-- What an effect does in the trigger phase: `EFFECT_T0` (42_sequencer.md R193). -/
abbrev TriggerEffect := State → Fin 8 → State

/-- What an effect does at a continuation tick: `EFFECT_TN` (42_sequencer.md R198). -/
abbrev TickEffect := BitVec 5 → State → Fin 8 → State

/-- An effect that does nothing at T0. -/
def noT0 : TriggerEffect := fun s _ => s

/-- An effect that does nothing at TN. -/
def noTN : TickEffect := fun _ s _ => s

/-- The body of `TRIGGER_PHASE` for channel `k`, cell `c` and its effect (42_sequencer.md R184). -/
def triggerCell (c : Cell) (t0 : TriggerEffect) (s : State) (k : Fin 8) : State :=
  let s1 := t0 (triggerNote (latchCell s k c) k c) k
  if heldNote c then s1 else emitIfNote s1 k c

/-- How a cell instruction runs on the current channel: its trigger phase at tick 0, its continuation at tick t ≥ 1
(42_sequencer.md R182; log entry 11). -/
def runCell (c : Cell) (t0 : TriggerEffect) (tn : TickEffect) (s : State) : Answer :=
  .next (if s.seq.tick = 0#5 then triggerCell c t0 s s.chan else tn s.seq.tick s s.chan)

end Sys2Proof.Machine
end

