-- ==== Sys2Proof/Machine/FlowEffects.lean ====
section
/-! DEFINITION. The effects on the song position and the tempo: pattern jump, pattern break, set speed or tempo, pattern
loop and pattern delay (43_effects.md R232, R234, R241, R249, R251). -/

namespace Sys2Proof.Machine

/-- The row of a pattern break: two decimal digits, 0 where they exceed 63 (43_effects.md R234). -/
def breakTarget (x y : BitVec 4) : BitVec 6 :=
  let r := 10 * x.toNat + y.toNat
  if r ≤ 63 then BitVec.ofNat 6 r else 0#6

/-- Set the speed from the next row on, or the tempo; 0 is ignored (43_effects.md R251). -/
def setSpeedTempo (xx : BitVec 8) (s : State) : State :=
  if xx = 0#8 then s
  else if xx.toNat ≤ 0x1F then { s with seq := { s.seq with speedPending := xx.setWidth 5 } }
  else { s with seq := { s.seq with tempo := xx } }

/-- Schedule the pattern-loop jump back to the channel's start row (43_effects.md R241). -/
def scheduleLoop (s : State) (k : Fin 8) : State :=
  { s with seq := { s.seq with loopjumpPending := true, loopjumpRow := (s.getCh k).loopRow } }

/-- The pattern loop, in a row that is not a pattern-delay repetition (43_effects.md R241). -/
def patternLoop (y : BitVec 4) (s : State) (k : Fin 8) : State :=
  if s.seq.delayActive then s
  else if y = 0#4 then s.modCh k fun h => { h with loopRow := s.seq.row }
  else if (s.getCh k).loopCount = 0#4 then scheduleLoop (s.modCh k fun h => { h with loopCount := y }) k
  else
    let s1 := s.modCh k fun h => { h with loopCount := h.loopCount - 1 }
    if (s1.getCh k).loopCount ≠ 0#4 then scheduleLoop s1 k else s1

/-- JUMP (43_effects.md R232). -/
def execJump (period : BitVec 12) (smp : BitVec 8) (xx : BitVec 8) (s : State) : Answer :=
  runCell ⟨period, smp, 0xB#4, xx⟩
    (fun s _ => { s with seq := { s.seq with jumpPending := true, jumpTarget := xx } }) noTN s

/-- BRK (43_effects.md R234). -/
def execBrk (period : BitVec 12) (smp : BitVec 8) (x y : BitVec 4) (s : State) : Answer :=
  runCell ⟨period, smp, 0xD#4, joinNibbles x y⟩
    (fun s _ => { s with seq := { s.seq with breakPending := true, breakRow := breakTarget x y } }) noTN s

/-- SPD (43_effects.md R251). -/
def execSpd (period : BitVec 12) (smp : BitVec 8) (xx : BitVec 8) (s : State) : Answer :=
  runCell ⟨period, smp, 0xF#4, xx⟩ (fun s _ => setSpeedTempo xx s) noTN s

/-- ELOOP (43_effects.md R241). -/
def execEloop (period : BitVec 12) (smp : BitVec 8) (y : BitVec 4) (s : State) : Answer :=
  runCell ⟨period, smp, 0xE#4, joinNibbles 0x6#4 y⟩ (patternLoop y) noTN s

/-- EPDLY: ignored in a repetition (43_effects.md R249). `EE0` writes a count of 0, as the pseudocode does, also over a count
that a lower channel of the row has set (log entry 24). -/
def execEpdly (period : BitVec 12) (smp : BitVec 8) (y : BitVec 4) (s : State) : Answer :=
  runCell ⟨period, smp, 0xE#4, joinNibbles 0xE#4 y⟩
    (fun s _ => if s.seq.delayActive then s else { s with seq := { s.seq with delayCount := y } }) noTN s

end Sys2Proof.Machine
end

