-- ==== Sys2Proof/Machine/PitchEffects.lean ====
section
/-! DEFINITION. The effects on pitch: arpeggio, portamento, tone portamento, vibrato, fine portamento, finetune and the
vibrato waveform (43_effects.md R221 to R227, R236 to R240, R253 to R258). -/

namespace Sys2Proof.Machine

/-- Set the base period and what the mixer plays (10_state.md R25). -/
def setPeriod (h : Channel) (p : BitVec 12) : Channel := { h with basePeriod := p, outPeriod := p }

/-- A slide up by `d`, not below PERIOD_MIN; nothing without a note (43_effects.md R222, R236, R258). A slide by 0 raises a
base below PERIOD_MIN to it, as the pseudocode does (log entry 23). -/
def slideUp (h : Channel) (d : Nat) : Channel :=
  if h.basePeriod = 0#12 then h
  else setPeriod h (BitVec.ofNat 12 (max ((h.basePeriod.toNat : Int) - d) periodMin).toNat)

/-- A slide down by `d`, not above PERIOD_MAX; nothing without a note (43_effects.md R223, R237, R258). -/
def slideDown (h : Channel) (d : Nat) : Channel :=
  if h.basePeriod = 0#12 then h
  else setPeriod h (BitVec.ofNat 12 (min (h.basePeriod.toNat + d) periodMax))

/-- The base period moved toward a target by a rate, without passing it (43_effects.md R253). -/
def towardTarget (base target rate : Nat) : Nat :=
  if base < target then min (base + rate) target
  else if target < base then (max ((base : Int) - rate) target).toNat
  else base

/-- `TONEPORTA(k)` (43_effects.md R253); nothing without a note (R258; log entry 21). -/
def tonePorta (h : Channel) : Channel :=
  if h.basePeriod = 0#12 then h
  else if h.portaTarget = 0#12 then { h with outPeriod := h.basePeriod }
  else
    let b := BitVec.ofNat 12 (towardTarget h.basePeriod.toNat h.portaTarget.toNat h.portaRate.toNat)
    { h with basePeriod := b, outPeriod := b, portaTarget := if b = h.portaTarget then 0#12 else h.portaTarget }

/-- The depth of vibrato at the current phase, 0 to 29 (43_effects.md R254). -/
def vibratoDelta (h : Channel) : Nat := wave h.vibWave h.vibPos * h.vibDepth.toNat / 2 ^ 7

/-- The exact modulated period: up in the first half-wave, down in the second (43_effects.md R254, 30_encoding.md R111). -/
def vibratoPeriod (h : Channel) : Int :=
  if h.vibPos.toNat < 32 then (h.basePeriod.toNat : Int) + vibratoDelta h else (h.basePeriod.toNat : Int) - vibratoDelta h

/-- `VIBRATO(k)` (43_effects.md R254). -/
def vibrato (h : Channel) : Channel :=
  if h.basePeriod = 0#12 then h
  else { h with outPeriod := narrowPeriod (vibratoPeriod h), vibPos := h.vibPos + h.vibSpeed.setWidth 6 }

/-- The volume slide by `x` up, or else `y` down, within 0 to 64: `VOLSLIDE(k, xy)` (43_effects.md R252). -/
def volSlide (x y : BitVec 4) (h : Channel) : Channel :=
  let v := if x ≠ 0#4 then volumeUp h.vol.toNat x.toNat else volumeDown h.vol.toNat y.toNat
  { h with vol := v, outVol := v }

/-- What an arpeggio step with offset `off` plays: the period `off` semitones up (43_effects.md R256); at offset 0 the base
itself, the corner case of R221 (log entry 25). -/
def arpStep (h : Channel) (off : Nat) : BitVec 12 :=
  if off = 0 then h.basePeriod else arpPeriod h.basePeriod h.ft off

/-- Arpeggio at tick `t`: base, first or second offset by `t mod 3` (43_effects.md R221, R256). -/
def arpeggio (fromParam : Bool) (x y : BitVec 4) (t : BitVec 5) (h : Channel) : Channel :=
  if h.basePeriod = 0#12 then h
  else
    let r := t.toNat % 3
    let a1 := if fromParam then x.toNat else 4
    let a2 := if fromParam then y.toNat else 3
    { h with outPeriod :=
        if r = 0 then h.basePeriod
        else if r = 1 then arpStep h a1
        else arpStep h a2 }

/-- ARP (43_effects.md R221). -/
def execArp (period : BitVec 12) (smp : BitVec 8) (x y : BitVec 4) (s : State) : Answer :=
  runCell ⟨period, smp, 0x0#4, joinNibbles x y⟩ noT0 (fun t s k => s.modCh k (arpeggio s.act.arp x y t)) s

/-- PUP (43_effects.md R222; `100` with a base below 113: log entry 23). -/
def execPup (period : BitVec 12) (smp : BitVec 8) (xx : BitVec 8) (s : State) : Answer :=
  runCell ⟨period, smp, 0x1#4, xx⟩ noT0 (fun _ s k => s.modCh k fun h => slideUp h xx.toNat) s

/-- PDN (43_effects.md R223). -/
def execPdn (period : BitVec 12) (smp : BitVec 8) (xx : BitVec 8) (s : State) : Answer :=
  runCell ⟨period, smp, 0x2#4, xx⟩ noT0 (fun _ s k => s.modCh k fun h => slideDown h xx.toNat) s

/-- TPORTA: a nonzero parameter is remembered as the rate, with base period 0 too (log entry 27); the ticks slide
(43_effects.md R224). -/
def execTporta (period : BitVec 12) (smp : BitVec 8) (xx : BitVec 8) (s : State) : Answer :=
  runCell ⟨period, smp, 0x3#4, xx⟩
    (fun s k => s.modCh k fun h => { h with portaRate := if xx ≠ 0#8 then xx else h.portaRate })
    (fun _ s k => s.modCh k tonePorta) s

/-- VIB: each nonzero nibble is remembered, with base period 0 too (log entry 27); the ticks modulate (43_effects.md R225). -/
def execVib (period : BitVec 12) (smp : BitVec 8) (x y : BitVec 4) (s : State) : Answer :=
  runCell ⟨period, smp, 0x4#4, joinNibbles x y⟩
    (fun s k => s.modCh k fun h =>
      { h with vibSpeed := if x ≠ 0#4 then x else h.vibSpeed, vibDepth := if y ≠ 0#4 then y else h.vibDepth })
    (fun _ s k => s.modCh k vibrato) s

/-- TPVS (43_effects.md R226); the volume slides with base period 0 too (log entry 27). -/
def execTpvs (period : BitVec 12) (smp : BitVec 8) (x y : BitVec 4) (s : State) : Answer :=
  runCell ⟨period, smp, 0x5#4, joinNibbles x y⟩ noT0 (fun _ s k => s.modCh k fun h => volSlide x y (tonePorta h)) s

/-- VIBVS (43_effects.md R227); the volume slides with base period 0 too (log entry 27). -/
def execVibvs (period : BitVec 12) (smp : BitVec 8) (x y : BitVec 4) (s : State) : Answer :=
  runCell ⟨period, smp, 0x6#4, joinNibbles x y⟩ noT0 (fun _ s k => s.modCh k fun h => volSlide x y (vibrato h)) s

/-- EFPU (43_effects.md R236). -/
def execEfpu (period : BitVec 12) (smp : BitVec 8) (y : BitVec 4) (s : State) : Answer :=
  runCell ⟨period, smp, 0xE#4, joinNibbles 0x1#4 y⟩ (fun s k => s.modCh k fun h => slideUp h y.toNat) noTN s

/-- EFPD (43_effects.md R237). -/
def execEfpd (period : BitVec 12) (smp : BitVec 8) (y : BitVec 4) (s : State) : Answer :=
  runCell ⟨period, smp, 0xE#4, joinNibbles 0x2#4 y⟩ (fun s k => s.modCh k fun h => slideDown h y.toNat) noTN s

/-- EGLIS: no effect in this block (43_effects.md R238). -/
def execEglis (period : BitVec 12) (smp : BitVec 8) (y : BitVec 4) (s : State) : Answer :=
  runCell ⟨period, smp, 0xE#4, joinNibbles 0x3#4 y⟩ noT0 noTN s

/-- EVWAV (43_effects.md R239). -/
def execEvwav (period : BitVec 12) (smp : BitVec 8) (y : BitVec 4) (s : State) : Answer :=
  runCell ⟨period, smp, 0xE#4, joinNibbles 0x4#4 y⟩
    (fun s k => s.modCh k fun h => { h with vibWave := y.extractLsb' 0 2 }) noTN s

/-- EFTUN (43_effects.md R240); the note of the same cell has already used it (42_sequencer.md R187). -/
def execEftun (period : BitVec 12) (smp : BitVec 8) (y : BitVec 4) (s : State) : Answer :=
  runCell ⟨period, smp, 0xE#4, joinNibbles 0x5#4 y⟩ (fun s k => s.modCh k fun h => { h with ft := y }) noTN s

end Sys2Proof.Machine
end

