-- ==== Sys2Proof/Machine/SampleEffects.lean ====
section
/-! DEFINITION. The effects on the sample and the output, and the effects without effect: NONE, panning, sample offset,
retrigger, note delay, and the no-op sub-commands (43_effects.md R220, R229, R230, R235, R243, R244, R248, R250). -/

namespace Sys2Proof.Machine

/-- Retrigger at tick `t` every `y` ticks (43_effects.md R244). -/
def retriggerEvery (y : BitVec 4) (t : BitVec 5) (s : State) (k : Fin 8) : State :=
  if y ≠ 0#4 ∧ t.toNat % y.toNat = 0 then restartAt s k 0 else s

/-- Release the held note at tick `y` (43_effects.md R248). -/
def releaseNote (y : BitVec 4) (t : BitVec 5) (s : State) (k : Fin 8) : State :=
  if y ≠ 0#4 ∧ t.toNat = y.toNat then
    let c := delayedCell (s.getCh k)
    emitIfNote (note s k c) k c
  else s

/-- NONE (43_effects.md R220). -/
def execNoEffect (period : BitVec 12) (smp : BitVec 8) (s : State) : Answer :=
  runCell ⟨period, smp, 0x0#4, 0x00#8⟩ noT0 noTN s

/-- PAN: explicit panning, if panning is supported (43_effects.md R229). -/
def execPan (period : BitVec 12) (smp : BitVec 8) (xx : BitVec 8) (s : State) : Answer :=
  runCell ⟨period, smp, 0x8#4, xx⟩
    (fun s k => if s.act.pan then s.modCh k fun h => { h with panExplicit := true } else s) noTN s

/-- OFFS: the cell's note has started at the offset (42_sequencer.md R189); a nonzero one is remembered (43_effects.md R230). -/
def execOffs (period : BitVec 12) (smp : BitVec 8) (xx : BitVec 8) (s : State) : Answer :=
  runCell ⟨period, smp, 0x9#4, xx⟩
    (fun s k => s.modCh k fun h => { h with offsetMem := if xx ≠ 0#8 then xx else h.offsetMem }) noTN s

/-- EFILT: no effect in this block (43_effects.md R235). -/
def execEfilt (period : BitVec 12) (smp : BitVec 8) (y : BitVec 4) (s : State) : Answer :=
  runCell ⟨period, smp, 0xE#4, joinNibbles 0x0#4 y⟩ noT0 noTN s

/-- EUN8: no effect in this block (43_effects.md R243). -/
def execEun8 (period : BitVec 12) (smp : BitVec 8) (y : BitVec 4) (s : State) : Answer :=
  runCell ⟨period, smp, 0xE#4, joinNibbles 0x8#4 y⟩ noT0 noTN s

/-- ERTRG (43_effects.md R244). -/
def execErtrg (period : BitVec 12) (smp : BitVec 8) (y : BitVec 4) (s : State) : Answer :=
  runCell ⟨period, smp, 0xE#4, joinNibbles 0x9#4 y⟩ noT0 (retriggerEvery y) s

/-- EDLY: the trigger phase holds the note back (42_sequencer.md R184); tick `y` releases it (43_effects.md R248). -/
def execEdly (period : BitVec 12) (smp : BitVec 8) (y : BitVec 4) (s : State) : Answer :=
  runCell ⟨period, smp, 0xE#4, joinNibbles 0xD#4 y⟩ noT0 (releaseNote y) s

/-- EINV: no effect in this block (43_effects.md R250). -/
def execEinv (period : BitVec 12) (smp : BitVec 8) (y : BitVec 4) (s : State) : Answer :=
  runCell ⟨period, smp, 0xE#4, joinNibbles 0xF#4 y⟩ noT0 noTN s

end Sys2Proof.Machine
end

