-- ==== Sys2Proof/Machine/VolumeEffects.lean ====
section
/-! DEFINITION. The effects on volume: tremolo, volume slide, set volume, fine slides, note cut and the tremolo waveform
(43_effects.md R228, R231, R233, R242, R245 to R247, R255). -/

namespace Sys2Proof.Machine

/-- Set the volume and what the mixer plays (10_state.md R25). -/
def setVolume (h : Channel) (v : BitVec 7) : Channel := { h with vol := v, outVol := v }

/-- The depth of tremolo at the current phase, 0 to 59 (43_effects.md R255). -/
def tremoloDelta (h : Channel) : Nat := wave h.tremWave h.tremPos * h.tremDepth.toNat / 2 ^ 6

/-- The exact modulated volume: up in the first half-wave, down in the second (43_effects.md R255, 30_encoding.md R111). -/
def tremoloVolume (h : Channel) : Int :=
  if h.tremPos.toNat < 32 then (h.vol.toNat : Int) + tremoloDelta h else (h.vol.toNat : Int) - tremoloDelta h

/-- `TREMOLO(k)` (43_effects.md R255). -/
def tremolo (h : Channel) : Channel :=
  { h with outVol := clampVolume (tremoloVolume h), tremPos := h.tremPos + h.tremSpeed.setWidth 6 }

/-- TREM: each nonzero nibble is remembered; the ticks modulate (43_effects.md R228). -/
def execTrem (period : BitVec 12) (smp : BitVec 8) (x y : BitVec 4) (s : State) : Answer :=
  runCell ⟨period, smp, 0x7#4, joinNibbles x y⟩
    (fun s k => s.modCh k fun h =>
      { h with tremSpeed := if x ≠ 0#4 then x else h.tremSpeed, tremDepth := if y ≠ 0#4 then y else h.tremDepth })
    (fun _ s k => s.modCh k tremolo) s

/-- VSLD (43_effects.md R231). -/
def execVsld (period : BitVec 12) (smp : BitVec 8) (x y : BitVec 4) (s : State) : Answer :=
  runCell ⟨period, smp, 0xA#4, joinNibbles x y⟩ noT0 (fun _ s k => s.modCh k (volSlide x y)) s

/-- VOL (43_effects.md R233). -/
def execVol (period : BitVec 12) (smp : BitVec 8) (xx : BitVec 8) (s : State) : Answer :=
  runCell ⟨period, smp, 0xC#4, xx⟩ (fun s k => s.modCh k fun h => setVolume h (volumeUp 0 xx.toNat)) noTN s

/-- ETWAV (43_effects.md R242). -/
def execEtwav (period : BitVec 12) (smp : BitVec 8) (y : BitVec 4) (s : State) : Answer :=
  runCell ⟨period, smp, 0xE#4, joinNibbles 0x7#4 y⟩
    (fun s k => s.modCh k fun h => { h with tremWave := y.extractLsb' 0 2 }) noTN s

/-- EFVU (43_effects.md R245). -/
def execEfvu (period : BitVec 12) (smp : BitVec 8) (y : BitVec 4) (s : State) : Answer :=
  runCell ⟨period, smp, 0xE#4, joinNibbles 0xA#4 y⟩
    (fun s k => s.modCh k fun h => setVolume h (volumeUp h.vol.toNat y.toNat)) noTN s

/-- EFVD (43_effects.md R246). -/
def execEfvd (period : BitVec 12) (smp : BitVec 8) (y : BitVec 4) (s : State) : Answer :=
  runCell ⟨period, smp, 0xE#4, joinNibbles 0xB#4 y⟩
    (fun s k => s.modCh k fun h => setVolume h (volumeDown h.vol.toNat y.toNat)) noTN s

/-- ECUT: volume 0 at tick `y`, the trigger phase being tick 0 (43_effects.md R247). -/
def execEcut (period : BitVec 12) (smp : BitVec 8) (y : BitVec 4) (s : State) : Answer :=
  runCell ⟨period, smp, 0xE#4, joinNibbles 0xC#4 y⟩
    (fun s k => if y = 0#4 then s.modCh k fun h => setVolume h 0#7 else s)
    (fun t s k => if t.toNat = y.toNat then s.modCh k fun h => setVolume h 0#7 else s) s

end Sys2Proof.Machine
end

