-- ==== Sys2Proof/Machine/Dispatch.lean ====
section
/-! DEFINITION. The dispatch of an instruction to its meaning (42_sequencer.md R193, R198; 40_control.md R130). -/

namespace Sys2Proof.Machine

def exec (i : Instr) (s : State) : Host.Outcome State Fault Refusal :=
  match i with
  | .noEffect period smp => Sys2Proof.Machine.execNoEffect period smp s
  | .arp period smp x y => Sys2Proof.Machine.execArp period smp x y s
  | .pup period smp xx => Sys2Proof.Machine.execPup period smp xx s
  | .pdn period smp xx => Sys2Proof.Machine.execPdn period smp xx s
  | .tporta period smp xx => Sys2Proof.Machine.execTporta period smp xx s
  | .vib period smp x y => Sys2Proof.Machine.execVib period smp x y s
  | .tpvs period smp x y => Sys2Proof.Machine.execTpvs period smp x y s
  | .vibvs period smp x y => Sys2Proof.Machine.execVibvs period smp x y s
  | .trem period smp x y => Sys2Proof.Machine.execTrem period smp x y s
  | .pan period smp xx => Sys2Proof.Machine.execPan period smp xx s
  | .offs period smp xx => Sys2Proof.Machine.execOffs period smp xx s
  | .vsld period smp x y => Sys2Proof.Machine.execVsld period smp x y s
  | .jump period smp xx => Sys2Proof.Machine.execJump period smp xx s
  | .vol period smp xx => Sys2Proof.Machine.execVol period smp xx s
  | .brk period smp x y => Sys2Proof.Machine.execBrk period smp x y s
  | .spd period smp xx => Sys2Proof.Machine.execSpd period smp xx s
  | .efilt period smp y => Sys2Proof.Machine.execEfilt period smp y s
  | .efpu period smp y => Sys2Proof.Machine.execEfpu period smp y s
  | .efpd period smp y => Sys2Proof.Machine.execEfpd period smp y s
  | .eglis period smp y => Sys2Proof.Machine.execEglis period smp y s
  | .evwav period smp y => Sys2Proof.Machine.execEvwav period smp y s
  | .eftun period smp y => Sys2Proof.Machine.execEftun period smp y s
  | .eloop period smp y => Sys2Proof.Machine.execEloop period smp y s
  | .etwav period smp y => Sys2Proof.Machine.execEtwav period smp y s
  | .eun8 period smp y => Sys2Proof.Machine.execEun8 period smp y s
  | .ertrg period smp y => Sys2Proof.Machine.execErtrg period smp y s
  | .efvu period smp y => Sys2Proof.Machine.execEfvu period smp y s
  | .efvd period smp y => Sys2Proof.Machine.execEfvd period smp y s
  | .ecut period smp y => Sys2Proof.Machine.execEcut period smp y s
  | .edly period smp y => Sys2Proof.Machine.execEdly period smp y s
  | .epdly period smp y => Sys2Proof.Machine.execEpdly period smp y s
  | .einv period smp y => Sys2Proof.Machine.execEinv period smp y s
  | .nop => Sys2Proof.Machine.execNop s
  | .start => Sys2Proof.Machine.execStart s
  | .pause => Sys2Proof.Machine.execPause s
  | .resume => Sys2Proof.Machine.execResume s
  | .stop => Sys2Proof.Machine.execStop s
  | .rsvd5 => Sys2Proof.Machine.execRsvd5 s
  | .rsvd6 => Sys2Proof.Machine.execRsvd6 s
  | .rsvd7 => Sys2Proof.Machine.execRsvd7 s

end Sys2Proof.Machine
end

