-- ==== Sys2Proof/Machine/HostPort.lean ====
section
/-! DEFINITION. The host register map (10_state.md R39, R40): what a read of each index returns, and the writes other
than CTRL. -/

namespace Sys2Proof.Machine

/-- A bit as a number. -/
def bitNat (b : Bool) : Nat := if b then 1 else 0

/-- STATUS (10_state.md R39). -/
def readStatus (s : State) : Word :=
  BitVec.ofNat 32 (s.seqState.code + bitNat s.pauseReq * 2 ^ 2 + bitNat (draining s) * 2 ^ 3 + s.error.code * 2 ^ 4
    + s.latch.chanCount.toNat * 2 ^ 8)

/-- POSITION (10_state.md R39). -/
def readPosition (s : State) : Word :=
  BitVec.ofNat 32 (s.seq.order.toNat + s.seq.row.toNat * 2 ^ 8 + s.seq.tick.toNat * 2 ^ 16 + s.seq.delayCount.toNat * 2 ^ 24)

/-- TIMING (10_state.md R39). -/
def readTiming (s : State) : Word :=
  BitVec.ofNat 32 (s.seq.tempo.toNat + s.seq.speed.toNat * 2 ^ 8 + s.seq.speedPending.toNat * 2 ^ 16)

/-- CLOCK (10_state.md R39). -/
def readClock (s : State) : Word := BitVec.ofNat 32 (s.clk.fptLatched.toNat + s.clk.frameInTick.toNat * 2 ^ 16)

/-- FIFO: two 16-bit occupancies (10_state.md R39; log entry 16). -/
def readFifo (s : State) : Word := BitVec.ofNat 32 (s.ring.length % 2 ^ 16 + s.evq.length % 2 ^ 16 * 2 ^ 16)

/-- CFG_MODE (10_state.md R39). -/
def readMode (s : State) : Word := BitVec.ofNat 32 (bitNat s.cfg.interp + bitNat s.cfg.pan * 2 + bitNat s.cfg.arp * 4)

/-- What a host read of a register index returns (10_state.md R39, R40): CTRL and the reserved indexes read as 0. -/
def readReg (s : State) (i : BitVec 8) : Word :=
  if i = 0x01#8 then readStatus s
  else if i = 0x02#8 then readPosition s
  else if i = 0x03#8 then readTiming s
  else if i = 0x04#8 then readClock s
  else if i = 0x05#8 then s.cnt.frameCount
  else if i = 0x06#8 then s.cnt.tickCount
  else if i = 0x07#8 then s.cnt.evDrop
  else if i = 0x08#8 then readFifo s
  else if i = 0x09#8 then s.cfg.rate.setWidth 32
  else if i = 0x0A#8 then readMode s
  else if i = 0x0B#8 then s.cfg.gain.setWidth 32
  else if i = 0x0C#8 then s.cfg.moduleLen
  else 0#32

/-- A sample rate CFG_RATE holds (10_state.md R39, R40). -/
def legalRate (r : BitVec 18) : Bool := decide (8000 ≤ r.toNat) && decide (r.toNat ≤ 192000)

/-- The configuration registers may be written: Stopped or Finished (10_state.md R40). -/
def cfgWritable (s : State) : Bool := decide (s.seqState = .stopped) || decide (s.seqState = .finished)

/-- A host write to a register other than CTRL (10_state.md R40): reserved bits are dropped, an illegal rate, a read-only
or reserved index and a write while Playing or Paused are ignored (log entry 17). -/
def writeCfg (s : State) (i : BitVec 8) (v : Word) : State :=
  if cfgWritable s then
    if i = 0x09#8 then
      (if legalRate (v.extractLsb' 0 18) then { s with cfg := { s.cfg with rate := v.extractLsb' 0 18 } } else s)
    else if i = 0x0A#8 then
      { s with cfg := { s.cfg with interp := v.getLsbD 0, pan := v.getLsbD 1, arp := v.getLsbD 2 } }
    else if i = 0x0B#8 then { s with cfg := { s.cfg with gain := v.extractLsb' 0 8 } }
    else if i = 0x0C#8 then { s with cfg := { s.cfg with moduleLen := v } }
    else s
  else s

end Sys2Proof.Machine
end

