-- ==== Sys2Proof/Machine/Mixer.lean ====
section
/-! DEFINITION. The ChannelMixer (44_mixer.md): the frame of the channels' samples, and the cursors' advance. -/

namespace Sys2Proof.Machine

/-- `STEP(p)`: the cursor increment per frame, in 1/65536 frame (44_mixer.md R281). -/
def cursorStep (p rate : Nat) : Nat := clockConstant * 65536 / (p * rate)

/-- `END(k)`: the end of the region the cursor plays (44_mixer.md R286). -/
def regionEnd (hd : SampleHdr) : Nat := if hd.loopEn then hd.loopStart.toNat + hd.loopLen.toNat else hd.len.toNat

/-- `PCM(s, j)`: frame `j` of a sample, as reader `k` reads it (44_mixer.md R283, 20_memory.md R66). An address that is
not a 32-bit address is a fault (log entry 13). -/
def pcm (s : State) (k : Fin 8) (hd : SampleHdr) (j : Nat) : Except Fault Int :=
  if hd.base.toNat + j < 2 ^ 32 then .ok (byteAt s k.val (hd.base.toNat + j)).toInt
  else .error .addressOutsideModuleMemory

/-- The frame after the cursor: the next one, else the loop start, else 0 (44_mixer.md R284). -/
def nextFrameValue (s : State) (k : Fin 8) (hd : SampleHdr) (pos : Nat) : Except Fault Int :=
  if pos + 1 < regionEnd hd then pcm s k hd (pos + 1)
  else if hd.loopEn then pcm s k hd hd.loopStart.toNat
  else .ok 0

/-- Linear interpolation (44_mixer.md R284). -/
def interpolate (v0 v1 : Int) (frac : Nat) : Int := v0 + asr ((v1 - v0) * frac) 16

/-- `SAMPLE_VALUE(k)` (44_mixer.md R284). -/
def sampleValue (s : State) (k : Fin 8) : Except Fault Int :=
  let h := s.getCh k
  let hd := s.hdr h.smp.toNat
  match pcm s k hd h.posInt.toNat with
  | .error f => .error f
  | .ok v0 =>
    if s.act.interp then
      match nextFrameValue s k hd h.posInt.toNat with
      | .error f => .error f
      | .ok v1 => .ok (interpolate v0 v1 h.posFrac.toNat)
    else .ok v0

/-- Volume and master gain (44_mixer.md R287). -/
def scaleValue (v : Int) (outVol : BitVec 7) (gain : BitVec 8) : Int := asr (v * outVol.toNat * gain.toNat) 6

/-- `PAN`: the two sums after channel `k`'s contribution (44_mixer.md R288). -/
def panInto (k : Fin 8) (explicit : Bool) (c : Int) (acc : Int × Int) : Int × Int :=
  if explicit then (acc.1 + asr c 1, acc.2 + asr c 1)
  else if k.val % 2 = 0 then (acc.1 + c, acc.2)
  else (acc.1, acc.2 + c)

/-- `ADVANCE(k)`: one 34-bit addition to the cursor (44_mixer.md R285). -/
def advanceCursor (rate : BitVec 18) (h : Channel) : Channel :=
  let pos := (h.posInt.toNat * 65536 + h.posFrac.toNat + cursorStep h.outPeriod.toNat rate.toNat) % 2 ^ 34
  { h with posInt := BitVec.ofNat 18 (pos / 65536), posFrac := BitVec.ofNat 16 (pos % 65536) }

/-- `END_CHECK(k)` (44_mixer.md R286), which comes after the fetch: a cursor that was started past the loop has sounded one
frame there (log entry 28). -/
def endCheck (hd : SampleHdr) (h : Channel) : Channel :=
  if regionEnd hd ≤ h.posInt.toNat then
    if hd.loopEn then
      { h with
        loopActive := true
        posInt := BitVec.ofNat 18 (hd.loopStart.toNat + (h.posInt.toNat - regionEnd hd) % hd.loopLen.toNat) }
    else { h with active := false }
  else h

/-- One channel of `MIX`, in the order of 44_mixer.md R291: the frame under the cursor sounds before the end check, also where
a sample offset has started past the loop (log entry 28). -/
def mixChannel (s : State) (k : Fin 8) (acc : Int × Int) : Except Fault (State × (Int × Int)) :=
  let h := s.getCh k
  if silentChannel h then .ok (s, acc)
  else match sampleValue s k with
    | .error f => .error f
    | .ok v =>
      .ok (s.setCh k (endCheck (s.hdr h.smp.toNat) (advanceCursor s.act.rate h)),
           panInto k h.panExplicit (scaleValue v h.outVol s.act.gain) acc)

/-- The channels of `MIX` in order (44_mixer.md R280). -/
def mixChannels (s : State) (acc : Int × Int) : List (Fin 8) → Except Fault (State × (Int × Int))
  | [] => .ok (s, acc)
  | k :: rest =>
    match mixChannel s k acc with
    | .error f => .error f
    | .ok (s1, acc1) => mixChannels s1 acc1 rest

/-- `MIX()`: the state after it and the clamped frame (44_mixer.md R280, R289). -/
def mix (s : State) : Except Fault (State × Frame) :=
  match mixChannels s (0, 0) (s.channelsFrom 0) with
  | .error f => .error f
  | .ok (s1, acc) => .ok (s1, { left := clampSample acc.1, right := clampSample acc.2 })

end Sys2Proof.Machine
end

