-- ==== Sys2Proof/Machine/Sequencer.lean ====
section
/-! DEFINITION. The Sequencer's control: ADVANCE_TICK and ROW_ADVANCE (42_sequencer.md R180, R194 to R197). The cells of
the tick are run by Run.lean, which `phase` and `chan` tell where to begin. -/

namespace Sys2Proof.Machine

/-- Where the song goes at a row boundary: jump, break, pattern loop, or the next row (42_sequencer.md R194, R195, R199). -/
def nextPosition (q : SeqRegs) : Nat × BitVec 6 :=
  if q.jumpPending || q.breakPending then
    (if q.jumpPending then q.jumpTarget.toNat else q.order.toNat + 1, if q.breakPending then q.breakRow else 0#6)
  else if q.loopjumpPending then (q.order.toNat, q.loopjumpRow)
  else if q.row.toNat + 1 = 64 then (q.order.toNat + 1, 0#6)
  else (q.order.toNat, q.row + 1)

/-- Take tick 0 and commit a pending speed (42_sequencer.md R194). -/
def commitSpeed (q : SeqRegs) : SeqRegs :=
  if q.speedPending ≠ 0#5 then { q with tick := 0, speed := q.speedPending, speedPending := 0 } else { q with tick := 0 }

/-- Clear what was scheduled for the row boundary (42_sequencer.md R194). -/
def clearPending (q : SeqRegs) : SeqRegs :=
  { q with delayActive := false, jumpPending := false, breakPending := false, loopjumpPending := false }

/-- `ROW_ADVANCE` (42_sequencer.md R194), with the end of the order list (R196). -/
def rowAdvance (s : State) : State :=
  let q := commitSpeed s.seq
  if q.delayCount ≠ 0#4 then
    { s with seq := { q with delayCount := q.delayCount - 1, delayActive := true } }
  else
    let p := nextPosition q
    let q1 := clearPending q
    if p.1 < s.latch.songLen.toNat then
      { s with seq := { q1 with order := BitVec.ofNat 7 p.1, row := p.2 } }
    else if s.latch.restart.toNat < s.latch.songLen.toNat then
      { s with seq := { q1 with order := BitVec.ofNat 7 s.latch.restart.toNat, row := p.2 } }
    else { s with seq := q1, seqState := .finished }

/-- Ask for the cells of the current tick to be run, from channel 0 on, before the frame (42_sequencer.md R180). -/
def runTick (s : State) : State := { s with phase := .frameCells, chan := 0 }

/-- The sequenced part of `ADVANCE_TICK` (42_sequencer.md R180, R181): a row boundary or the next tick of the row. -/
def sequenceTick (s : State) : State :=
  if s.seq.tick.toNat + 1 = s.seq.speed.toNat then
    let s1 := rowAdvance s
    if s1.seqState = .finished then s1 else runTick s1
  else runTick { s with seq := { s.seq with tick := s.seq.tick + 1 } }

/-- `ADVANCE_TICK` (42_sequencer.md R180): sample the pause flag, then sequence the tick. -/
def advanceTick (s : State) : State :=
  if s.seqState = .playing ∧ s.pauseReq then { s with seqState := .paused }
  else if s.seqState = .paused then
    if s.pauseReq then s else sequenceTick { s with seqState := .playing }
  else sequenceTick s

end Sys2Proof.Machine
end

