-- ==== Sys2Proof/Machine/Run.lean ====
section
/-! DEFINITION. The atomic steps of the agents (00_scope.md R8): fetching a cell and running it, the rest of a START or
FRAME step, and the beginning of each agent's step. -/

namespace Sys2Proof.Machine

/-- The bytes of the cell of the current row for channel `chan`, in memory order (20_memory.md R65, 42_sequencer.md R185). -/
def fetchBytes (s : State) : List Byte :=
  let a := cellAddr s.latch.chanCount.toNat (s.latch.orderTab[s.seq.order.toNat]'s.seq.order.isLt).toNat s.seq.row.toNat s.chan.val
  [byteAt s s.chan.val a, byteAt s s.chan.val (a + 1), byteAt s s.chan.val (a + 2), byteAt s s.chan.val (a + 3)]

/-- The bytes of the instruction that channel `chan` runs: its cell at tick 0 (42_sequencer.md R184), the latched effect
at a continuation tick (42_sequencer.md R185, R198; log entry 11). -/
def currentBytes (s : State) : List Byte :=
  if s.seq.tick = 0#5 then fetchBytes s else wordBytes (cellWord (latchedCell (s.getCh s.chan)))

/-- The instruction that channel `chan` runs. Four bytes always decode (30_encoding.md R105). -/
def currentInstr (s : State) : Instr :=
  match decode .cell (currentBytes s) with
  | .ok (i, _) => i
  | .error _ => .noEffect 0 0

/-- Continue with a next state; a stop stays. -/
def thenNext (a : Answer) (f : State → Answer) : Answer :=
  match a with
  | .next s => f s
  | .fault r => .fault r
  | .refused r => .refused r

/-- Run the current instructions of the given channels, in order (42_sequencer.md R180, R184). -/
def runCells : List (Fin 8) → State → Answer
  | [], s => .next s
  | k :: rest, s =>
    let s1 := { s with chan := k }
    thenNext (exec (currentInstr s1) s1) (runCells rest)

/-- Run the cells of a tick from channel `chan` on. -/
def runTickCells (s : State) : Answer := runCells (s.channelsFrom s.chan.val) s

/-- The frame of a FRAME step: silence while Paused, else the mix; then pushed (41_clock.md R160, R164). -/
def produceFrame (s : State) : Answer :=
  if s.seqState = .paused then .next (pushFrame s { left := 0, right := 0 })
  else match mix s with
    | .ok (s1, f) => .next (pushFrame s1 f)
    | .error e => .fault e

/-- What is left of the atomic step in progress (log entry 10). -/
def finishStep (s : State) : Answer :=
  match s.phase with
  | .idle => .next s
  | .startCells => thenNext (runTickCells s) fun s1 => .next { s1 with phase := .idle }
  | .frameCells => thenNext (runTickCells s) produceFrame
  | .frameMix => produceFrame s

/-- The clock's and the Sequencer's part of a FRAME step, up to the cells or the frame (41_clock.md R160). Where FRAME is
not enabled the producer has no step. -/
def beginFrame (s : State) : State :=
  if frameEnabled s then
    if atTickBoundary s then
      let s1 := advanceTick { crossBoundary s with phase := .frameMix }
      if s1.seqState = .finished then { s1 with phase := .idle } else s1
    else { s with phase := .frameMix }
  else s

/-- A host register write: CTRL runs a command, the others follow 10_state.md R40 (40_control.md R130). -/
def regWrite (s : State) (i : BitVec 8) (v : Word) : Answer :=
  if i = 0x00#8 then exec (decodeCtrl v) s else .next (writeCfg s i v)

/-- The beginning of one agent's step (00_scope.md R8); `finishStep` does the rest of a START or FRAME step. -/
def beginInput (s : State) : Input → Answer
  | .frame => .next (beginFrame s)
  | .regWrite i v => regWrite s i v
  | .regRead i => .next { s with readData := readReg s i }
  | .memWrite a v => .next (hostMemWrite s a v)
  | .memRead a => .next (hostMemRead s a)
  | .sinkPop => .next (sinkPop s)
  | .sinkFail => .next (sinkFail s)
  | .evPop => .next (evPop s)
  | .reset => .next (platformReset s)

/-- The beginning of the next agent's step: the schedule's, or the producer's own while the schedule is empty (log entry
7). The draw counter moves (log entry 6). -/
def beginStep (s : State) : Answer :=
  let s1 := { s with draws := s.draws + 1 }
  match s.inputs with
  | [] => beginInput s1 .frame
  | i :: rest => beginInput { s1 with inputs := rest } i

/-- One atomic step (00_scope.md R8): a step in progress is finished; otherwise the next agent's step is taken whole. -/
def atomicStep (s : State) : Answer :=
  if s.phase = .idle then thenNext (beginStep s) finishStep else finishStep s

/-- The state in which the next step runs the cell word `w`, as the last cell of a trigger phase (log entry 15). -/
def placeCell (s : State) (w : Word) : State :=
  let c : BitVec 4 := if s.latch.chanCount = 0#4 then 4#4 else s.latch.chanCount
  let k : Fin 8 := Fin.ofNat 8 (min c.toNat 8 - 1)
  let a := cellAddr c.toNat (s.latch.orderTab[s.seq.order.toNat]'s.seq.order.isLt).toNat s.seq.row.toNat k.val
  { s with
    latch := { s.latch with chanCount := c }
    seq := { s.seq with tick := 0 }
    mem := s.mem.putBytes a (wordBytes w)
    dutyBroken := false
    phase := .startCells
    chan := k }

/-- The state in which the next step runs the command of the CTRL value `w`: the host writes it next (log entry 15). -/
def placeCtrl (s : State) (w : Word) : State := { s with inputs := .regWrite 0x00#8 w :: s.inputs, phase := .idle }

end Sys2Proof.Machine
end

