-- ==== Sys2Proof/Machine/Step.lean ====
section
/-! DEFINITION. One step of the machine: one atomic step of one agent (00_scope.md R8). -/

namespace Sys2Proof.Machine

/-- One atomic step. -/
def step (s : State) : Host.Outcome State Fault Refusal := atomicStep s

/-- The state in which the next step fetches and runs exactly the given table word: a host command of one byte is the
host's next CTRL write, a cell word is the last cell of a trigger phase (log entry 15). -/
def State.withFetchWord (s : State) (nbits w : Nat) : State :=
  if nbits ≤ 8 then placeCtrl s (BitVec.ofNat 32 w) else placeCell s (BitVec.ofNat 32 w)

end Sys2Proof.Machine
end

