-- ==== Sys2Proof/Safety.lean ====
section
/-! DEFINITION. The vocabulary of the claims: frames, what the note part of a cell leaves on its channel written out as
one record (42_sequencer.md R184 to R192), what a run of the block keeps (42_sequencer.md R200), and when a run is over
(40_control.md R145). -/

namespace Sys2Proof.Machine

/-! ## Frames -/

/-- Every byte of module memory reads as before, for every reader. -/
def SameMemory (s t : State) : Prop := ∀ who a : Nat, byteAt t who a = byteAt s who a

/-- The host's bytes of module memory, and what is known of them, are as before: `byteAt` differs at most in its draws. -/
def SameImage (s t : State) : Prop := (∀ a : Nat, t.mem.get a = s.mem.get a) ∧ t.dutyBroken = s.dutyBroken

/-- The two states differ at most in the event queue, the drop counter and what EV_POP delivered (45_events.md R313, R314). -/
def SameButEvents (s t : State) : Prop :=
  t = { s with evq := t.evq, evOut := t.evOut, cnt := { s.cnt with evDrop := t.cnt.evDrop } }

/-- The two channels differ at most in what the mixer writes: the cursor, `active` cleared, `loop_active` set
(44_mixer.md R290). -/
def MixerWrites (h h' : Channel) : Prop :=
  h' = { h with posInt := h'.posInt, posFrac := h'.posFrac, active := h'.active, loopActive := h'.loopActive }
    ∧ (h'.active = true → h.active = true) ∧ (h.loopActive = true → h'.loopActive = true)

/-! ## The trigger phase of one cell, written out -/

/-- The note of a cell names a playable sample to bind (42_sequencer.md R187). -/
def bindsSample (s : State) (c : Cell) : Bool := c.smp ≠ 0#8 && !noopNote s c

/-- The period of a cell sets a tone-portamento target instead of the pitch (42_sequencer.md R190). -/
def setsTarget (h : Channel) (c : Cell) : Bool :=
  c.period ≠ 0#12 && (c.cmd = 0x3#4 || c.cmd = 0x5#4) && h.basePeriod ≠ 0#12

/-- The period of a cell sets the pitch (42_sequencer.md R187, R190). -/
def setsPitch (h : Channel) (c : Cell) : Bool := c.period ≠ 0#12 && !setsTarget h c

/-- The finetune that the period of a cell is looked up with (42_sequencer.md R187). -/
def noteFt (s : State) (h : Channel) (c : Cell) : BitVec 4 :=
  if c.cmd = 0xE#4 ∧ hiNibble c.param = 0x5#4 then loNibble c.param
  else if c.smp ≠ 0#8 then (s.hdr c.smp.toNat).ft else h.ft

/-- The current channel after the latch, the revert and the note part of cell `c`, before the cell's effect
(42_sequencer.md R184 to R190). -/
def noteResult (s : State) (c : Cell) : Channel :=
  let h := s.getCh s.chan
  let g := { h with cmd := c.cmd, param := c.param, outPeriod := h.basePeriod, outVol := h.vol }
  if heldNote c then { g with dlyPeriod := c.period, dlySmp := c.smp }
  else if noopNote s c then g
  else
    let binds := bindsSample s c
    let n := if binds then c.smp.setWidth 5 else h.smp
    let v := if binds then (s.hdr c.smp.toNat).vol else h.vol
    let q := lookup c.period (noteFt s h c)
    let b := if setsPitch h c then q else h.basePeriod
    let off := startOffset h c
    let restarts := binds || setsPitch h c
    { g with
      smp := n
      ft := noteFt s h c
      vol := v
      outVol := v
      basePeriod := b
      outPeriod := b
      portaTarget := if setsTarget h c then q else h.portaTarget
      posInt := if restarts then BitVec.ofNat 18 off else h.posInt
      posFrac := if restarts then 0#16 else h.posFrac
      loopActive := if restarts then false else h.loopActive
      active := if restarts then n ≠ 0#5 && decide (off < (s.hdr n.toNat).len.toNat) else h.active }

/-- The cell emits a NoteEvent in its trigger phase (42_sequencer.md R184, 45_events.md R311). -/
def emitsEvent (s : State) (c : Cell) : Bool := hasNotePart c && !noopNote s c && !heldNote c

/-- The NoteEvent of cell `c` on the current channel, with the channel's volume `v` (45_events.md R310, R311). -/
def cellEvent (s : State) (c : Cell) (v : BitVec 7) : NoteEvent :=
  { tickIndex := s.cnt.tickCount, channel := BitVec.ofNat 3 s.chan.val, sample := c.smp, period := c.period, volume := v
    cmd := c.cmd, param := c.param }

/-- The state after the trigger phase of cell `c` that leaves the current channel at `h`: the channel, and the cell's
event with the volume after the effect, appended or dropped (42_sequencer.md R184, 45_events.md R313). -/
def cellResult (s : State) (c : Cell) (h : Channel) : State :=
  (if emitsEvent s c then evPush s (cellEvent s c h.vol) else s).setCh s.chan h

/-- The instruction completes at tick 0: its cell `c` leaves the current channel at `h`, its event appended or dropped,
and every byte of memory reads as before. -/
def TriggersTo (i : Instr) (s : State) (c : Cell) (h : Channel) : Prop :=
  exec i s = .next (cellResult s c h) ∧ SameMemory s (cellResult s c h)

/-- The instruction completes at tick 0 as `TriggersTo`, and the song position and sequencer registers become `q`. -/
def TriggersToSeq (i : Instr) (s : State) (c : Cell) (h : Channel) (q : SeqRegs) : Prop :=
  exec i s = .next { cellResult s c h with seq := q } ∧ SameMemory s { cellResult s c h with seq := q }

/-- The instruction completes at a continuation tick: the current channel becomes `h`, nothing else changes, and every
byte of memory reads as before. -/
def ContinuesTo (i : Instr) (s : State) (h : Channel) : Prop :=
  exec i s = .next (s.setCh s.chan h) ∧ SameMemory s (s.setCh s.chan h)

/-- The four bytes that channel `k` runs at this tick: at tick 0 the cell in module memory, of the pattern that the order
table names, the current row and the channel; at a later tick the latched effect, as a cell with no note (20_memory.md R65;
42_sequencer.md R184, R185, R198; log entry 11). -/
def cellBytes (s : State) (k : Fin 8) : List Byte :=
  let pattern := (s.latch.orderTab[s.seq.order.toNat]'s.seq.order.isLt).toNat
  let addr := 1084 + ((pattern * 64 + s.seq.row.toNat) * s.latch.chanCount.toNat + k.val) * 4
  if s.seq.tick = 0#5 then
    [byteAt s k.val addr, byteAt s k.val (addr + 1), byteAt s k.val (addr + 2), byteAt s k.val (addr + 3)]
  else [0x00#8, 0x00#8, (s.getCh k).cmd.setWidth 8, (s.getCh k).param]

/-! ## The module image -/

/-- The declared total length of an image of `c` channels (60_exceptions.md R332): `1084 + P·256·C + Σ S[s].len`. -/
def declaredLen (rd : Nat → Byte) (c : Nat) : Nat := payloadBase rd c + payloadLen rd 31

/-- The latches `l` are those of the image `rd` of `c` channels (30_encoding.md R93 to R97, 20_memory.md R64, R66). -/
structure HeaderOf (rd : Nat → Byte) (c : Nat) (l : Latches) : Prop where
  /-- 30_encoding.md R97. -/
  channels : l.chanCount.toNat = c
  /-- 30_encoding.md R95. -/
  songLen : l.songLen = rd 950
  /-- 30_encoding.md R95. -/
  restart : l.restart = rd 951
  /-- 30_encoding.md R95. -/
  orderTab : ∀ i : Fin 128, l.orderTab[i.val] = rd (952 + i.val)
  /-- 30_encoding.md R96: every one of the 128 entries is below `P`. -/
  patternsAbove : ∀ i : Fin 128, (rd (952 + i.val)).toNat < l.patCount.toNat
  /-- 30_encoding.md R96: some entry is `P - 1`. -/
  patternsReached : ∃ i : Fin 128, (rd (952 + i.val)).toNat + 1 = l.patCount.toNat
  /-- 20_memory.md R64. -/
  smpBase : l.smpBase.toNat = 1084 + l.patCount.toNat * 256 * c
  /-- 30_encoding.md R93, the sample lengths; 20_memory.md R66, the bases: `S[n]` is `samples[n - 1]`. -/
  lens : ∀ i : Fin 31, (l.samples[i.val]).len.toNat = 2 * half rd (20 + 30 * i.val + 22)
  /-- 30_encoding.md R93. -/
  finetunes : ∀ i : Fin 31, (l.samples[i.val]).ft = loNibble (rd (20 + 30 * i.val + 24))
  /-- 30_encoding.md R93. -/
  volumes : ∀ i : Fin 31, (l.samples[i.val]).vol.toNat = min (rd (20 + 30 * i.val + 25)).toNat 64
  /-- 30_encoding.md R93. -/
  loopStarts : ∀ i : Fin 31, (l.samples[i.val]).loopStart.toNat = 2 * half rd (20 + 30 * i.val + 26)
  /-- 30_encoding.md R93. -/
  loopLens : ∀ i : Fin 31, (l.samples[i.val]).loopLen.toNat = 2 * half rd (20 + 30 * i.val + 28)
  /-- 30_encoding.md R93, R94. -/
  loopEns : ∀ i : Fin 31, (l.samples[i.val]).loopEn = true ↔
    1 < half rd (20 + 30 * i.val + 28) ∧
      2 * half rd (20 + 30 * i.val + 26) + 2 * half rd (20 + 30 * i.val + 28) ≤ 2 * half rd (20 + 30 * i.val + 22)
  /-- 20_memory.md R66. -/
  firstBase : (l.samples[0]).base = l.smpBase
  /-- 20_memory.md R66. -/
  nextBase : ∀ i : Fin 30, (l.samples[i.val + 1]).base.toNat = (l.samples[i.val]).base.toNat + (l.samples[i.val]).len.toNat

/-- The state after the configuration is latched, which every accepted START leaves (10_state.md R41, 40_control.md R133). -/
def withActive (s : State) : State :=
  { s with act := { rate := s.cfg.rate, interp := s.cfg.interp, pan := s.cfg.pan, arp := s.cfg.arp, gain := s.cfg.gain
                    len := s.cfg.moduleLen } }

/-- The state in which an accepted START with the latches `l` leaves the song to its first trigger phase, which the same
step runs (40_control.md R133, R138). -/
def freshSong (s : State) (l : Latches) : State :=
  { withActive s with
    latch := l
    ch := Vector.replicate 8 Channel.silent
    seq := SeqRegs.initial
    seqState := .playing
    pauseReq := false
    error := .none
    cnt := { frameCount := 0, tickCount := 0, evDrop := 0 }
    evq := []
    clk := { fptLatched := BitVec.ofNat 16 ((5 * s.cfg.rate.toNat + 125) / 250), frameInTick := 0 }
    phase := .startCells
    chan := 0 }

/-! ## The mixer -/

/-- What channel `k` adds to the left sum, with the sample value `v` (44_mixer.md R280, R282, R287, R288). -/
def leftPart (s : State) (k : Fin 8) (v : Int) : Int :=
  let h := s.getCh k
  let c := v * h.outVol.toNat * s.act.gain.toNat / 64
  if h.active = false ∨ h.smp = 0#5 ∨ h.outPeriod = 0#12 then 0 else if h.panExplicit then c / 2 else if k.val % 2 = 0 then c else 0

/-- What channel `k` adds to the right sum, with the sample value `v` (44_mixer.md R280, R282, R287, R288). -/
def rightPart (s : State) (k : Fin 8) (v : Int) : Int :=
  let h := s.getCh k
  let c := v * h.outVol.toNat * s.act.gain.toNat / 64
  if h.active = false ∨ h.smp = 0#5 ∨ h.outPeriod = 0#12 then 0 else if h.panExplicit then c / 2 else if k.val % 2 = 1 then c else 0

/-- The value the mixer takes from the sounding channel `k`: the byte under the cursor; with interpolation, that byte and
the next one of the region, else the loop's first, else 0, weighted by the cursor's fraction (44_mixer.md R283, R284, R286). -/
def mixedValue (s : State) (k : Fin 8) : Int :=
  let h := s.getCh k
  let hd := s.hdr h.smp.toNat
  let frame : Nat → Int := fun j => (byteAt s k.val (hd.base.toNat + j)).toInt
  let next : Int :=
    if h.posInt.toNat + 1 < (if hd.loopEn then hd.loopStart.toNat + hd.loopLen.toNat else hd.len.toNat) then
      frame (h.posInt.toNat + 1)
    else if hd.loopEn then frame hd.loopStart.toNat
    else 0
  if s.act.interp then frame h.posInt.toNat + (next - frame h.posInt.toNat) * h.posFrac.toNat / 65536
  else frame h.posInt.toNat

/-- What one mixed frame does to a channel that is bound to the sample `hd` and has a period: while it is active, the cursor
takes one step, and at the end of its region goes back into the loop, or the channel falls silent (44_mixer.md R281, R285,
R286, R291). -/
def afterFrame (hd : SampleHdr) (rate : BitVec 18) (h : Channel) : Channel :=
  let pos := (h.posInt.toNat * 65536 + h.posFrac.toNat + 3546895 * 65536 / (h.outPeriod.toNat * rate.toNat)) % 2 ^ 34
  let i := pos / 65536
  let frac := BitVec.ofNat 16 (pos % 65536)
  let stop := hd.loopStart.toNat + hd.loopLen.toNat
  if h.active = false then h
  else if hd.loopEn then
    if i < stop then { h with posInt := BitVec.ofNat 18 i, posFrac := frac }
    else { h with posInt := BitVec.ofNat 18 (hd.loopStart.toNat + (i - stop) % hd.loopLen.toNat), posFrac := frac, loopActive := true }
  else { h with posInt := BitVec.ofNat 18 i, posFrac := frac, active := decide (i < hd.len.toNat) }

/-! ## The song position -/

/-- Where the song goes at a row boundary, before the end of the order list is looked at: the order index and the row
(42_sequencer.md R194, R195, R199). -/
def RowTarget (q : SeqRegs) (o : Nat) (r : BitVec 6) : Prop :=
  (q.jumpPending = true → o = q.jumpTarget.toNat ∧ r = if q.breakPending then q.breakRow else 0#6)
  ∧ (q.jumpPending = false → q.breakPending = true → o = q.order.toNat + 1 ∧ r = q.breakRow)
  ∧ (q.jumpPending = false → q.breakPending = false → q.loopjumpPending = true → o = q.order.toNat ∧ r = q.loopjumpRow)
  ∧ (q.jumpPending = false → q.breakPending = false → q.loopjumpPending = false →
    (q.row.toNat = 63 → o = q.order.toNat + 1 ∧ r = 0#6)
    ∧ (q.row.toNat < 63 → o = q.order.toNat ∧ r.toNat = q.row.toNat + 1))

/-- The sequencer registers that every row boundary leaves: tick 0 and the pending speed in force (42_sequencer.md R194). -/
def rowStart (q : SeqRegs) : SeqRegs :=
  { q with tick := 0, speed := if q.speedPending ≠ 0#5 then q.speedPending else q.speed, speedPending := 0 }

/-- The next agent's step is a FRAME step, and this is the state in which it begins: the schedule and the draw counter
have moved (41_clock.md R160; log entries 6 and 7). -/
def FrameBegins (s b : State) : Prop :=
  s.phase = .idle ∧ ((∃ rest, s.inputs = .frame :: rest ∧ b = { s with inputs := rest, draws := s.draws + 1 })
    ∨ (s.inputs = [] ∧ b = { s with draws := s.draws + 1 }))

/-! ## What a run keeps -/

/-- What the latches, the song position, the clock and the cursors satisfy while a song plays (42_sequencer.md R200,
20_memory.md R68, 41_clock.md R161, R166, 44_mixer.md R285). -/
structure SongLoaded (s : State) : Prop where
  /-- 30_encoding.md R97. -/
  channels : s.latch.chanCount = 4#4 ∨ s.latch.chanCount = 6#4 ∨ s.latch.chanCount = 8#4
  /-- 42_sequencer.md R200: `order < song_len`. -/
  order : s.seq.order.toNat < s.latch.songLen.toNat
  /-- 42_sequencer.md R200: `song_len ≤ 128`. -/
  songLen : s.latch.songLen.toNat ≤ 128
  /-- 40_control.md R135 step 4. -/
  patterns : s.latch.patCount.toNat ≤ 128
  /-- 42_sequencer.md R200: every order entry is below `P`. -/
  orderTab : ∀ i : Fin 128, (s.latch.orderTab[i.val]).toNat < s.latch.patCount.toNat
  /-- 20_memory.md R64. -/
  smpBase : s.latch.smpBase.toNat = 1084 + s.latch.patCount.toNat * 256 * s.latch.chanCount.toNat
  /-- 20_memory.md R66, R68: every payload lies in the image. -/
  payload : ∀ n : Nat, 1 ≤ n → n ≤ 31 → s.latch.smpBase.toNat ≤ (s.hdr n).base.toNat
    ∧ (s.hdr n).base.toNat + (s.hdr n).len.toNat ≤ s.act.len.toNat
  /-- 30_encoding.md R93: an enabled loop lies in its sample and has at least 4 frames. -/
  loops : ∀ n : Nat, (s.hdr n).loopEn = true → 4 ≤ (s.hdr n).loopLen.toNat
    ∧ (s.hdr n).loopStart.toNat + (s.hdr n).loopLen.toNat ≤ (s.hdr n).len.toNat
  /-- 30_encoding.md R93: default volumes are clamped. -/
  defaults : ∀ n : Nat, (s.hdr n).vol.toNat ≤ 64
  /-- 00_scope.md R6: the active rate is a legal one. -/
  rate : 8000 ≤ s.act.rate.toNat ∧ s.act.rate.toNat ≤ 192000
  /-- 41_clock.md R161, R166. -/
  clock : s.clk.frameInTick.toNat ≤ s.clk.fptLatched.toNat ∧ 78 ≤ s.clk.fptLatched.toNat ∧ s.clk.fptLatched.toNat ≤ 15000
  /-- 44_mixer.md R285: a sounding channel's cursor lies in its sample. -/
  cursor : ∀ k : Fin 8, (s.getCh k).active = true → (s.getCh k).smp ≠ 0#5 →
    (s.getCh k).posInt.toNat < (s.hdr (s.getCh k).smp.toNat).len.toNat

/-- What the machine keeps between steps, whatever the agents do (42_sequencer.md R200, 00_scope.md R8, 10_state.md R40). -/
structure SongInv (s : State) : Prop where
  /-- 00_scope.md R8: no step is half done. -/
  idle : s.phase = .idle
  /-- 42_sequencer.md R200. -/
  speed : 1 ≤ s.seq.speed.toNat
  /-- 42_sequencer.md R200. -/
  tick : s.seq.tick.toNat < s.seq.speed.toNat
  /-- 42_sequencer.md R200. -/
  tempo : 32 ≤ s.seq.tempo.toNat
  /-- 42_sequencer.md R200. -/
  volumes : ∀ k : Fin 8, (s.getCh k).vol.toNat ≤ 64 ∧ (s.getCh k).outVol.toNat ≤ 64
  /-- 10_state.md R40: CFG_RATE holds a legal rate. -/
  cfgRate : 8000 ≤ s.cfg.rate.toNat ∧ s.cfg.rate.toNat ≤ 192000
  /-- While a song plays or is paused. -/
  song : s.seqState = .playing ∨ s.seqState = .paused → SongLoaded s

/-- Both queues are within their depths (10_state.md R37). -/
def QueuesFit (s : State) : Prop := s.ring.length ≤ ringDepth ∧ s.evq.length ≤ evqDepth

/-- The transitions of `seq_state` that one step may make, staying included, platform reset apart (40_control.md R131). A
FRAME step may leave Paused and finish the song at one boundary, which is Paused to Playing and Playing to Finished. -/
def stateMoves : SeqState → List SeqState
  | .stopped => [.stopped, .playing]
  | .playing => [.playing, .paused, .finished, .stopped]
  | .paused => [.paused, .playing, .finished, .stopped]
  | .finished => [.finished, .playing, .stopped]

/-- A run is over (40_control.md R145). -/
def runOver (s : State) : Bool := (decide (s.seqState = .stopped) || decide (s.seqState = .finished)) && s.ring.isEmpty

end Sys2Proof.Machine
end

