-- ==== Sys2Proof/Certificates/Slice0/Obligations.lean ====
section
/-! DEFINITION. The statements of this model for the provers: encoding, reset and the host port, the host commands, the
cells, the Sequencer and the clock, the mixer, the queues and module memory, and what every step keeps. -/

section Claims

open Sys2Proof Sys2Proof.Machine

/-! ## Encoding -/

/-- Words written out from 30_encoding.md R99, R102, R103 and R112 decode to the instructions they stand for. -/
def Obligations.WrittenWordsDecode : Prop :=
  decode .cell [0x01#8, 0xAC#8, 0x5C#8, 0x20#8] = .ok (.vol 0x1AC#12 5#8 0x20#8, [])
  ∧ decode .cell [0x11#8, 0xAC#8, 0xF0#8, 0x47#8] = .ok (.arp 0x1AC#12 0x1F#8 4#4 7#4, [])
  ∧ decode .cell [0x00#8, 0x00#8, 0x00#8, 0x00#8] = .ok (.noEffect 0#12 0#8, [])
  ∧ decode .cell [0x01#8, 0xC5#8, 0x03#8, 0x08#8] = .ok (.tporta 0x1C5#12 0#8 8#8, [])
  ∧ decode .cell [0x00#8, 0x00#8, 0x0D#8, 0x16#8] = .ok (.brk 0#12 0#8 1#4 6#4, [])
  ∧ decode .cell [0x01#8, 0xAC#8, 0x1E#8, 0xD2#8] = .ok (.edly 0x1AC#12 1#8 2#4, [])
  ∧ decode .cell [0x00#8, 0x00#8, 0x0F#8, 0x96#8] = .ok (.spd 0#12 0#8 0x96#8, [])
  ∧ decode .ctrl [0x00#8, 0x00#8, 0x00#8, 0x01#8] = .ok (.start, [])
  ∧ decode .ctrl [0xFF#8, 0xFF#8, 0xFF#8, 0xFC#8] = .ok (.stop, [])

/-- Decoding the encoded word of a well-formed instruction gives the instruction, whatever bytes follow. -/
def Obligations.DecodeOfEncode : Prop :=
  ∀ (i : Instr) (rest : List Byte), i.wf = true → decode i.space (wordBytes (encode i) ++ rest) = .ok (i, rest)

/-- Every 32-bit cell word is one well-formed cell instruction, which encodes back to it (30_encoding.md R101, R105). -/
def Obligations.EveryCellWordDecodes : Prop :=
  ∀ w : Word, ∃ i : Instr, i.wf = true ∧ i.space = .cell ∧ decode .cell (wordBytes w) = .ok (i, []) ∧ encode i = w

/-! ## Reset and the host port -/

/-- The read-only registers after reset: what the spec derives in R362 from 70_reset_and_hazards.md R361 and 10_state.md
R39. -/
def Obligations.ResetRegisters : Prop :=
  readReg State.reset 0x01#8 = 0#32 ∧ readReg State.reset 0x02#8 = 0#32 ∧ readReg State.reset 0x03#8 = 0x0000067D#32
  ∧ readReg State.reset 0x04#8 = 0#32 ∧ readReg State.reset 0x05#8 = 0#32 ∧ readReg State.reset 0x06#8 = 0#32
  ∧ readReg State.reset 0x07#8 = 0#32 ∧ readReg State.reset 0x08#8 = 0#32

/-- The platform's reset takes every piece of state of the table of 70_reset_and_hazards.md R361 to its value at once.
(The latches other than `C`, which the table leaves unspecified, are not spoken of. That module memory and what is known of
it stay, `SameImage`, where the table says only that it holds whatever the platform holds, and that the schedule stays, are
the model's choice, log entry 18.) -/
def Obligations.PlatformReset : Prop :=
  ∀ (s : State) (rest : List Input), s.phase = .idle → s.inputs = .reset :: rest →
    ∃ t : State, step s = .next t ∧ (∀ k : Fin 8, t.getCh k = Channel.silent)
      ∧ t.seq = { order := 0, row := 0, tick := 0, speed := 6, speedPending := 0, tempo := 125, jumpPending := false
                  jumpTarget := 0, breakPending := false, breakRow := 0, loopjumpPending := false, loopjumpRow := 0
                  delayCount := 0, delayActive := false }
      ∧ t.latch.chanCount = 0#4 ∧ t.seqState = .stopped ∧ t.pauseReq = false ∧ t.error = .none
      ∧ t.clk = { fptLatched := 0, frameInTick := 0 } ∧ t.cnt = { frameCount := 0, tickCount := 0, evDrop := 0 }
      ∧ t.ring = [] ∧ t.evq = []
      ∧ t.cfg = { rate := 44100, interp := false, pan := false, arp := false, gain := 128, moduleLen := 0 }
      ∧ t.act = { rate := 0, interp := false, pan := false, arp := false, gain := 0, len := 0 }
      ∧ t.inputs = rest ∧ SameImage s t

/-- What the host reads in every register: the fields, the codes of the operating state and of the error, and the bits that
read as 0 (10_state.md R31, R38, R39; 60_exceptions.md R330). -/
def Obligations.RegisterFields : Prop :=
  ∀ s : State,
    ((s.seqState = .stopped → (readReg s 0x01#8).extractLsb' 0 2 = 0#2) ∧ (s.seqState = .playing → (readReg s 0x01#8).extractLsb' 0 2 = 1#2)
      ∧ (s.seqState = .paused → (readReg s 0x01#8).extractLsb' 0 2 = 2#2) ∧ (s.seqState = .finished → (readReg s 0x01#8).extractLsb' 0 2 = 3#2))
    ∧ ((s.error = .none → (readReg s 0x01#8).extractLsb' 4 3 = 0#3) ∧ (s.error = .unknownSignature → (readReg s 0x01#8).extractLsb' 4 3 = 1#3)
      ∧ (s.error = .truncatedData → (readReg s 0x01#8).extractLsb' 4 3 = 2#3)
      ∧ (s.error = .invalidSampleLength → (readReg s 0x01#8).extractLsb' 4 3 = 3#3)
      ∧ (s.error = .patternIndexOutOfRange → (readReg s 0x01#8).extractLsb' 4 3 = 4#3)
      ∧ (s.error = .playbackError → (readReg s 0x01#8).extractLsb' 4 3 = 5#3))
    ∧ (readReg s 0x01#8).getLsbD 2 = s.pauseReq
    ∧ (readReg s 0x01#8).getLsbD 3 = (decide (s.seqState = .stopped) && decide (0 < s.ring.length))
    ∧ (readReg s 0x01#8).extractLsb' 8 4 = s.latch.chanCount
    ∧ (readReg s 0x01#8).getLsbD 7 = false ∧ (readReg s 0x01#8).extractLsb' 12 20 = 0#20
    ∧ (readReg s 0x02#8).extractLsb' 0 7 = s.seq.order ∧ (readReg s 0x02#8).extractLsb' 8 6 = s.seq.row
    ∧ (readReg s 0x02#8).extractLsb' 16 5 = s.seq.tick ∧ (readReg s 0x02#8).extractLsb' 24 4 = s.seq.delayCount
    ∧ (readReg s 0x02#8).getLsbD 7 = false ∧ (readReg s 0x02#8).extractLsb' 14 2 = 0#2
    ∧ (readReg s 0x02#8).extractLsb' 21 3 = 0#3 ∧ (readReg s 0x02#8).extractLsb' 28 4 = 0#4
    ∧ (readReg s 0x03#8).extractLsb' 0 8 = s.seq.tempo ∧ (readReg s 0x03#8).extractLsb' 8 5 = s.seq.speed
    ∧ (readReg s 0x03#8).extractLsb' 16 5 = s.seq.speedPending
    ∧ (readReg s 0x03#8).extractLsb' 13 3 = 0#3 ∧ (readReg s 0x03#8).extractLsb' 21 11 = 0#11
    ∧ (readReg s 0x04#8).extractLsb' 0 16 = s.clk.fptLatched ∧ (readReg s 0x04#8).extractLsb' 16 16 = s.clk.frameInTick
    ∧ readReg s 0x05#8 = s.cnt.frameCount ∧ readReg s 0x06#8 = s.cnt.tickCount ∧ readReg s 0x07#8 = s.cnt.evDrop
    ∧ (s.ring.length < 2 ^ 16 → ((readReg s 0x08#8).extractLsb' 0 16).toNat = s.ring.length)
    ∧ (s.evq.length < 2 ^ 16 → ((readReg s 0x08#8).extractLsb' 16 16).toNat = s.evq.length)
    ∧ (readReg s 0x09#8).toNat = s.cfg.rate.toNat ∧ (readReg s 0x0B#8).toNat = s.cfg.gain.toNat
    ∧ (readReg s 0x0A#8).getLsbD 0 = s.cfg.interp ∧ (readReg s 0x0A#8).getLsbD 1 = s.cfg.pan
    ∧ (readReg s 0x0A#8).getLsbD 2 = s.cfg.arp ∧ (readReg s 0x0A#8).extractLsb' 3 29 = 0#29
    ∧ readReg s 0x0C#8 = s.cfg.moduleLen ∧ readReg s 0x00#8 = 0#32
    ∧ ∀ i : BitVec 8, 0x0D ≤ i.toNat → readReg s i = 0#32

/-- A host read changes nothing but what the host receives, in every state; a write of a configuration register takes
effect only in Stopped and Finished, an illegal rate is ignored, reserved bits are dropped, and a write of a read-only or
reserved register is ignored (10_state.md R40). That a rate is checked after its reserved bits are dropped, and that a write
of a reserved index is ignored, is the model's reading (log entry 17); `inputs`, `draws` and `readData` are the model's own
fields (log entries 6, 7 and 9). -/
def Obligations.RegisterAccess : Prop :=
  ∀ (s : State) (rest : List Input), s.phase = .idle →
    (∀ i : BitVec 8, s.inputs = .regRead i :: rest →
      step s = .next { s with inputs := rest, draws := s.draws + 1, readData := readReg s i })
    ∧ (∀ (i : BitVec 8) (v : Word), s.inputs = .regWrite i v :: rest → i ≠ 0x00#8 →
      (s.seqState = .playing ∨ s.seqState = .paused ∨ i.toNat < 0x09 ∨ 0x0C < i.toNat
          ∨ (i = 0x09#8 ∧ (v.toNat % 2 ^ 18 < 8000 ∨ 192000 < v.toNat % 2 ^ 18)) →
        step s = .next { s with inputs := rest, draws := s.draws + 1 })
      ∧ (s.seqState = .stopped ∨ s.seqState = .finished →
        (i = 0x09#8 → 8000 ≤ v.toNat % 2 ^ 18 → v.toNat % 2 ^ 18 ≤ 192000 →
          step s = .next { s with inputs := rest, draws := s.draws + 1
                                  cfg := { s.cfg with rate := BitVec.ofNat 18 (v.toNat % 2 ^ 18) } })
        ∧ (i = 0x0A#8 →
          step s = .next { s with inputs := rest, draws := s.draws + 1
                                  cfg := { s.cfg with interp := v.toNat % 2 = 1, pan := v.toNat / 2 % 2 = 1
                                                      arp := v.toNat / 4 % 2 = 1 } })
        ∧ (i = 0x0B#8 →
          step s = .next { s with inputs := rest, draws := s.draws + 1
                                  cfg := { s.cfg with gain := BitVec.ofNat 8 (v.toNat % 2 ^ 8) } })
        ∧ (i = 0x0C#8 →
          step s = .next { s with inputs := rest, draws := s.draws + 1, cfg := { s.cfg with moduleLen := v } })))

/-- A step runs the decoded command: the bytes the host writes to CTRL decode to an instruction, and the step is `exec` of
it, on the state whose schedule and draw counter have moved, then the rest of a START step (40_control.md R130; the schedule,
the draw counter and the rest of a step are the model's own, log entries 6, 7 and 10). -/
def Obligations.CtrlStepRunsCommand : Prop :=
  ∀ (s : State) (v : Word) (rest : List Input) (i : Instr), s.phase = .idle → s.inputs = .regWrite 0x00#8 v :: rest →
    decode .ctrl (wordBytes v) = .ok (i, []) →
      step s = thenNext (exec i { s with inputs := rest, draws := s.draws + 1 }) finishStep

/-! ## Host commands -/

/-- START with an image that passes every check, in Stopped or Finished: the header is latched, the song state is fresh,
and the song plays from its first trigger phase, which the same step runs (40_control.md R133, R135, R138). -/
def Obligations.StartBeginsSong : Prop :=
  ∀ (s : State) (c : Nat), s.seqState = .stopped ∨ s.seqState = .finished →
    1084 ≤ s.cfg.moduleLen.toNat → signatureChannels (quad (byteAt s headerReader) 1080) = some c →
    1 ≤ (byteAt s headerReader 950).toNat → (byteAt s headerReader 950).toNat ≤ 128 →
    (∀ i : Nat, i < 128 → (byteAt s headerReader (952 + i)).toNat < 128) →
    declaredLen (byteAt s headerReader) c ≤ s.cfg.moduleLen.toNat →
      ∃ l : Latches, HeaderOf (byteAt s headerReader) c l ∧ exec .start s = .next (freshSong s l)
        ∧ SameMemory s (freshSong s l)

/-- START with an image that fails a check, in Stopped or Finished: the first failing check's code, Stopped, the active
configuration, and nothing else (40_control.md R136, 60_exceptions.md R333, R339). -/
def Obligations.StartReportsFirstError : Prop :=
  ∀ s : State, s.seqState = .stopped ∨ s.seqState = .finished →
    (s.cfg.moduleLen.toNat < 1084 →
      exec .start s = .next { withActive s with error := .truncatedData, seqState := .stopped })
    ∧ (1084 ≤ s.cfg.moduleLen.toNat → signatureChannels (quad (byteAt s headerReader) 1080) = none →
      exec .start s = .next { withActive s with error := .unknownSignature, seqState := .stopped })
    ∧ (∀ c : Nat, 1084 ≤ s.cfg.moduleLen.toNat → signatureChannels (quad (byteAt s headerReader) 1080) = some c →
      ((byteAt s headerReader 950).toNat = 0 ∨ 128 < (byteAt s headerReader 950).toNat →
        exec .start s = .next { withActive s with error := .patternIndexOutOfRange, seqState := .stopped })
      ∧ (1 ≤ (byteAt s headerReader 950).toNat → (byteAt s headerReader 950).toNat ≤ 128 →
        ((∃ i : Nat, i < 128 ∧ 128 ≤ (byteAt s headerReader (952 + i)).toNat) →
          exec .start s = .next { withActive s with error := .patternIndexOutOfRange, seqState := .stopped })
        ∧ ((∀ i : Nat, i < 128 → (byteAt s headerReader (952 + i)).toNat < 128) →
          s.cfg.moduleLen.toNat < declaredLen (byteAt s headerReader) c →
          exec .start s = .next { withActive s with error := .truncatedData, seqState := .stopped })))

/-- A whole START step on an image that passes every check leaves the block Playing at tick 0 of row 0 of order 0, with
the first tick's length, the ring as it was, and every queued event of tick 0 (40_control.md R133, R134, R138). -/
def Obligations.StartStepPlaysFirstTick : Prop :=
  ∀ (s : State) (v : Word) (rest : List Input) (c : Nat), s.phase = .idle → s.inputs = .regWrite 0x00#8 v :: rest →
    v.toNat % 8 = 1 → s.seqState = .stopped ∨ s.seqState = .finished → s.dutyBroken = false →
    1084 ≤ s.cfg.moduleLen.toNat → signatureChannels (quad (byteAt s headerReader) 1080) = some c →
    1 ≤ (byteAt s headerReader 950).toNat → (byteAt s headerReader 950).toNat ≤ 128 →
    (∀ i : Nat, i < 128 → (byteAt s headerReader (952 + i)).toNat < 128) →
    declaredLen (byteAt s headerReader) c ≤ s.cfg.moduleLen.toNat →
      ∃ t : State, step s = .next t ∧ t.seqState = .playing ∧ t.phase = .idle ∧ t.seq.order = 0#7 ∧ t.seq.row = 0#6
        ∧ t.seq.tick = 0#5 ∧ t.seq.speed = 6#5 ∧ t.cnt.frameCount = 0#32 ∧ t.cnt.tickCount = 0#32
        ∧ t.clk.fptLatched.toNat = (5 * s.cfg.rate.toNat + 125) / 250 ∧ t.clk.frameInTick = 0#16
        ∧ t.pauseReq = false ∧ t.error = .none ∧ t.ring = s.ring ∧ (∀ e ∈ t.evq, e.tickIndex = 0#32)
        ∧ HeaderOf (byteAt s headerReader) c t.latch ∧ SameImage s t

/-- START in Playing or Paused, PAUSE and RESUME in Stopped or Finished, and STOP in Stopped are accepted and ignored.
Elsewhere PAUSE and RESUME write the pause flag, and STOP stops the song and clears it: the ring, the event queue, every
channel and every byte of memory stay (40_control.md R132, R140 to R142). -/
def Obligations.PauseResumeStop : Prop :=
  ∀ s : State,
    (s.seqState = .playing ∨ s.seqState = .paused →
      exec .start s = .next s
      ∧ exec .pause s = .next { s with pauseReq := true } ∧ SameMemory s { s with pauseReq := true }
      ∧ exec .resume s = .next { s with pauseReq := false } ∧ SameMemory s { s with pauseReq := false })
    ∧ (s.seqState = .stopped ∨ s.seqState = .finished → exec .pause s = .next s ∧ exec .resume s = .next s)
    ∧ (s.seqState ≠ .stopped →
      exec .stop s = .next { s with seqState := .stopped, pauseReq := false }
      ∧ SameMemory s { s with seqState := .stopped, pauseReq := false })
    ∧ (s.seqState = .stopped → exec .stop s = .next s)

/-- The command of a CTRL value is its bits 2 to 0; the ops 0, 5, 6 and 7 change no state, in every state
(30_encoding.md R112, 40_control.md R143). -/
def Obligations.CtrlCommands : Prop :=
  (∀ v : Word,
    (v.toNat % 8 = 0 → decodeCtrl v = .nop) ∧ (v.toNat % 8 = 1 → decodeCtrl v = .start)
    ∧ (v.toNat % 8 = 2 → decodeCtrl v = .pause) ∧ (v.toNat % 8 = 3 → decodeCtrl v = .resume)
    ∧ (v.toNat % 8 = 4 → decodeCtrl v = .stop) ∧ (v.toNat % 8 = 5 → decodeCtrl v = .rsvd5)
    ∧ (v.toNat % 8 = 6 → decodeCtrl v = .rsvd6) ∧ (v.toNat % 8 = 7 → decodeCtrl v = .rsvd7))
  ∧ ∀ s : State, exec .nop s = .next s ∧ exec .rsvd5 s = .next s ∧ exec .rsvd6 s = .next s ∧ exec .rsvd7 s = .next s

/-! ## Cells -/

/-- A step runs the decoded cell: where a START or a FRAME step has its trigger phase or its continuation tick still to
run from a channel of the song on, the bytes of that channel decode to an instruction, and the step is `exec` of it, then the
cells of the channels above it in ascending order, each `exec` of what its own bytes decode to, then the rest of the step. The
bytes (`cellBytes`) are, at tick 0, the four at 1084 + ((p * 64 + row) * C + k) * 4 with p the order table's entry, else the
latched command and parameter (20_memory.md R65; 42_sequencer.md R180, R184, R185, R198; 10_state.md R43; a step in progress
and the bytes of a continuation tick's effect are the model's own, log entries 10 and 11). -/
def Obligations.TickStepRunsCell : Prop :=
  ∀ (s : State) (i : Instr),
    (∀ k : Nat, (s.channelsFrom k).Pairwise (· < ·)
      ∧ ∀ j : Fin 8, j ∈ s.channelsFrom k ↔ k ≤ j.val ∧ j.val < s.latch.chanCount.toNat)
    ∧ runCells [] s = .next s
    ∧ (∀ (k : Fin 8) (rest : List (Fin 8)), decode .cell (cellBytes s k) = .ok (i, []) →
      runCells (k :: rest) s = thenNext (exec i { s with chan := k }) (runCells rest)) ∧
    (s.chan.val < s.latch.chanCount.toNat → decode .cell (cellBytes s s.chan) = .ok (i, []) →
    (s.phase = .startCells → step s = thenNext (exec i s) fun s1 =>
      thenNext (runCells (s.channelsFrom (s.chan.val + 1)) s1) fun s2 => .next { s2 with phase := .idle })
    ∧ (s.phase = .frameCells → step s = thenNext (exec i s) fun s1 =>
      thenNext (runCells (s.channelsFrom (s.chan.val + 1)) s1) produceFrame))

/-- The effects that act in the trigger phase alone, and those that never act, do nothing at a continuation tick: the
instruction completes and no state changes (43_effects.md R220, R229, R230, R232 to R243, R245, R246, R249 to R251). -/
def Obligations.TriggerOnlyEffectsContinueIdle : Prop :=
  ∀ (p : BitVec 12) (n : BitVec 8) (xx : BitVec 8) (x y : BitVec 4) (s : State), s.seq.tick ≠ 0#5 →
    exec (.noEffect p n) s = .next s ∧ exec (.pan p n xx) s = .next s ∧ exec (.offs p n xx) s = .next s
    ∧ exec (.jump p n xx) s = .next s ∧ exec (.vol p n xx) s = .next s ∧ exec (.brk p n x y) s = .next s
    ∧ exec (.spd p n xx) s = .next s ∧ exec (.efilt p n y) s = .next s ∧ exec (.efpu p n y) s = .next s
    ∧ exec (.efpd p n y) s = .next s ∧ exec (.eglis p n y) s = .next s ∧ exec (.evwav p n y) s = .next s
    ∧ exec (.eftun p n y) s = .next s ∧ exec (.eloop p n y) s = .next s ∧ exec (.etwav p n y) s = .next s
    ∧ exec (.eun8 p n y) s = .next s ∧ exec (.efvu p n y) s = .next s ∧ exec (.efvd p n y) s = .next s
    ∧ exec (.epdly p n y) s = .next s ∧ exec (.einv p n y) s = .next s

/-- The trigger phase of a cell whose effect does nothing at T0 is its latch, revert, note part and event, and nothing
else: no other channel, no sequencer register, no byte of memory (42_sequencer.md R184 to R190; 43_effects.md R220 to R223,
R226, R227, R231, R235, R238, R243, R244, R248, R250). A note delay of `y ≥ 1` ticks leaves its latch, the revert and the held
note, no event and nothing else; with `y = 0` its note is processed as an empty effect's would be. Which cells emit an event,
written out: those with a period or a sample number that neither name an unplayable sample nor are held back (45_events.md
R311). -/
def Obligations.NotePartOnlyTriggers : Prop :=
  ∀ (p : BitVec 12) (n : BitVec 8) (xx : BitVec 8) (x y : BitVec 4) (s : State), s.seq.tick = 0#5 →
    (∀ (i : Instr) (c : Cell),
      (i, c) ∈ ([(.noEffect p n, ⟨p, n, 0x0#4, 0x00#8⟩), (.arp p n x y, ⟨p, n, 0x0#4, joinNibbles x y⟩),
        (.pup p n xx, ⟨p, n, 0x1#4, xx⟩), (.pdn p n xx, ⟨p, n, 0x2#4, xx⟩),
        (.tpvs p n x y, ⟨p, n, 0x5#4, joinNibbles x y⟩), (.vibvs p n x y, ⟨p, n, 0x6#4, joinNibbles x y⟩),
        (.vsld p n x y, ⟨p, n, 0xA#4, joinNibbles x y⟩), (.efilt p n y, ⟨p, n, 0xE#4, joinNibbles 0x0#4 y⟩),
        (.eglis p n y, ⟨p, n, 0xE#4, joinNibbles 0x3#4 y⟩), (.eun8 p n y, ⟨p, n, 0xE#4, joinNibbles 0x8#4 y⟩),
        (.ertrg p n y, ⟨p, n, 0xE#4, joinNibbles 0x9#4 y⟩), (.edly p n y, ⟨p, n, 0xE#4, joinNibbles 0xD#4 y⟩),
        (.einv p n y, ⟨p, n, 0xE#4, joinNibbles 0xF#4 y⟩)] : List (Instr × Cell)) →
      TriggersTo i s c (noteResult s c))
    ∧ (y ≠ 0#4 →
      let h := s.getCh s.chan
      let g : Channel := { h with cmd := 0xE#4, param := BitVec.ofNat 8 (0xD0 + y.toNat), outPeriod := h.basePeriod
                                  outVol := h.vol, dlyPeriod := p, dlySmp := n }
      exec (.edly p n y) s = .next (s.setCh s.chan g) ∧ SameMemory s (s.setCh s.chan g))
    ∧ (∃ g : Channel,
      TriggersTo (.noEffect p n) s ⟨p, n, 0x0#4, 0x00#8⟩ g
      ∧ TriggersTo (.edly p n 0#4) s ⟨p, n, 0xE#4, 0xD0#8⟩ { g with cmd := 0xE#4, param := 0xD0#8 })
    ∧ ∀ c : Cell, emitsEvent s c = true ↔
        (c.period ≠ 0#12 ∨ c.smp ≠ 0#8)
        ∧ ¬(31 < c.smp.toNat ∨ (1 ≤ c.smp.toNat ∧ (s.hdr c.smp.toNat).len = 0#17))
        ∧ ¬(c.cmd = 0xE#4 ∧ 0xD1 ≤ c.param.toNat ∧ c.param.toNat ≤ 0xDF)

/-- Set volume and the fine volume slides set `vol` and `out_vol` of the current channel after the cell's note part, and
nothing else beyond the note part and its event (43_effects.md R233, R245, R246). -/
def Obligations.VolumeSetInTrigger : Prop :=
  ∀ (p : BitVec 12) (n : BitVec 8) (xx : BitVec 8) (y : BitVec 4) (s : State), s.seq.tick = 0#5 →
    (let c : Cell := ⟨p, n, 0xC#4, xx⟩
      let h := noteResult s c
      ∃ v : BitVec 7, v.toNat = min xx.toNat 64 ∧ TriggersTo (.vol p n xx) s c { h with vol := v, outVol := v })
    ∧ (let c : Cell := ⟨p, n, 0xE#4, joinNibbles 0xA#4 y⟩
      let h := noteResult s c
      ∃ v : BitVec 7, v.toNat = min (h.vol.toNat + y.toNat) 64
        ∧ TriggersTo (.efvu p n y) s c { h with vol := v, outVol := v })
    ∧ (let c : Cell := ⟨p, n, 0xE#4, joinNibbles 0xB#4 y⟩
      let h := noteResult s c
      ∃ v : BitVec 7, v.toNat = h.vol.toNat - y.toNat
        ∧ TriggersTo (.efvd p n y) s c { h with vol := v, outVol := v })

/-- The tables written out: the four bytes of a signature, the most significant first, and their channel count; the periods
of notes 0 to 35 at finetune 0; and the three waveforms over their 64 phases (20_memory.md R62; 30_encoding.md R97, R108, R110,
R111). -/
def Obligations.TableValues : Prop :=
  (∀ (rd : Nat → Byte) (a c : Nat), signatureChannels (quad rd a) = some c ↔
    ((rd a).toNat, (rd (a + 1)).toNat, (rd (a + 2)).toNat, (rd (a + 3)).toNat, c) ∈
      [(0x4D, 0x2E, 0x4B, 0x2E, 4), (0x4D, 0x21, 0x4B, 0x21, 4), (0x46, 0x4C, 0x54, 0x34, 4),
       (0x34, 0x43, 0x48, 0x4E, 4), (0x36, 0x43, 0x48, 0x4E, 6), (0x38, 0x43, 0x48, 0x4E, 8)])
  ∧ (List.range 36).map (fun n => (periodTable 0 n).toNat) =
      [856, 808, 762, 720, 678, 640, 604, 570, 538, 508, 480, 453, 428, 404, 381, 360, 339, 320, 302, 285, 269, 254, 240, 226,
       214, 202, 190, 180, 170, 160, 151, 143, 135, 127, 120, 113]
  ∧ (List.range 64).map (fun i => wave 0#2 (BitVec.ofNat 6 i)) =
      [0, 24, 49, 74, 97, 120, 141, 161, 180, 197, 212, 224, 235, 244, 250, 253, 255, 253, 250, 244, 235, 224, 212, 197, 180, 161,
       141, 120, 97, 74, 49, 24, 0, 24, 49, 74, 97, 120, 141, 161, 180, 197, 212, 224, 235, 244, 250, 253, 255, 253, 250, 244, 235,
       224, 212, 197, 180, 161, 141, 120, 97, 74, 49, 24]
  ∧ ∀ pos : BitVec 6, wave 1#2 pos = (if pos.toNat < 32 then 8 * pos.toNat else 255 - 8 * (pos.toNat - 32))
      ∧ wave 2#2 pos = 255 ∧ wave 3#2 pos = 255

/-- Tremolo: T0 remembers each nonzero nibble after the note part; each continuation tick modulates `out_vol` by the
waveform at the phase, within 0 to 64, and steps the phase (43_effects.md R228, R255; 30_encoding.md R111). -/
def Obligations.TremoloEffect : Prop :=
  ∀ (p : BitVec 12) (n : BitVec 8) (x y : BitVec 4) (s : State),
    (s.seq.tick = 0#5 →
      let c : Cell := ⟨p, n, 0x7#4, joinNibbles x y⟩
      let h := noteResult s c
      TriggersTo (.trem p n x y) s c
        { h with tremSpeed := if x ≠ 0#4 then x else h.tremSpeed, tremDepth := if y ≠ 0#4 then y else h.tremDepth })
    ∧ (s.seq.tick ≠ 0#5 →
      let h := s.getCh s.chan
      let d := wave h.tremWave h.tremPos * h.tremDepth.toNat / 64
      d ≤ 59 ∧ ∃ (v : BitVec 7) (q : BitVec 6),
        v.toNat = (if h.tremPos.toNat < 32 then min (h.vol.toNat + d) 64 else min (h.vol.toNat - d) 64)
        ∧ q.toNat = (h.tremPos.toNat + h.tremSpeed.toNat) % 64
        ∧ ContinuesTo (.trem p n x y) s { h with outVol := v, tremPos := q })

/-- Vibrato: T0 remembers each nonzero nibble after the note part; each continuation tick with a nonzero base period
modulates `out_period` by the waveform at the phase and steps the phase, and with base period 0 does nothing
(43_effects.md R225, R254; 30_encoding.md R111). Where the exact result is outside 12 bits, which no rule states, the
statement says nothing of `out_period`. That T0 remembers the nibbles with base period 0 too, R225 over R258, is the model's
reading (log entry 27). -/
def Obligations.VibratoEffect : Prop :=
  ∀ (p : BitVec 12) (n : BitVec 8) (x y : BitVec 4) (s : State),
    (s.seq.tick = 0#5 →
      let c : Cell := ⟨p, n, 0x4#4, joinNibbles x y⟩
      let h := noteResult s c
      TriggersTo (.vib p n x y) s c
        { h with vibSpeed := if x ≠ 0#4 then x else h.vibSpeed, vibDepth := if y ≠ 0#4 then y else h.vibDepth })
    ∧ (s.seq.tick ≠ 0#5 →
      let h := s.getCh s.chan
      let d := wave h.vibWave h.vibPos * h.vibDepth.toNat / 128
      d ≤ 29 ∧ (h.basePeriod = 0#12 → ContinuesTo (.vib p n x y) s h)
      ∧ (h.basePeriod ≠ 0#12 → ∃ (v : BitVec 12) (q : BitVec 6),
        (h.vibPos.toNat < 32 → h.basePeriod.toNat + d ≤ 4095 → v.toNat = h.basePeriod.toNat + d)
        ∧ (32 ≤ h.vibPos.toNat → d ≤ h.basePeriod.toNat → v.toNat = h.basePeriod.toNat - d)
        ∧ q.toNat = (h.vibPos.toNat + h.vibSpeed.toNat) % 64
        ∧ ContinuesTo (.vib p n x y) s { h with outPeriod := v, vibPos := q }))

/-- Tone portamento: T0 remembers a nonzero rate after the note part; each continuation tick with a nonzero base period
and a target moves the base period toward the target by the rate, without passing it, and clears the target on arrival;
with no target the output period reverts to the base period (43_effects.md R224, R253). With base period 0 nothing
happens at a tick (R258; the model's reading, log entry 21), while T0 remembers the rate there too (log entry 27). -/
def Obligations.TonePortamentoEffect : Prop :=
  ∀ (p : BitVec 12) (n : BitVec 8) (xx : BitVec 8) (s : State),
    (s.seq.tick = 0#5 →
      let c : Cell := ⟨p, n, 0x3#4, xx⟩
      let h := noteResult s c
      TriggersTo (.tporta p n xx) s c { h with portaRate := if xx ≠ 0#8 then xx else h.portaRate })
    ∧ (s.seq.tick ≠ 0#5 →
      let h := s.getCh s.chan
      (h.basePeriod = 0#12 → ContinuesTo (.tporta p n xx) s h)
      ∧ (h.basePeriod ≠ 0#12 → h.portaTarget = 0#12 → ContinuesTo (.tporta p n xx) s { h with outPeriod := h.basePeriod })
      ∧ (h.basePeriod ≠ 0#12 → h.portaTarget ≠ 0#12 → ∃ b : BitVec 12,
        (h.basePeriod.toNat ≤ h.portaTarget.toNat → b.toNat = min (h.basePeriod.toNat + h.portaRate.toNat) h.portaTarget.toNat)
        ∧ (h.portaTarget.toNat < h.basePeriod.toNat →
          b.toNat = max (h.basePeriod.toNat - h.portaRate.toNat) h.portaTarget.toNat)
        ∧ ContinuesTo (.tporta p n xx) s
          { h with basePeriod := b, outPeriod := b, portaTarget := if b = h.portaTarget then 0#12 else h.portaTarget }))

/-- The volume slides at a continuation tick, up by `x` where `x` is not 0, else down by `y`, within 0 to 64: VSLD alone,
TPVS after what TPORTA does to the channel at that tick, VIBVS after what VIB does there (43_effects.md R226, R227, R231,
R252). That TPVS and VIBVS slide the volume with base period 0 too, where R258 has every period effect do nothing, is the model's
reading (log entry 27), as is what TPORTA does there (log entry 21). -/
def Obligations.VolumeSlides : Prop :=
  ∀ (p : BitVec 12) (n : BitVec 8) (x y : BitVec 4) (s : State), s.seq.tick ≠ 0#5 →
    let h := s.getCh s.chan
    ∃ (a b : Channel) (w : BitVec 7),
      w.toNat = (if x ≠ 0#4 then min (h.vol.toNat + x.toNat) 64 else h.vol.toNat - y.toNat)
      ∧ ContinuesTo (.vsld p n x y) s { h with vol := w, outVol := w }
      ∧ exec (.tporta p n 0#8) s = .next (s.setCh s.chan a) ∧ ContinuesTo (.tpvs p n x y) s { a with vol := w, outVol := w }
      ∧ exec (.vib p n 0#4 0#4) s = .next (s.setCh s.chan b) ∧ ContinuesTo (.vibvs p n x y) s { b with vol := w, outVol := w }

/-- Portamento up and down at a continuation tick: with a nonzero base period, the base and output periods move by `xx`,
not below 113, not above 856; with base period 0 nothing happens (43_effects.md R222, R223, R258). That `100` too raises a base
below 113 is the model's reading, log entry 23. -/
def Obligations.PortamentoUpDown : Prop :=
  ∀ (p : BitVec 12) (n : BitVec 8) (xx : BitVec 8) (s : State), s.seq.tick ≠ 0#5 →
    let h := s.getCh s.chan
    (h.basePeriod = 0#12 → ContinuesTo (.pup p n xx) s h ∧ ContinuesTo (.pdn p n xx) s h)
    ∧ (h.basePeriod ≠ 0#12 → ∃ u d : BitVec 12,
      u.toNat = max (h.basePeriod.toNat - xx.toNat) 113 ∧ ContinuesTo (.pup p n xx) s { h with basePeriod := u, outPeriod := u }
      ∧ d.toNat = min (h.basePeriod.toNat + xx.toNat) 856
      ∧ ContinuesTo (.pdn p n xx) s { h with basePeriod := d, outPeriod := d })

/-- Fine portamento up and down in the trigger phase, after the cell's note: with a nonzero base period, the base and
output periods move by `y`, not below 113, not above 856; with base period 0 nothing more happens (43_effects.md R236, R237). -/
def Obligations.FinePortamento : Prop :=
  ∀ (p : BitVec 12) (n : BitVec 8) (y : BitVec 4) (s : State), s.seq.tick = 0#5 →
    (let c : Cell := ⟨p, n, 0xE#4, joinNibbles 0x1#4 y⟩
      let h := noteResult s c
      (h.basePeriod = 0#12 → TriggersTo (.efpu p n y) s c h)
      ∧ (h.basePeriod ≠ 0#12 → ∃ u : BitVec 12, u.toNat = max (h.basePeriod.toNat - y.toNat) 113
        ∧ TriggersTo (.efpu p n y) s c { h with basePeriod := u, outPeriod := u }))
    ∧ (let c : Cell := ⟨p, n, 0xE#4, joinNibbles 0x2#4 y⟩
      let h := noteResult s c
      (h.basePeriod = 0#12 → TriggersTo (.efpd p n y) s c h)
      ∧ (h.basePeriod ≠ 0#12 → ∃ d : BitVec 12, d.toNat = min (h.basePeriod.toNat + y.toNat) 856
        ∧ TriggersTo (.efpd p n y) s c { h with basePeriod := d, outPeriod := d }))

/-- Arpeggio at a continuation tick with a nonzero base period: the output period is the base period at ticks divisible
by 3, else the period of the note 4 or `x`, or 3 or `y`, semitones above the sounding note in the channel's finetune row,
saturating at note 35; with base period 0 nothing happens (43_effects.md R221, R256; 30_encoding.md R109). At an offset 0 the
step plays the base period, the corner case of R221, where R256's formula would give the note's table period; which of the two
sentences holds is the model's reading, log entry 25. -/
def Obligations.ArpeggioEffect : Prop :=
  ∀ (p : BitVec 12) (n : BitVec 8) (x y : BitVec 4) (s : State), s.seq.tick ≠ 0#5 →
    let h := s.getCh s.chan
    (h.basePeriod = 0#12 → ContinuesTo (.arp p n x y) s h)
    ∧ (h.basePeriod ≠ 0#12 →
      (s.seq.tick.toNat % 3 = 0 → ContinuesTo (.arp p n x y) s { h with outPeriod := h.basePeriod })
      ∧ ∃ m : Nat, m ≤ 35
        ∧ (∀ j : Nat, j < m → h.basePeriod.toNat < (periodTable h.ft.toNat j).toNat)
        ∧ ((periodTable h.ft.toNat m).toNat ≤ h.basePeriod.toNat ∨ m = 35)
        ∧ (s.seq.tick.toNat % 3 = 1 → ContinuesTo (.arp p n x y) s
          { h with outPeriod := if s.act.arp = true ∧ x = 0#4 then h.basePeriod
                                else periodTable h.ft.toNat (min (m + if s.act.arp then x.toNat else 4) 35) })
        ∧ (s.seq.tick.toNat % 3 = 2 → ContinuesTo (.arp p n x y) s
          { h with outPeriod := if s.act.arp = true ∧ y = 0#4 then h.basePeriod
                                else periodTable h.ft.toNat (min (m + if s.act.arp then y.toNat else 3) 35) }))

/-- The waveform selects and the finetune, in the trigger phase after the note part, write their one register of the
current channel (43_effects.md R239, R240, R242). -/
def Obligations.WaveformsAndFinetune : Prop :=
  ∀ (p : BitVec 12) (n : BitVec 8) (y : BitVec 4) (s : State), s.seq.tick = 0#5 →
    (let c : Cell := ⟨p, n, 0xE#4, joinNibbles 0x4#4 y⟩;
      TriggersTo (.evwav p n y) s c { noteResult s c with vibWave := BitVec.ofNat 2 (y.toNat % 4) })
    ∧ (let c : Cell := ⟨p, n, 0xE#4, joinNibbles 0x7#4 y⟩;
      TriggersTo (.etwav p n y) s c { noteResult s c with tremWave := BitVec.ofNat 2 (y.toNat % 4) })
    ∧ (let c : Cell := ⟨p, n, 0xE#4, joinNibbles 0x5#4 y⟩;
      TriggersTo (.eftun p n y) s c { noteResult s c with ft := y })

/-- Set panning makes the channel's panning explicit if the song's configuration supports it, whatever its parameter, and
else does nothing beyond the note part (43_effects.md R229). -/
def Obligations.SetPanning : Prop :=
  ∀ (p : BitVec 12) (n : BitVec 8) (xx : BitVec 8) (s : State), s.seq.tick = 0#5 →
    let c : Cell := ⟨p, n, 0x8#4, xx⟩
    let h := noteResult s c
    TriggersTo (.pan p n xx) s c { h with panExplicit := s.act.pan || h.panExplicit }

/-- Sample offset: a note of the cell starts the cursor 256 frames a step into its sample, from the parameter or else the
memory, silent where that is not inside the sample; then a nonzero parameter is remembered (43_effects.md R230,
42_sequencer.md R189). That a start past the loop's end but inside the sample sounds, R189 over 44_mixer.md R286, is the model's
reading (log entry 28). -/
def Obligations.SampleOffset : Prop :=
  ∀ (p : BitVec 12) (n : BitVec 8) (xx : BitVec 8) (s : State), s.seq.tick = 0#5 →
    let c : Cell := ⟨p, n, 0x9#4, xx⟩
    let h := noteResult s c
    let off := 256 * if xx ≠ 0#8 then xx.toNat else (s.getCh s.chan).offsetMem.toNat
    TriggersTo (.offs p n xx) s c { h with offsetMem := if xx ≠ 0#8 then xx else h.offsetMem }
    ∧ (hasNotePart c = true → noopNote s c = false →
      h.posInt.toNat = off ∧ h.posFrac = 0#16 ∧ h.loopActive = false
      ∧ (h.active = true ↔ h.smp ≠ 0#5 ∧ off < (s.hdr h.smp.toNat).len.toNat))

/-- Pattern jump and pattern break schedule their target for the row boundary, after the note part; the break row is the
parameter's two decimal digits, or 0 where they exceed 63 (43_effects.md R232, R234). -/
def Obligations.JumpAndBreak : Prop :=
  ∀ (p : BitVec 12) (n : BitVec 8) (xx : BitVec 8) (x y : BitVec 4) (s : State), s.seq.tick = 0#5 →
    (let c : Cell := ⟨p, n, 0xB#4, xx⟩;
      TriggersToSeq (.jump p n xx) s c (noteResult s c) { s.seq with jumpPending := true, jumpTarget := xx })
    ∧ (let c : Cell := ⟨p, n, 0xD#4, joinNibbles x y⟩
      ∃ r : BitVec 6, r.toNat = (if 10 * x.toNat + y.toNat ≤ 63 then 10 * x.toNat + y.toNat else 0)
        ∧ TriggersToSeq (.brk p n x y) s c (noteResult s c) { s.seq with breakPending := true, breakRow := r })

/-- Set speed or tempo: 0 is ignored, 1 to 31 is the pending speed, 32 and above the tempo, after the note part; the
speed in force and the length of the tick in progress stay (43_effects.md R251). -/
def Obligations.SpeedAndTempo : Prop :=
  ∀ (p : BitVec 12) (n : BitVec 8) (xx : BitVec 8) (s : State), s.seq.tick = 0#5 →
    let c : Cell := ⟨p, n, 0xF#4, xx⟩
    (xx.toNat = 0 → TriggersToSeq (.spd p n xx) s c (noteResult s c) s.seq)
    ∧ (1 ≤ xx.toNat → xx.toNat ≤ 31 → ∃ v : BitVec 5, v.toNat = xx.toNat
      ∧ TriggersToSeq (.spd p n xx) s c (noteResult s c) { s.seq with speedPending := v })
    ∧ (32 ≤ xx.toNat → TriggersToSeq (.spd p n xx) s c (noteResult s c) { s.seq with tempo := xx })

/-- Pattern loop, after the note part: in a pattern-delay repetition nothing; else `y = 0` marks the row; else a first
meeting starts the count and schedules the jump back; else the count falls and the jump is scheduled while it is not 0
(43_effects.md R241). -/
def Obligations.PatternLoop : Prop :=
  ∀ (p : BitVec 12) (n : BitVec 8) (y : BitVec 4) (s : State), s.seq.tick = 0#5 →
    let c : Cell := ⟨p, n, 0xE#4, joinNibbles 0x6#4 y⟩
    let h := noteResult s c
    (s.seq.delayActive = true → TriggersToSeq (.eloop p n y) s c h s.seq)
    ∧ (s.seq.delayActive = false →
      (y = 0#4 → TriggersToSeq (.eloop p n y) s c { h with loopRow := s.seq.row } s.seq)
      ∧ (y ≠ 0#4 → h.loopCount = 0#4 → TriggersToSeq (.eloop p n y) s c { h with loopCount := y }
        { s.seq with loopjumpPending := true, loopjumpRow := h.loopRow })
      ∧ (y ≠ 0#4 → h.loopCount ≠ 0#4 → ∃ m : BitVec 4, m.toNat + 1 = h.loopCount.toNat
        ∧ (m = 0#4 → TriggersToSeq (.eloop p n y) s c { h with loopCount := m } s.seq)
        ∧ (m ≠ 0#4 → TriggersToSeq (.eloop p n y) s c { h with loopCount := m }
          { s.seq with loopjumpPending := true, loopjumpRow := h.loopRow })))

/-- Pattern delay, after the note part, sets the count of extra iterations of the row, except in a repetition, where it
is ignored (43_effects.md R249). That `EE0` too writes its count, over one that a lower channel has set, is the model's
reading, log entry 24. -/
def Obligations.PatternDelay : Prop :=
  ∀ (p : BitVec 12) (n : BitVec 8) (y : BitVec 4) (s : State), s.seq.tick = 0#5 →
    let c : Cell := ⟨p, n, 0xE#4, joinNibbles 0xE#4 y⟩
    (s.seq.delayActive = true → TriggersToSeq (.epdly p n y) s c (noteResult s c) s.seq)
    ∧ (s.seq.delayActive = false →
      TriggersToSeq (.epdly p n y) s c (noteResult s c) { s.seq with delayCount := y })

/-- Retrigger at a continuation tick `t`: every `y` ticks the sample restarts from its first frame, with no event; at the
other ticks, and with `y = 0`, nothing happens (43_effects.md R244). -/
def Obligations.RetriggerEffect : Prop :=
  ∀ (p : BitVec 12) (n : BitVec 8) (y : BitVec 4) (s : State), s.seq.tick ≠ 0#5 →
    let h := s.getCh s.chan
    (y ≠ 0#4 → s.seq.tick.toNat % y.toNat = 0 → ContinuesTo (.ertrg p n y) s
      { h with posInt := 0#18, posFrac := 0#16, loopActive := false
               active := h.smp ≠ 0#5 && decide (0 < (s.hdr h.smp.toNat).len.toNat) })
    ∧ (y = 0#4 ∨ s.seq.tick.toNat % y.toNat ≠ 0 → ContinuesTo (.ertrg p n y) s h)

/-- Note cut sets the volume to 0 at tick `y` exactly, the trigger phase being tick 0; the channel stays as active as it
was (43_effects.md R247). -/
def Obligations.NoteCut : Prop :=
  ∀ (p : BitVec 12) (n : BitVec 8) (y : BitVec 4) (s : State),
    (s.seq.tick = 0#5 →
      let c : Cell := ⟨p, n, 0xE#4, joinNibbles 0xC#4 y⟩
      let h := noteResult s c
      (y = 0#4 → TriggersTo (.ecut p n y) s c { h with vol := 0#7, outVol := 0#7 })
      ∧ (y ≠ 0#4 → TriggersTo (.ecut p n y) s c h))
    ∧ (s.seq.tick ≠ 0#5 →
      let h := s.getCh s.chan
      (s.seq.tick.toNat = y.toNat → ContinuesTo (.ecut p n y) s { h with vol := 0#7, outVol := 0#7 })
      ∧ (s.seq.tick.toNat ≠ y.toNat → ContinuesTo (.ecut p n y) s h))

/-- Note delay at continuation ticks: at tick `y` the held note is processed as a cell of this effect, with its event, and
at every other tick nothing happens (43_effects.md R248). The channel's latched effect is unchanged by it, and the note
does not revert the modulated outputs. -/
def Obligations.NoteDelayReleases : Prop :=
  ∀ (p : BitVec 12) (n : BitVec 8) (y : BitVec 4) (s : State), s.seq.tick ≠ 0#5 →
    let h := s.getCh s.chan
    let c : Cell := ⟨h.dlyPeriod, h.dlySmp, 0xE#4, h.param⟩
    (s.seq.tick.toNat ≠ y.toNat → ContinuesTo (.edly p n y) s h)
    ∧ (s.seq.tick.toNat = y.toNat → hiNibble h.param = 0xD#4 → ∃ g : Channel,
      exec (.edly p n y) s = .next ((if hasNotePart c && !noopNote s c then evPush s (cellEvent s c g.vol) else s).setCh s.chan g)
      ∧ SameMemory s ((if hasNotePart c && !noopNote s c then evPush s (cellEvent s c g.vol) else s).setCh s.chan g)
      ∧ (noopNote s c = true → g = h)
      ∧ (noopNote s c = false →
        let m := if h.dlySmp ≠ 0#8 then h.dlySmp.setWidth 5 else h.smp
        let v := if h.dlySmp ≠ 0#8 then (s.hdr h.dlySmp.toNat).vol else h.vol
        let f := if h.dlySmp ≠ 0#8 then (s.hdr h.dlySmp.toNat).ft else h.ft
        let b := if h.dlyPeriod ≠ 0#12 then lookup h.dlyPeriod f else h.basePeriod
        let r := hasNotePart c
        g = { h with
              smp := m
              ft := f
              vol := v
              outVol := if h.dlySmp ≠ 0#8 then v else h.outVol
              basePeriod := b
              outPeriod := if h.dlyPeriod ≠ 0#12 then b else h.outPeriod
              posInt := if r then 0#18 else h.posInt
              posFrac := if r then 0#16 else h.posFrac
              loopActive := if r then false else h.loopActive
              active := if r then m ≠ 0#5 && decide (0 < (s.hdr m.toNat).len.toNat) else h.active }))

/-- A cell whose sample number names no playable sample leaves the channel's sample, finetune, volume, period and cursor as
they were and emits no event, whatever its effect is: its effect only then acts (42_sequencer.md R188). The effects that
set one of these registers themselves in the trigger phase are not spoken of for that register: VOL, EFVU, EFVD and ECUT with
`y = 0` for the volume, EFPU and EFPD for the period, EFTUN for the finetune. -/
def Obligations.NoopNoteIgnored : Prop :=
  ∀ (c : Cell) (s : State), s.seq.tick = 0#5 →
    c.smp ≠ 0#8 → (32 ≤ c.smp.toNat ∨ (s.hdr c.smp.toNat).len = 0#17) →
    ∃ t : State, exec (cellKind c) s = .next t ∧ t.evq = s.evq ∧ t.cnt = s.cnt
      ∧ (t.getCh s.chan).smp = (s.getCh s.chan).smp ∧ (t.getCh s.chan).posInt = (s.getCh s.chan).posInt
      ∧ (t.getCh s.chan).posFrac = (s.getCh s.chan).posFrac ∧ (t.getCh s.chan).active = (s.getCh s.chan).active
      ∧ (t.getCh s.chan).portaTarget = (s.getCh s.chan).portaTarget
      ∧ (c.cmd ≠ 0xC#4 → ¬(c.cmd = 0xE#4 ∧ (hiNibble c.param = 0xA#4 ∨ hiNibble c.param = 0xB#4 ∨ c.param = 0xC0#8)) →
        (t.getCh s.chan).vol = (s.getCh s.chan).vol)
      ∧ (¬(c.cmd = 0xE#4 ∧ (hiNibble c.param = 0x1#4 ∨ hiNibble c.param = 0x2#4)) →
        (t.getCh s.chan).basePeriod = (s.getCh s.chan).basePeriod)
      ∧ (¬(c.cmd = 0xE#4 ∧ hiNibble c.param = 0x5#4) → (t.getCh s.chan).ft = (s.getCh s.chan).ft)

/-- A cell that names a playable sample and is not held back binds it and restarts it at frame 0, or at the sample offset,
whatever its effect is, and its default volume stands unless the effect sets the volume: VOL, EFVU, EFVD and ECUT
with `y = 0` (42_sequencer.md R184, R187, R189, R192). -/
def Obligations.SampleNumberBinds : Prop :=
  ∀ (c : Cell) (s : State), s.seq.tick = 0#5 → heldNote c = false →
    1 ≤ c.smp.toNat → c.smp.toNat ≤ 31 → (s.hdr c.smp.toNat).len ≠ 0#17 →
    ∃ t : State, exec (cellKind c) s = .next t
      ∧ (let h := t.getCh s.chan
        let off := if c.cmd = 0x9#4 then 256 * (if c.param ≠ 0#8 then c.param.toNat else (s.getCh s.chan).offsetMem.toNat) else 0
        h.smp.toNat = c.smp.toNat ∧ h.posInt.toNat = off ∧ h.posFrac = 0#16 ∧ h.loopActive = false
        ∧ (h.active = true ↔ off < (s.hdr c.smp.toNat).len.toNat)
        ∧ (c.cmd ≠ 0xC#4 → ¬(c.cmd = 0xE#4 ∧ (hiNibble c.param = 0xA#4 ∨ hiNibble c.param = 0xB#4 ∨ c.param = 0xC0#8)) →
          h.vol = (s.hdr c.smp.toNat).vol ∧ h.outVol = (s.hdr c.smp.toNat).vol)
        ∧ (c.cmd = 0xC#4 → h.vol.toNat = min c.param.toNat 64))

/-- Every cell instruction completes at every tick, on every state: no cell value is an error, and beyond the current
channel, the sequencer registers and the event queue with its drop counter nothing changes, no byte of memory among it
(30_encoding.md R105; what the spec derives in R201 from 42_sequencer.md R184 to R198). -/
def Obligations.CellsNeverFault : Prop :=
  ∀ (i : Instr) (s : State), i.space = .cell → ∃ t : State, exec i s = .next t
    ∧ t = { s.setCh s.chan (t.getCh s.chan) with
            seq := t.seq, evq := t.evq, cnt := { s.cnt with evDrop := t.cnt.evDrop } }
    ∧ t.seq.order = s.seq.order ∧ t.seq.row = s.seq.row ∧ t.seq.tick = s.seq.tick ∧ t.seq.speed = s.seq.speed
    ∧ SameMemory s t

/-- The lookup of a cell period in the finetune-0 row: the least note whose period is not above it, or note 35
(30_encoding.md R108). -/
def Obligations.LookupSnapsToTable : Prop :=
  ∀ (p : BitVec 12) (ft : BitVec 4), ∃ n : Nat, n ≤ 35 ∧ lookup p ft = periodTable ft.toNat n
    ∧ (∀ j : Nat, j < n → p.toNat < (periodTable 0 j).toNat)
    ∧ ((periodTable 0 n).toNat ≤ p.toNat ∨ n = 35)
    ∧ (856 ≤ p.toNat → n = 0) ∧ (p.toNat ≤ 113 → n = 35)
    ∧ (∀ j : Nat, j ≤ 35 → p = periodTable 0 j → n = j)

/-! ## The Sequencer and the clock -/

/-- Row advance: tick 0, the pending speed in force; a pattern delay repeats the row; else the song goes to the pending
jump, break, loop jump or next row, and at the end of the order list to the restart position, if there is one, or to
Finished with order and row as they were (42_sequencer.md R194 to R197, R199). -/
def Obligations.RowAdvanceOrder : Prop :=
  ∀ s : State, s.latch.songLen.toNat ≤ 128 →
    (s.seq.delayCount ≠ 0#4 → ∃ d : BitVec 4, d.toNat + 1 = s.seq.delayCount.toNat
      ∧ rowAdvance s = { s with seq := { rowStart s.seq with delayCount := d, delayActive := true } })
    ∧ (s.seq.delayCount = 0#4 → ∃ (o : Nat) (r : BitVec 6), RowTarget s.seq o r ∧
      (let q : SeqRegs := { rowStart s.seq with delayActive := false, jumpPending := false, breakPending := false
                                                loopjumpPending := false }
       (o < s.latch.songLen.toNat → ∃ o' : BitVec 7, o'.toNat = o
         ∧ rowAdvance s = { s with seq := { q with order := o', row := r } })
       ∧ (s.latch.songLen.toNat ≤ o → s.latch.restart.toNat < s.latch.songLen.toNat →
         ∃ o' : BitVec 7, o'.toNat = s.latch.restart.toNat
           ∧ rowAdvance s = { s with seq := { q with order := o', row := r } })
       ∧ (s.latch.songLen.toNat ≤ o → s.latch.songLen.toNat ≤ s.latch.restart.toNat →
         rowAdvance s = { s with seq := q, seqState := .finished })))

/-- The order of a FRAME step. Not enabled, the producer has no step. Between boundaries the frame is produced at once. At
a boundary the tick's length is latched from the tempo and the tick counted before the Sequencer runs; with no pause
request a paused song plays again; then the next row, or the next tick of the row, has its cells run in ascending channel
order, and then the frame is produced; a song that finishes there produces none. The frame produced is silence in Paused, and
else the mix of the channels as they then stand, pushed at the end of the ring and counted (41_clock.md R160; 42_sequencer.md
R180; 44_mixer.md R280). R280 gives the mix no error: that a mix which reads a PCM address of 2^32 or more is a fault, and the
frame step then answers it, is the model's (log entry 13). That a step not enabled answers the state with its schedule moved is the model's (log entry 8), as are the phases of a
step (log entry 10); that a paused song can so finish in one step, which the table of R131 does not list, is the model's reading
of R180 (log entry 22). -/
def Obligations.FrameStepOrder : Prop :=
  (∀ x : State,
    let pushes : State → Frame → State := fun u f =>
      { u with ring := x.ring ++ [f], clk := { x.clk with frameInTick := x.clk.frameInTick + 1 }
               cnt := { x.cnt with frameCount := x.cnt.frameCount + 1 }, phase := .idle }
    (x.seqState = .paused → produceFrame x = .next (pushes x { left := 0, right := 0 }))
    ∧ (x.seqState ≠ .paused →
      (∀ (u : State) (f : Frame), mix x = .ok (u, f) → produceFrame x = .next (pushes u f))
      ∧ ∀ e : Fault, mix x = .error e → produceFrame x = .fault e))
  ∧ ∀ s b : State, FrameBegins s b →
    (s.seqState = .stopped ∨ s.seqState = .finished ∨ ringDepth ≤ s.ring.length → step s = .next b)
    ∧ (s.seqState = .playing ∨ s.seqState = .paused → s.ring.length < ringDepth →
      (s.clk.frameInTick.toNat < s.clk.fptLatched.toNat → step s = produceFrame { b with phase := .frameMix })
      ∧ (s.clk.fptLatched.toNat ≤ s.clk.frameInTick.toNat → s.pauseReq = false →
        (let d : State := { b with
            seqState := .playing
            clk := { fptLatched := latchedFpt s.seq.tempo s.act.rate, frameInTick := 0 }
            cnt := { s.cnt with tickCount := s.cnt.tickCount + 1 }
            phase := .frameMix }
         (s.seq.tick.toNat + 1 = s.seq.speed.toNat →
           ((rowAdvance d).seqState = .finished → step s = .next { rowAdvance d with phase := .idle })
           ∧ ((rowAdvance d).seqState ≠ .finished →
             step s = thenNext (runCells (s.channelsFrom 0) { rowAdvance d with phase := .frameCells, chan := 0 }) produceFrame))
         ∧ (s.seq.tick.toNat + 1 ≠ s.seq.speed.toNat →
           step s = thenNext (runCells (s.channelsFrom 0)
             { d with seq := { s.seq with tick := s.seq.tick + 1 }, phase := .frameCells, chan := 0 }) produceFrame))))

/-- Pause: a boundary that finds the flag set makes the song Paused and sequences nothing; while Paused with the flag set,
or between boundaries, a FRAME step pushes silence and moves only the clock, the two counters and the ring
(42_sequencer.md R180, 41_clock.md R160, from which the spec derives its R164); the schedule and the draw counter, which
move in every step, are the model's own fields (log entries 6 and 7). -/
def Obligations.PausedFrames : Prop :=
  ∀ s b : State, FrameBegins s b → s.ring.length < ringDepth →
    (s.clk.fptLatched.toNat ≤ s.clk.frameInTick.toNat → s.pauseReq = true → s.seqState = .playing ∨ s.seqState = .paused →
      step s = .next { b with
        seqState := .paused
        clk := { fptLatched := latchedFpt s.seq.tempo s.act.rate, frameInTick := 1 }
        cnt := { s.cnt with tickCount := s.cnt.tickCount + 1, frameCount := s.cnt.frameCount + 1 }
        ring := s.ring ++ [{ left := 0, right := 0 }] })
    ∧ (s.clk.frameInTick.toNat < s.clk.fptLatched.toNat → s.seqState = .paused →
      step s = .next { b with
        clk := { s.clk with frameInTick := s.clk.frameInTick + 1 }
        cnt := { s.cnt with frameCount := s.cnt.frameCount + 1 }
        ring := s.ring ++ [{ left := 0, right := 0 }] })

/-- A FRAME step that is enabled and answers pushes one frame and counts it, or finishes the song and pushes none; the tick
is counted, and its length latched from the tempo before the step, rounded half up, exactly at a boundary. Between boundaries in
Playing the frame is the mix of the channels before the step, and the step leaves what the mix leaves, with the frame at the end
of the ring and the two frame counts one more (41_clock.md R160, R161; 44_mixer.md R280). -/
def Obligations.FrameStepCounts : Prop :=
  (∀ s b u : State, ∀ f : Frame, FrameBegins s b → s.seqState = .playing → s.ring.length < ringDepth →
    s.clk.frameInTick.toNat < s.clk.fptLatched.toNat → mix b = .ok (u, f) →
      step s = .next { u with ring := s.ring ++ [f], clk := { s.clk with frameInTick := s.clk.frameInTick + 1 }
                              cnt := { s.cnt with frameCount := s.cnt.frameCount + 1 } })
  ∧ ∀ s b t : State, FrameBegins s b → s.seqState = .playing ∨ s.seqState = .paused → s.ring.length < ringDepth →
    step s = .next t →
      (if s.clk.fptLatched.toNat ≤ s.clk.frameInTick.toNat then
        t.cnt.tickCount = s.cnt.tickCount + 1 ∧ t.clk.fptLatched = latchedFpt s.seq.tempo s.act.rate
        ∧ (32 ≤ s.seq.tempo.toNat → 8000 ≤ s.act.rate.toNat → s.act.rate.toNat ≤ 192000 →
          t.clk.fptLatched.toNat = (5 * s.act.rate.toNat + s.seq.tempo.toNat) / (2 * s.seq.tempo.toNat))
      else t.cnt.tickCount = s.cnt.tickCount ∧ t.clk.fptLatched = s.clk.fptLatched)
      ∧ ((t.seqState = .finished ∧ t.ring = s.ring ∧ t.cnt.frameCount = s.cnt.frameCount)
        ∨ (t.seqState ≠ .finished ∧ (∃ f : Frame, t.ring = s.ring ++ [f]) ∧ t.cnt.frameCount = s.cnt.frameCount + 1
          ∧ t.clk.frameInTick = if s.clk.fptLatched.toNat ≤ s.clk.frameInTick.toNat then 1#16 else s.clk.frameInTick + 1))

/-- The frames of a tick, rounded half up, as a number and as the 16 bits that a boundary latches, and the cursor's step,
truncated: their formulas, their values and their ranges (41_clock.md R161, 44_mixer.md R281). -/
def Obligations.TickAndStepRanges : Prop :=
  (∀ bpm rate : Nat, 32 ≤ bpm → bpm ≤ 255 → 8000 ≤ rate → rate ≤ 192000 →
    framesPerTick bpm rate = (5 * rate + bpm) / (2 * bpm) ∧ 78 ≤ framesPerTick bpm rate ∧ framesPerTick bpm rate ≤ 15000)
  ∧ (∀ (tempo : BitVec 8) (rate : BitVec 18), 32 ≤ tempo.toNat → 8000 ≤ rate.toNat → rate.toNat ≤ 192000 →
    (latchedFpt tempo rate).toNat = (5 * rate.toNat + tempo.toNat) / (2 * tempo.toNat))
  ∧ framesPerTick 125 44100 = 882
  ∧ (∀ p rate : Nat, 1 ≤ p → p ≤ 4095 → 8000 ≤ rate → rate ≤ 192000 →
    cursorStep p rate = 3546895 * 65536 / (p * rate) ∧ 295 ≤ cursorStep p rate ∧ cursorStep p rate ≤ 29056163)
  ∧ cursorStep 856 44100 = 6157 ∧ cursorStep 428 44100 = 12315 ∧ cursorStep 214 44100 = 24630
  ∧ cursorStep 113 44100 = 46645 ∧ cursorStep 428 48000 = 11314 ∧ cursorStep 428 8000 = 67888

/-! ## The mixer -/

/-- Scaling by volume and gain: the formula, its range and its examples (44_mixer.md R287). -/
def Obligations.ScalingRange : Prop :=
  (∀ (v : Int) (outVol : BitVec 7) (gain : BitVec 8), -128 ≤ v → v ≤ 127 → outVol.toNat ≤ 64 →
    scaleValue v outVol gain = v * outVol.toNat * gain.toNat / 2 ^ 6
    ∧ -32640 ≤ scaleValue v outVol gain ∧ scaleValue v outVol gain ≤ 32385)
  ∧ (∀ v : Int, scaleValue v 64#7 128#8 = 128 * v)
  ∧ scaleValue 100 32#7 128#8 = 6400 ∧ scaleValue (-1) 1#7 1#8 = -1

/-- Interpolation stays between its two frames (44_mixer.md R284), and the end check keeps the cursor of a looping sample
inside the loop, keeps the overshoot, and silences a sample that does not loop (44_mixer.md R286). -/
def Obligations.InterpolationAndEnd : Prop :=
  (∀ (v0 v1 : Int) (f : Nat), f < 65536 →
    min v0 v1 ≤ interpolate v0 v1 f ∧ interpolate v0 v1 f ≤ max v0 v1
    ∧ interpolate v0 v1 f = v0 + (v1 - v0) * f / 65536)
  ∧ (∀ (hd : SampleHdr) (h : Channel),
    (hd.loopEn = true → 1 ≤ hd.loopLen.toNat → hd.loopStart.toNat + hd.loopLen.toNat ≤ hd.len.toNat →
      (h.posInt.toNat < hd.loopStart.toNat + hd.loopLen.toNat → endCheck hd h = h)
      ∧ (hd.loopStart.toNat + hd.loopLen.toNat ≤ h.posInt.toNat → ∃ p : BitVec 18,
        p.toNat = hd.loopStart.toNat + (h.posInt.toNat - (hd.loopStart.toNat + hd.loopLen.toNat)) % hd.loopLen.toNat
        ∧ p.toNat < hd.loopStart.toNat + hd.loopLen.toNat
        ∧ endCheck hd h = { h with loopActive := true, posInt := p }))
    ∧ (hd.loopEn = false →
      (h.posInt.toNat < hd.len.toNat → endCheck hd h = h)
      ∧ (hd.len.toNat ≤ h.posInt.toNat → endCheck hd h = { h with active := false })))

/-- The frame is the clamped sum of the channels' parts, each taken from the state before the frame: the byte under the
cursor, or its interpolation with the next, scaled and panned. A sounding channel's cursor takes one step and is checked, and
no other channel changes; the mixer writes only the cursor, clears `active` and sets `loop_active` (44_mixer.md R280 to
R291). That a cursor which a sample offset has started past the loop's end sounds its one frame there, R291 over the last words
of R286, is the model's reading (log entry 28). -/
def Obligations.MixIsClampedSum : Prop :=
  ∀ (s t : State) (f : Frame), mix s = .ok (t, f) →
    f.left.toInt = min (max ((s.channelsFrom 0).map fun k => leftPart s k (mixedValue s k)).sum (-32768)) 32767
    ∧ f.right.toInt = min (max ((s.channelsFrom 0).map fun k => rightPart s k (mixedValue s k)).sum (-32768)) 32767
    ∧ t = { s with ch := t.ch } ∧ SameMemory s t
    ∧ ∀ k : Fin 8,
      let h := s.getCh k
      MixerWrites h (t.getCh k)
      ∧ (k.val < s.latch.chanCount.toNat → h.active = true → h.smp ≠ 0#5 → h.outPeriod ≠ 0#12 →
        t.getCh k = afterFrame (s.hdr h.smp.toNat) s.act.rate h)
      ∧ (h.active = false ∨ h.smp = 0#5 ∨ h.outPeriod = 0#12 ∨ s.latch.chanCount.toNat ≤ k.val → t.getCh k = h)

/-- A sample that does not loop, started at frame 0 and played at a constant period, is still active after `n` mixed frames
exactly while `n` steps have not reached its end: it sounds in `ceil(len · 65536 / STEP)` frames (what the
spec derives in R292 from 44_mixer.md R281, R285 and R286). That one mixed frame is `afterFrame` of the sounding channel is
MixIsClampedSum. -/
def Obligations.SampleSoundsExactly : Prop :=
  ∀ (hd : SampleHdr) (rate : BitVec 18) (h : Channel) (n : Nat), hd.loopEn = false → h.active = true → h.posInt = 0#18 →
    h.posFrac = 0#16 → h.outPeriod ≠ 0#12 → 8000 ≤ rate.toNat → rate.toNat ≤ 192000 → 1 ≤ hd.len.toNat →
    hd.len.toNat ≤ 131070 →
      ((afterFrame hd rate)^[n] h).active = decide (n * cursorStep h.outPeriod.toNat rate.toNat < hd.len.toNat * 65536)

/-! ## Queues and module memory -/

/-- The two queues are first-in first-out. SINK_POP and EV_POP deliver the oldest entry and remove it, in every state, and
change nothing else. A full event queue drops the new event, keeps the old ones and counts the drop, saturating; else the
event is appended (45_events.md R313, R314, R316). On an empty queue the spec has no such step; that the entry of the schedule
is then consumed and nothing more is the model's choice (log entry 8). The ports `sinkOut` and `evOut`, the schedule and the
draw counter are the model's own (log entries 9, 7 and 6). -/
def Obligations.QueuesFirstInFirstOut : Prop :=
  (∀ (s : State) (rest : List Input), s.phase = .idle →
    (s.inputs = .sinkPop :: rest →
      (s.ring = [] → step s = .next { s with inputs := rest, draws := s.draws + 1 })
      ∧ ∀ (f : Frame) (r : List Frame), s.ring = f :: r →
        step s = .next { s with inputs := rest, draws := s.draws + 1, ring := r, sinkOut := some f })
    ∧ (s.inputs = .evPop :: rest →
      (s.evq = [] → step s = .next { s with inputs := rest, draws := s.draws + 1 })
      ∧ ∀ (e : NoteEvent) (q : List NoteEvent), s.evq = e :: q →
        step s = .next { s with inputs := rest, draws := s.draws + 1, evq := q, evOut := some e }))
  ∧ ∀ (s : State) (e : NoteEvent),
    (s.evq.length < evqDepth → evPush s e = { s with evq := s.evq ++ [e] })
    ∧ (evqDepth ≤ s.evq.length → ∃ d : BitVec 32, d.toNat = min (s.cnt.evDrop.toNat + 1) (2 ^ 32 - 1)
      ∧ evPush s e = { s with cnt := { s.cnt with evDrop := d } })

/-- SINK_FAIL, in every state: error 5, the ring flushed, Stopped, no pause request, and nothing else (60_exceptions.md
R336); the schedule and the draw counter, which move in every step, are the model's own fields (log entries 6 and 7). -/
def Obligations.SinkFailure : Prop :=
  ∀ (s : State) (rest : List Input), s.phase = .idle → s.inputs = .sinkFail :: rest →
    step s = .next { s with inputs := rest, draws := s.draws + 1, error := .playbackError, ring := [], seqState := .stopped
                            pauseReq := false }

/-- A host write of module memory in Stopped or Finished changes that byte and no other; during a song it breaks the host's
duty, after which the block's reads are draws. A host read, in every state, changes nothing but what the host receives: the byte
that stands at the address, or the platform's where nothing has been written (20_memory.md R60, R72; 60_exceptions.md R347).
That a broken duty frees the reads of every address, as R72 says, and not of the written one alone, as 70_reset_and_hazards.md
R368 says, and how a draw is modelled, are log entry 6; the schedule, the port and an unwritten byte are the model's own (log
entries 7, 9 and 5). -/
def Obligations.HostMemoryWrite : Prop :=
  (∀ (s : State) (a : BitVec 32) (rest : List Input), s.phase = .idle → s.inputs = .memRead a :: rest →
    ∃ w : Word, step s = .next { s with inputs := rest, draws := s.draws + 1, readData := w }
      ∧ (∀ b : Byte, s.mem.get a.toNat = some b → w.toNat = b.toNat)
      ∧ (s.mem.get a.toNat = none → w.toNat = (Config.platformByte a.toNat).toNat))
  ∧ ∀ (s : State) (a : BitVec 32) (v : Byte) (rest : List Input), s.phase = .idle → s.inputs = .memWrite a v :: rest →
    ∃ t : State, step s = .next t
      ∧ t = { s with inputs := rest, draws := s.draws + 1, mem := t.mem, dutyBroken := t.dutyBroken }
      ∧ (∀ b : Nat, t.mem.get b = if b = a.toNat then some v else s.mem.get b)
      ∧ (s.dutyBroken = false → s.seqState = .stopped ∨ s.seqState = .finished →
        ∀ who b : Nat, byteAt t who b = if b = a.toNat then v else byteAt s who b)
      ∧ (s.seqState = .playing ∨ s.seqState = .paused →
        ∀ who b : Nat, byteAt t who b = Config.drawnByte t.draws who b)

/-! ## Invariants and whole-machine rules -/

/-- Reset satisfies what the machine keeps: nothing is asked of the latches that 70_reset_and_hazards.md R361 leaves
unspecified. That no step is half done and that no byte is listed are the model's own (log entries 10 and 5). -/
def Obligations.ResetSatisfiesInvariants : Prop :=
  SongInv State.reset ∧ Memory.wf State.reset.mem = true ∧ QueuesFit State.reset

/-- Every step from a state with no step half done ends in one, and keeps module memory in its canonical form and both
queues within their depths (20_memory.md R60, 10_state.md R37, 45_events.md R313, R315). -/
def Obligations.MemoryAndQueuesKept : Prop :=
  ∀ s t : State, s.phase = .idle → Memory.wf s.mem = true → QueuesFit s → step s = .next t →
    t.phase = .idle ∧ Memory.wf t.mem = true ∧ QueuesFit t

/-- Every step keeps the song's invariant, whatever the agents do: the position, the tick, the speed, the tempo, the
volumes and the configuration stay in their ranges, and while a song plays or is paused so do the order list, the sample
headers, the cursors and the clock (what the spec derives in R200 from 42_sequencer.md R194 to R196, 30_encoding.md R96 and
40_control.md R135). That it holds after a broken duty too, where 20_memory.md R72 guarantees no bound, is the model's choice
(log entry 26). -/
def Obligations.SongInvariantKept : Prop :=
  ∀ s t : State, SongInv s → step s = .next t → SongInv t

/-- From every state that meets the invariant a step answers a next state: runtime data never faults, and no step is
refused (what the spec derives in R201 and R68 from 42_sequencer.md R184 to R198 and 40_control.md R135). That it holds after a
broken duty too, where 20_memory.md R72 guarantees no bound, is the model's choice (log entry 26). -/
def Obligations.NeverStops : Prop :=
  ∀ s : State, SongInv s → ∃ t : State, step s = .next t

/-- The block's reads while a song plays stay inside the image: every cell of the current row, and every sounding channel's
frame, its interpolation neighbour and its loop start. Two memories that agree on every byte of the image give the block the
same cells and the same sample values, and every sounding channel has one (what the spec derives in R68 from 40_control.md R135
and 44_mixer.md R283 and R286). That the reads stay there after a broken duty too, where 20_memory.md R72 guarantees no bound, is
the model's choice (log entry 26). -/
def Obligations.ReadsStayInImage : Prop :=
  ∀ s : State, SongLoaded s →
    (∀ k : Fin 8, k.val < s.latch.chanCount.toNat →
      1084 + (((s.latch.orderTab[s.seq.order.toNat]'s.seq.order.isLt).toNat * 64 + s.seq.row.toNat) * s.latch.chanCount.toNat
        + k.val) * 4 + 3 < s.act.len.toNat)
    ∧ (∀ k : Fin 8, silentChannel (s.getCh k) = false →
      let h := s.getCh k
      let hd := s.hdr h.smp.toNat
      hd.base.toNat + h.posInt.toNat < s.act.len.toNat
      ∧ (h.posInt.toNat + 1 < regionEnd hd → hd.base.toNat + (h.posInt.toNat + 1) < s.act.len.toNat)
      ∧ (hd.loopEn = true → hd.base.toNat + hd.loopStart.toNat < s.act.len.toNat)
      ∧ sampleValue s k = .ok (mixedValue s k))
    ∧ ∀ m : Memory, (∀ who a : Nat, a < s.act.len.toNat → byteAt { s with mem := m } who a = byteAt s who a) →
      ∀ k : Fin 8, (k.val < s.latch.chanCount.toNat → fetchBytes { s with mem := m, chan := k } = fetchBytes { s with chan := k })
        ∧ (silentChannel (s.getCh k) = false → sampleValue { s with mem := m } k = sampleValue s k)

/-- Every change of the operating state that a step makes, a platform reset apart, is one of the table's, or the two of a
boundary that resumes a paused song and finishes it, which is the model's reading (40_control.md R131; log entry 22). -/
def Obligations.StateTransitions : Prop :=
  ∀ s t : State, s.phase = .idle → (∀ rest : List Input, s.inputs ≠ .reset :: rest) → step s = .next t →
    t.seqState ∈ stateMoves s.seqState

/-- The block never writes module memory: a platform reset apart, only the host's own write changes a byte (20_memory.md
R61). -/
def Obligations.BlockNeverWritesMemory : Prop :=
  ∀ s t : State, (∀ (a : BitVec 32) (v : Byte) (rest : List Input), s.inputs ≠ .memWrite a v :: rest) →
    (∀ rest : List Input, s.inputs ≠ .reset :: rest) → step s = .next t → t.mem = s.mem

/-- While a song plays or is paused, a step that is not a platform reset leaves the active configuration, the
configuration registers, the module latches and the channels from `C` on as they were (10_state.md R30, R40, R41; of the
channels, what the spec derives in R22 from R30, 42_sequencer.md R180 and R184 and 44_mixer.md R280). -/
def Obligations.SongConstantsHold : Prop :=
  ∀ s t : State, s.phase = .idle → s.seqState = .playing ∨ s.seqState = .paused →
    (∀ rest : List Input, s.inputs ≠ .reset :: rest) → step s = .next t →
      t.act = s.act ∧ t.cfg = s.cfg ∧ t.latch = s.latch
      ∧ ∀ k : Fin 8, s.latch.chanCount.toNat ≤ k.val → t.getCh k = s.getCh k

/-- The event queue never affects anything else: two states that differ at most in the event queue, its drop counter and
what EV_POP delivered answer a step alike, and differ at most in these after it, so that a slow or absent display consumer
changes no frame. A host read of EV_DROP or FIFO, which shows them, is apart (45_events.md R313, R314). -/
def Obligations.EventsNeverAffectAudio : Prop :=
  ∀ s1 s2 : State, SameButEvents s1 s2 →
    (∀ rest : List Input, s1.inputs ≠ .regRead 0x07#8 :: rest ∧ s1.inputs ≠ .regRead 0x08#8 :: rest) →
      (∀ t1 : State, step s1 = .next t1 → ∃ t2 : State, step s2 = .next t2 ∧ SameButEvents t1 t2)
      ∧ (∀ f : Fault, step s1 = .fault f → step s2 = .fault f)

end Claims
end

