-- ==== Sys2Proof/Laws/Bits.lean ====
section
/-! SUPPORT. The laws of the bit fields: nibbles, the cell word as a number, and the bytes of a word. -/

namespace Sys2Proof

theorem hiNibble_toNat (b : BitVec 8) : (hiNibble b).toNat = b.toNat / 16 := by
  have := b.isLt
  simp only [hiNibble, BitVec.extractLsb'_toNat, Nat.shiftRight_eq_div_pow]; omega

theorem loNibble_toNat (b : BitVec 8) : (loNibble b).toNat = b.toNat % 16 := by
  simp only [loNibble, BitVec.extractLsb'_toNat, Nat.shiftRight_eq_div_pow]; omega

theorem joinNibbles_toNat (x y : BitVec 4) : (joinNibbles x y).toNat = 16 * x.toNat + y.toNat := by
  have hx := x.isLt; have hy := y.isLt
  simp only [joinNibbles, BitVec.toNat_ofNat]; omega

@[simp] theorem hiNibble_joinNibbles (x y : BitVec 4) : hiNibble (joinNibbles x y) = x := by
  apply BitVec.eq_of_toNat_eq
  have hx := x.isLt; have hy := y.isLt
  rw [hiNibble_toNat, joinNibbles_toNat]; omega

@[simp] theorem loNibble_joinNibbles (x y : BitVec 4) : loNibble (joinNibbles x y) = y := by
  apply BitVec.eq_of_toNat_eq
  have hx := x.isLt; have hy := y.isLt
  rw [loNibble_toNat, joinNibbles_toNat]; omega

@[simp] theorem joinNibbles_nibbles (b : BitVec 8) : joinNibbles (hiNibble b) (loNibble b) = b := by
  apply BitVec.eq_of_toNat_eq
  rw [joinNibbles_toNat, hiNibble_toNat, loNibble_toNat]; omega

theorem joinNibbles_eq_zero (x y : BitVec 4) : joinNibbles x y = 0x00#8 ↔ x = 0#4 ∧ y = 0#4 := by
  constructor
  · intro h
    have hx : hiNibble (joinNibbles x y) = hiNibble 0x00#8 := by rw [h]
    have hy : loNibble (joinNibbles x y) = loNibble 0x00#8 := by rw [h]
    rw [hiNibble_joinNibbles] at hx; rw [loNibble_joinNibbles] at hy
    exact ⟨hx.trans (by decide), hy.trans (by decide)⟩
  · rintro ⟨rfl, rfl⟩; decide

/-- The cell word as a number (30_encoding.md R99). -/
theorem cellWord_toNat (c : Cell) : (cellWord c).toNat =
    c.smp.toNat / 16 * 2 ^ 28 + c.period.toNat * 2 ^ 16 + c.smp.toNat % 16 * 2 ^ 12 + c.cmd.toNat * 2 ^ 8 + c.param.toNat := by
  have h1 := c.smp.isLt; have h2 := c.period.isLt; have h3 := c.cmd.isLt; have h4 := c.param.isLt
  simp only [cellWord, BitVec.toNat_ofNat, hiNibble_toNat, loNibble_toNat]; omega

/-- The fields of a cell word are the fields it was made of. -/
@[simp] theorem wordCell_cellWord (c : Cell) : wordCell (cellWord c) = c := by
  have h1 := c.smp.isLt; have h2 := c.period.isLt; have h3 := c.cmd.isLt; have h4 := c.param.isLt
  have hw := cellWord_toNat c
  have e1 : (cellWord c).extractLsb' 16 12 = c.period := by
    apply BitVec.eq_of_toNat_eq
    rw [BitVec.extractLsb'_toNat, Nat.shiftRight_eq_div_pow, hw]; omega
  have e2 : joinNibbles ((cellWord c).extractLsb' 28 4) ((cellWord c).extractLsb' 12 4) = c.smp := by
    apply BitVec.eq_of_toNat_eq
    rw [joinNibbles_toNat, BitVec.extractLsb'_toNat, BitVec.extractLsb'_toNat, Nat.shiftRight_eq_div_pow,
      Nat.shiftRight_eq_div_pow, hw]; omega
  have e3 : (cellWord c).extractLsb' 8 4 = c.cmd := by
    apply BitVec.eq_of_toNat_eq
    rw [BitVec.extractLsb'_toNat, Nat.shiftRight_eq_div_pow, hw]; omega
  have e4 : (cellWord c).extractLsb' 0 8 = c.param := by
    apply BitVec.eq_of_toNat_eq
    rw [BitVec.extractLsb'_toNat, Nat.shiftRight_eq_div_pow, hw]; omega
  rw [wordCell, e1, e2, e3, e4]

/-- The word of the fields of a word is that word: the cell format has no other bits (30_encoding.md R99). -/
@[simp] theorem cellWord_wordCell (w : Word) : cellWord (wordCell w) = w := by
  have h := w.isLt
  apply BitVec.eq_of_toNat_eq
  rw [cellWord_toNat]
  simp only [wordCell, joinNibbles_toNat, BitVec.extractLsb'_toNat, Nat.shiftRight_eq_div_pow]; omega

/-- The big-endian word of the bytes of a word is that word (20_memory.md R62). -/
@[simp] theorem bytesWord_wordBytes (w : Word) :
    bytesWord (w.extractLsb' 24 8) (w.extractLsb' 16 8) (w.extractLsb' 8 8) (w.extractLsb' 0 8) = w := by
  have h := w.isLt
  apply BitVec.eq_of_toNat_eq
  simp only [bytesWord, BitVec.toNat_ofNat, BitVec.extractLsb'_toNat, Nat.shiftRight_eq_div_pow]; omega

/-- Decoding the bytes of a cell word decodes the word. -/
theorem decode_cell_wordBytes (w : Word) : decode .cell (wordBytes w) = .ok (decodeWord w, []) := by
  simp [decode, wordBytes]

/-- Decoding the bytes of a CTRL value decodes the value. -/
theorem decode_ctrl_wordBytes (w : Word) : decode .ctrl (wordBytes w) = .ok (decodeCtrl w, []) := by
  simp [decode, wordBytes]

/-- A choice between instructions of one space is of that space. -/
theorem ite_space {p : Prop} [Decidable p] {a b : Instr} {sp : Space} (ha : a.space = sp) (hb : b.space = sp) :
    (if p then a else b).space = sp := by
  split <;> assumption

/-- Every extended cell decodes to a cell instruction. -/
theorem extendedKind_space (p : BitVec 12) (s : BitVec 8) (x y : BitVec 4) : (extendedKind p s x y).space = .cell := by
  unfold extendedKind
  iterate 15 refine ite_space rfl ?_
  rfl

/-- Every cell decodes to a cell instruction. -/
theorem cellKind_space (c : Cell) : (cellKind c).space = .cell := by
  unfold cellKind
  refine ite_space (ite_space rfl rfl) ?_
  iterate 13 refine ite_space rfl ?_
  exact ite_space (extendedKind_space _ _ _ _) rfl

/-- Every CTRL value decodes to a host command. -/
theorem decodeCtrl_space (v : Word) : (decodeCtrl v).space = .ctrl := by
  unfold decodeCtrl
  iterate 7 refine ite_space rfl ?_
  rfl

/-! ## Every cell is well-formed -/

theorem extendedKind_wf (p : BitVec 12) (n : BitVec 8) (x y : BitVec 4) : (extendedKind p n x y).wf = true := by
  simp only [extendedKind, apply_ite Instr.wf]
  simp only [Instr.wf, ite_self]

/-- Every cell is a well-formed instruction: the one check is met where the parameter is not 0. -/
theorem cellKind_wf (c : Cell) : (cellKind c).wf = true := by
  have hz : ∀ b : BitVec 8, b ≠ 0#8 → (!(hiNibble b = 0#4 && loNibble b = 0#4)) = true := by decide
  simp only [cellKind, apply_ite Instr.wf, extendedKind_wf]
  simp only [Instr.wf, ite_self]
  split
  · split
    · rfl
    · rename_i h; exact hz _ h
  · rfl

end Sys2Proof
end

