-- ==== Sys2Proof/Laws/State.lean ====
section
/-! SUPPORT. One lemma per field per named update of State, true by rfl, and the laws of reading and writing a channel. -/

namespace Sys2Proof.Machine

variable (s : State)

@[simp] theorem setCh_seq (k : Fin 8) (c : Channel) : (s.setCh k c).seq = s.seq := rfl
@[simp] theorem setCh_latch (k : Fin 8) (c : Channel) : (s.setCh k c).latch = s.latch := rfl
@[simp] theorem setCh_seqState (k : Fin 8) (c : Channel) : (s.setCh k c).seqState = s.seqState := rfl
@[simp] theorem setCh_pauseReq (k : Fin 8) (c : Channel) : (s.setCh k c).pauseReq = s.pauseReq := rfl
@[simp] theorem setCh_error (k : Fin 8) (c : Channel) : (s.setCh k c).error = s.error := rfl
@[simp] theorem setCh_clk (k : Fin 8) (c : Channel) : (s.setCh k c).clk = s.clk := rfl
@[simp] theorem setCh_cnt (k : Fin 8) (c : Channel) : (s.setCh k c).cnt = s.cnt := rfl
@[simp] theorem setCh_ring (k : Fin 8) (c : Channel) : (s.setCh k c).ring = s.ring := rfl
@[simp] theorem setCh_evq (k : Fin 8) (c : Channel) : (s.setCh k c).evq = s.evq := rfl
@[simp] theorem setCh_cfg (k : Fin 8) (c : Channel) : (s.setCh k c).cfg = s.cfg := rfl
@[simp] theorem setCh_act (k : Fin 8) (c : Channel) : (s.setCh k c).act = s.act := rfl
@[simp] theorem setCh_mem (k : Fin 8) (c : Channel) : (s.setCh k c).mem = s.mem := rfl
@[simp] theorem setCh_dutyBroken (k : Fin 8) (c : Channel) : (s.setCh k c).dutyBroken = s.dutyBroken := rfl
@[simp] theorem setCh_draws (k : Fin 8) (c : Channel) : (s.setCh k c).draws = s.draws := rfl
@[simp] theorem setCh_inputs (k : Fin 8) (c : Channel) : (s.setCh k c).inputs = s.inputs := rfl
@[simp] theorem setCh_readData (k : Fin 8) (c : Channel) : (s.setCh k c).readData = s.readData := rfl
@[simp] theorem setCh_sinkOut (k : Fin 8) (c : Channel) : (s.setCh k c).sinkOut = s.sinkOut := rfl
@[simp] theorem setCh_evOut (k : Fin 8) (c : Channel) : (s.setCh k c).evOut = s.evOut := rfl
@[simp] theorem setCh_phase (k : Fin 8) (c : Channel) : (s.setCh k c).phase = s.phase := rfl
@[simp] theorem setCh_chan (k : Fin 8) (c : Channel) : (s.setCh k c).chan = s.chan := rfl

@[simp] theorem modCh_seq (k : Fin 8) (f : Channel → Channel) : (s.modCh k f).seq = s.seq := rfl
@[simp] theorem modCh_latch (k : Fin 8) (f : Channel → Channel) : (s.modCh k f).latch = s.latch := rfl
@[simp] theorem modCh_seqState (k : Fin 8) (f : Channel → Channel) : (s.modCh k f).seqState = s.seqState := rfl
@[simp] theorem modCh_pauseReq (k : Fin 8) (f : Channel → Channel) : (s.modCh k f).pauseReq = s.pauseReq := rfl
@[simp] theorem modCh_error (k : Fin 8) (f : Channel → Channel) : (s.modCh k f).error = s.error := rfl
@[simp] theorem modCh_clk (k : Fin 8) (f : Channel → Channel) : (s.modCh k f).clk = s.clk := rfl
@[simp] theorem modCh_cnt (k : Fin 8) (f : Channel → Channel) : (s.modCh k f).cnt = s.cnt := rfl
@[simp] theorem modCh_ring (k : Fin 8) (f : Channel → Channel) : (s.modCh k f).ring = s.ring := rfl
@[simp] theorem modCh_evq (k : Fin 8) (f : Channel → Channel) : (s.modCh k f).evq = s.evq := rfl
@[simp] theorem modCh_cfg (k : Fin 8) (f : Channel → Channel) : (s.modCh k f).cfg = s.cfg := rfl
@[simp] theorem modCh_act (k : Fin 8) (f : Channel → Channel) : (s.modCh k f).act = s.act := rfl
@[simp] theorem modCh_mem (k : Fin 8) (f : Channel → Channel) : (s.modCh k f).mem = s.mem := rfl
@[simp] theorem modCh_dutyBroken (k : Fin 8) (f : Channel → Channel) : (s.modCh k f).dutyBroken = s.dutyBroken := rfl
@[simp] theorem modCh_draws (k : Fin 8) (f : Channel → Channel) : (s.modCh k f).draws = s.draws := rfl
@[simp] theorem modCh_inputs (k : Fin 8) (f : Channel → Channel) : (s.modCh k f).inputs = s.inputs := rfl
@[simp] theorem modCh_readData (k : Fin 8) (f : Channel → Channel) : (s.modCh k f).readData = s.readData := rfl
@[simp] theorem modCh_sinkOut (k : Fin 8) (f : Channel → Channel) : (s.modCh k f).sinkOut = s.sinkOut := rfl
@[simp] theorem modCh_evOut (k : Fin 8) (f : Channel → Channel) : (s.modCh k f).evOut = s.evOut := rfl
@[simp] theorem modCh_phase (k : Fin 8) (f : Channel → Channel) : (s.modCh k f).phase = s.phase := rfl
@[simp] theorem modCh_chan (k : Fin 8) (f : Channel → Channel) : (s.modCh k f).chan = s.chan := rfl

@[simp] theorem restartAt_seq (k : Fin 8) (off : Nat) : (restartAt s k off).seq = s.seq := rfl
@[simp] theorem restartAt_latch (k : Fin 8) (off : Nat) : (restartAt s k off).latch = s.latch := rfl
@[simp] theorem restartAt_seqState (k : Fin 8) (off : Nat) : (restartAt s k off).seqState = s.seqState := rfl
@[simp] theorem restartAt_pauseReq (k : Fin 8) (off : Nat) : (restartAt s k off).pauseReq = s.pauseReq := rfl
@[simp] theorem restartAt_error (k : Fin 8) (off : Nat) : (restartAt s k off).error = s.error := rfl
@[simp] theorem restartAt_clk (k : Fin 8) (off : Nat) : (restartAt s k off).clk = s.clk := rfl
@[simp] theorem restartAt_cnt (k : Fin 8) (off : Nat) : (restartAt s k off).cnt = s.cnt := rfl
@[simp] theorem restartAt_ring (k : Fin 8) (off : Nat) : (restartAt s k off).ring = s.ring := rfl
@[simp] theorem restartAt_evq (k : Fin 8) (off : Nat) : (restartAt s k off).evq = s.evq := rfl
@[simp] theorem restartAt_cfg (k : Fin 8) (off : Nat) : (restartAt s k off).cfg = s.cfg := rfl
@[simp] theorem restartAt_act (k : Fin 8) (off : Nat) : (restartAt s k off).act = s.act := rfl
@[simp] theorem restartAt_mem (k : Fin 8) (off : Nat) : (restartAt s k off).mem = s.mem := rfl
@[simp] theorem restartAt_dutyBroken (k : Fin 8) (off : Nat) : (restartAt s k off).dutyBroken = s.dutyBroken := rfl
@[simp] theorem restartAt_draws (k : Fin 8) (off : Nat) : (restartAt s k off).draws = s.draws := rfl
@[simp] theorem restartAt_inputs (k : Fin 8) (off : Nat) : (restartAt s k off).inputs = s.inputs := rfl
@[simp] theorem restartAt_readData (k : Fin 8) (off : Nat) : (restartAt s k off).readData = s.readData := rfl
@[simp] theorem restartAt_sinkOut (k : Fin 8) (off : Nat) : (restartAt s k off).sinkOut = s.sinkOut := rfl
@[simp] theorem restartAt_evOut (k : Fin 8) (off : Nat) : (restartAt s k off).evOut = s.evOut := rfl
@[simp] theorem restartAt_phase (k : Fin 8) (off : Nat) : (restartAt s k off).phase = s.phase := rfl
@[simp] theorem restartAt_chan (k : Fin 8) (off : Nat) : (restartAt s k off).chan = s.chan := rfl

@[simp] theorem retrigger_seq (k : Fin 8) (c : Cell) : (retrigger s k c).seq = s.seq := rfl
@[simp] theorem retrigger_latch (k : Fin 8) (c : Cell) : (retrigger s k c).latch = s.latch := rfl
@[simp] theorem retrigger_seqState (k : Fin 8) (c : Cell) : (retrigger s k c).seqState = s.seqState := rfl
@[simp] theorem retrigger_pauseReq (k : Fin 8) (c : Cell) : (retrigger s k c).pauseReq = s.pauseReq := rfl
@[simp] theorem retrigger_error (k : Fin 8) (c : Cell) : (retrigger s k c).error = s.error := rfl
@[simp] theorem retrigger_clk (k : Fin 8) (c : Cell) : (retrigger s k c).clk = s.clk := rfl
@[simp] theorem retrigger_cnt (k : Fin 8) (c : Cell) : (retrigger s k c).cnt = s.cnt := rfl
@[simp] theorem retrigger_ring (k : Fin 8) (c : Cell) : (retrigger s k c).ring = s.ring := rfl
@[simp] theorem retrigger_evq (k : Fin 8) (c : Cell) : (retrigger s k c).evq = s.evq := rfl
@[simp] theorem retrigger_cfg (k : Fin 8) (c : Cell) : (retrigger s k c).cfg = s.cfg := rfl
@[simp] theorem retrigger_act (k : Fin 8) (c : Cell) : (retrigger s k c).act = s.act := rfl
@[simp] theorem retrigger_mem (k : Fin 8) (c : Cell) : (retrigger s k c).mem = s.mem := rfl
@[simp] theorem retrigger_dutyBroken (k : Fin 8) (c : Cell) : (retrigger s k c).dutyBroken = s.dutyBroken := rfl
@[simp] theorem retrigger_draws (k : Fin 8) (c : Cell) : (retrigger s k c).draws = s.draws := rfl
@[simp] theorem retrigger_inputs (k : Fin 8) (c : Cell) : (retrigger s k c).inputs = s.inputs := rfl
@[simp] theorem retrigger_readData (k : Fin 8) (c : Cell) : (retrigger s k c).readData = s.readData := rfl
@[simp] theorem retrigger_sinkOut (k : Fin 8) (c : Cell) : (retrigger s k c).sinkOut = s.sinkOut := rfl
@[simp] theorem retrigger_evOut (k : Fin 8) (c : Cell) : (retrigger s k c).evOut = s.evOut := rfl
@[simp] theorem retrigger_phase (k : Fin 8) (c : Cell) : (retrigger s k c).phase = s.phase := rfl
@[simp] theorem retrigger_chan (k : Fin 8) (c : Cell) : (retrigger s k c).chan = s.chan := rfl

@[simp] theorem bindSample_seq (k : Fin 8) (n : BitVec 8) : (bindSample s k n).seq = s.seq := rfl
@[simp] theorem bindSample_latch (k : Fin 8) (n : BitVec 8) : (bindSample s k n).latch = s.latch := rfl
@[simp] theorem bindSample_seqState (k : Fin 8) (n : BitVec 8) : (bindSample s k n).seqState = s.seqState := rfl
@[simp] theorem bindSample_pauseReq (k : Fin 8) (n : BitVec 8) : (bindSample s k n).pauseReq = s.pauseReq := rfl
@[simp] theorem bindSample_error (k : Fin 8) (n : BitVec 8) : (bindSample s k n).error = s.error := rfl
@[simp] theorem bindSample_clk (k : Fin 8) (n : BitVec 8) : (bindSample s k n).clk = s.clk := rfl
@[simp] theorem bindSample_cnt (k : Fin 8) (n : BitVec 8) : (bindSample s k n).cnt = s.cnt := rfl
@[simp] theorem bindSample_ring (k : Fin 8) (n : BitVec 8) : (bindSample s k n).ring = s.ring := rfl
@[simp] theorem bindSample_evq (k : Fin 8) (n : BitVec 8) : (bindSample s k n).evq = s.evq := rfl
@[simp] theorem bindSample_cfg (k : Fin 8) (n : BitVec 8) : (bindSample s k n).cfg = s.cfg := rfl
@[simp] theorem bindSample_act (k : Fin 8) (n : BitVec 8) : (bindSample s k n).act = s.act := rfl
@[simp] theorem bindSample_mem (k : Fin 8) (n : BitVec 8) : (bindSample s k n).mem = s.mem := rfl
@[simp] theorem bindSample_dutyBroken (k : Fin 8) (n : BitVec 8) : (bindSample s k n).dutyBroken = s.dutyBroken := rfl
@[simp] theorem bindSample_draws (k : Fin 8) (n : BitVec 8) : (bindSample s k n).draws = s.draws := rfl
@[simp] theorem bindSample_inputs (k : Fin 8) (n : BitVec 8) : (bindSample s k n).inputs = s.inputs := rfl
@[simp] theorem bindSample_readData (k : Fin 8) (n : BitVec 8) : (bindSample s k n).readData = s.readData := rfl
@[simp] theorem bindSample_sinkOut (k : Fin 8) (n : BitVec 8) : (bindSample s k n).sinkOut = s.sinkOut := rfl
@[simp] theorem bindSample_evOut (k : Fin 8) (n : BitVec 8) : (bindSample s k n).evOut = s.evOut := rfl
@[simp] theorem bindSample_phase (k : Fin 8) (n : BitVec 8) : (bindSample s k n).phase = s.phase := rfl
@[simp] theorem bindSample_chan (k : Fin 8) (n : BitVec 8) : (bindSample s k n).chan = s.chan := rfl

@[simp] theorem latchCell_seq (k : Fin 8) (c : Cell) : (latchCell s k c).seq = s.seq := rfl
@[simp] theorem latchCell_latch (k : Fin 8) (c : Cell) : (latchCell s k c).latch = s.latch := rfl
@[simp] theorem latchCell_seqState (k : Fin 8) (c : Cell) : (latchCell s k c).seqState = s.seqState := rfl
@[simp] theorem latchCell_pauseReq (k : Fin 8) (c : Cell) : (latchCell s k c).pauseReq = s.pauseReq := rfl
@[simp] theorem latchCell_error (k : Fin 8) (c : Cell) : (latchCell s k c).error = s.error := rfl
@[simp] theorem latchCell_clk (k : Fin 8) (c : Cell) : (latchCell s k c).clk = s.clk := rfl
@[simp] theorem latchCell_cnt (k : Fin 8) (c : Cell) : (latchCell s k c).cnt = s.cnt := rfl
@[simp] theorem latchCell_ring (k : Fin 8) (c : Cell) : (latchCell s k c).ring = s.ring := rfl
@[simp] theorem latchCell_evq (k : Fin 8) (c : Cell) : (latchCell s k c).evq = s.evq := rfl
@[simp] theorem latchCell_cfg (k : Fin 8) (c : Cell) : (latchCell s k c).cfg = s.cfg := rfl
@[simp] theorem latchCell_act (k : Fin 8) (c : Cell) : (latchCell s k c).act = s.act := rfl
@[simp] theorem latchCell_mem (k : Fin 8) (c : Cell) : (latchCell s k c).mem = s.mem := rfl
@[simp] theorem latchCell_dutyBroken (k : Fin 8) (c : Cell) : (latchCell s k c).dutyBroken = s.dutyBroken := rfl
@[simp] theorem latchCell_draws (k : Fin 8) (c : Cell) : (latchCell s k c).draws = s.draws := rfl
@[simp] theorem latchCell_inputs (k : Fin 8) (c : Cell) : (latchCell s k c).inputs = s.inputs := rfl
@[simp] theorem latchCell_readData (k : Fin 8) (c : Cell) : (latchCell s k c).readData = s.readData := rfl
@[simp] theorem latchCell_sinkOut (k : Fin 8) (c : Cell) : (latchCell s k c).sinkOut = s.sinkOut := rfl
@[simp] theorem latchCell_evOut (k : Fin 8) (c : Cell) : (latchCell s k c).evOut = s.evOut := rfl
@[simp] theorem latchCell_phase (k : Fin 8) (c : Cell) : (latchCell s k c).phase = s.phase := rfl
@[simp] theorem latchCell_chan (k : Fin 8) (c : Cell) : (latchCell s k c).chan = s.chan := rfl

@[simp] theorem ringPush_ch (f : Frame) : (ringPush s f).ch = s.ch := rfl
@[simp] theorem ringPush_seq (f : Frame) : (ringPush s f).seq = s.seq := rfl
@[simp] theorem ringPush_latch (f : Frame) : (ringPush s f).latch = s.latch := rfl
@[simp] theorem ringPush_seqState (f : Frame) : (ringPush s f).seqState = s.seqState := rfl
@[simp] theorem ringPush_pauseReq (f : Frame) : (ringPush s f).pauseReq = s.pauseReq := rfl
@[simp] theorem ringPush_error (f : Frame) : (ringPush s f).error = s.error := rfl
@[simp] theorem ringPush_clk (f : Frame) : (ringPush s f).clk = s.clk := rfl
@[simp] theorem ringPush_cnt (f : Frame) : (ringPush s f).cnt = s.cnt := rfl
@[simp] theorem ringPush_evq (f : Frame) : (ringPush s f).evq = s.evq := rfl
@[simp] theorem ringPush_cfg (f : Frame) : (ringPush s f).cfg = s.cfg := rfl
@[simp] theorem ringPush_act (f : Frame) : (ringPush s f).act = s.act := rfl
@[simp] theorem ringPush_mem (f : Frame) : (ringPush s f).mem = s.mem := rfl
@[simp] theorem ringPush_dutyBroken (f : Frame) : (ringPush s f).dutyBroken = s.dutyBroken := rfl
@[simp] theorem ringPush_draws (f : Frame) : (ringPush s f).draws = s.draws := rfl
@[simp] theorem ringPush_inputs (f : Frame) : (ringPush s f).inputs = s.inputs := rfl
@[simp] theorem ringPush_readData (f : Frame) : (ringPush s f).readData = s.readData := rfl
@[simp] theorem ringPush_sinkOut (f : Frame) : (ringPush s f).sinkOut = s.sinkOut := rfl
@[simp] theorem ringPush_evOut (f : Frame) : (ringPush s f).evOut = s.evOut := rfl
@[simp] theorem ringPush_phase (f : Frame) : (ringPush s f).phase = s.phase := rfl
@[simp] theorem ringPush_chan (f : Frame) : (ringPush s f).chan = s.chan := rfl

@[simp] theorem raiseLoadError_ch (e : ErrorCode) : (raiseLoadError s e).ch = s.ch := rfl
@[simp] theorem raiseLoadError_seq (e : ErrorCode) : (raiseLoadError s e).seq = s.seq := rfl
@[simp] theorem raiseLoadError_latch (e : ErrorCode) : (raiseLoadError s e).latch = s.latch := rfl
@[simp] theorem raiseLoadError_pauseReq (e : ErrorCode) : (raiseLoadError s e).pauseReq = s.pauseReq := rfl
@[simp] theorem raiseLoadError_clk (e : ErrorCode) : (raiseLoadError s e).clk = s.clk := rfl
@[simp] theorem raiseLoadError_cnt (e : ErrorCode) : (raiseLoadError s e).cnt = s.cnt := rfl
@[simp] theorem raiseLoadError_ring (e : ErrorCode) : (raiseLoadError s e).ring = s.ring := rfl
@[simp] theorem raiseLoadError_evq (e : ErrorCode) : (raiseLoadError s e).evq = s.evq := rfl
@[simp] theorem raiseLoadError_cfg (e : ErrorCode) : (raiseLoadError s e).cfg = s.cfg := rfl
@[simp] theorem raiseLoadError_act (e : ErrorCode) : (raiseLoadError s e).act = s.act := rfl
@[simp] theorem raiseLoadError_mem (e : ErrorCode) : (raiseLoadError s e).mem = s.mem := rfl
@[simp] theorem raiseLoadError_dutyBroken (e : ErrorCode) : (raiseLoadError s e).dutyBroken = s.dutyBroken := rfl
@[simp] theorem raiseLoadError_draws (e : ErrorCode) : (raiseLoadError s e).draws = s.draws := rfl
@[simp] theorem raiseLoadError_inputs (e : ErrorCode) : (raiseLoadError s e).inputs = s.inputs := rfl
@[simp] theorem raiseLoadError_readData (e : ErrorCode) : (raiseLoadError s e).readData = s.readData := rfl
@[simp] theorem raiseLoadError_sinkOut (e : ErrorCode) : (raiseLoadError s e).sinkOut = s.sinkOut := rfl
@[simp] theorem raiseLoadError_evOut (e : ErrorCode) : (raiseLoadError s e).evOut = s.evOut := rfl
@[simp] theorem raiseLoadError_phase (e : ErrorCode) : (raiseLoadError s e).phase = s.phase := rfl
@[simp] theorem raiseLoadError_chan (e : ErrorCode) : (raiseLoadError s e).chan = s.chan := rfl

@[simp] theorem sinkFail_ch : (sinkFail s).ch = s.ch := rfl
@[simp] theorem sinkFail_seq : (sinkFail s).seq = s.seq := rfl
@[simp] theorem sinkFail_latch : (sinkFail s).latch = s.latch := rfl
@[simp] theorem sinkFail_clk : (sinkFail s).clk = s.clk := rfl
@[simp] theorem sinkFail_cnt : (sinkFail s).cnt = s.cnt := rfl
@[simp] theorem sinkFail_evq : (sinkFail s).evq = s.evq := rfl
@[simp] theorem sinkFail_cfg : (sinkFail s).cfg = s.cfg := rfl
@[simp] theorem sinkFail_act : (sinkFail s).act = s.act := rfl
@[simp] theorem sinkFail_mem : (sinkFail s).mem = s.mem := rfl
@[simp] theorem sinkFail_dutyBroken : (sinkFail s).dutyBroken = s.dutyBroken := rfl
@[simp] theorem sinkFail_draws : (sinkFail s).draws = s.draws := rfl
@[simp] theorem sinkFail_inputs : (sinkFail s).inputs = s.inputs := rfl
@[simp] theorem sinkFail_readData : (sinkFail s).readData = s.readData := rfl
@[simp] theorem sinkFail_sinkOut : (sinkFail s).sinkOut = s.sinkOut := rfl
@[simp] theorem sinkFail_evOut : (sinkFail s).evOut = s.evOut := rfl
@[simp] theorem sinkFail_phase : (sinkFail s).phase = s.phase := rfl
@[simp] theorem sinkFail_chan : (sinkFail s).chan = s.chan := rfl

@[simp] theorem hostMemWrite_ch (a : BitVec 32) (v : Byte) : (hostMemWrite s a v).ch = s.ch := rfl
@[simp] theorem hostMemWrite_seq (a : BitVec 32) (v : Byte) : (hostMemWrite s a v).seq = s.seq := rfl
@[simp] theorem hostMemWrite_latch (a : BitVec 32) (v : Byte) : (hostMemWrite s a v).latch = s.latch := rfl
@[simp] theorem hostMemWrite_seqState (a : BitVec 32) (v : Byte) : (hostMemWrite s a v).seqState = s.seqState := rfl
@[simp] theorem hostMemWrite_pauseReq (a : BitVec 32) (v : Byte) : (hostMemWrite s a v).pauseReq = s.pauseReq := rfl
@[simp] theorem hostMemWrite_error (a : BitVec 32) (v : Byte) : (hostMemWrite s a v).error = s.error := rfl
@[simp] theorem hostMemWrite_clk (a : BitVec 32) (v : Byte) : (hostMemWrite s a v).clk = s.clk := rfl
@[simp] theorem hostMemWrite_cnt (a : BitVec 32) (v : Byte) : (hostMemWrite s a v).cnt = s.cnt := rfl
@[simp] theorem hostMemWrite_ring (a : BitVec 32) (v : Byte) : (hostMemWrite s a v).ring = s.ring := rfl
@[simp] theorem hostMemWrite_evq (a : BitVec 32) (v : Byte) : (hostMemWrite s a v).evq = s.evq := rfl
@[simp] theorem hostMemWrite_cfg (a : BitVec 32) (v : Byte) : (hostMemWrite s a v).cfg = s.cfg := rfl
@[simp] theorem hostMemWrite_act (a : BitVec 32) (v : Byte) : (hostMemWrite s a v).act = s.act := rfl
@[simp] theorem hostMemWrite_draws (a : BitVec 32) (v : Byte) : (hostMemWrite s a v).draws = s.draws := rfl
@[simp] theorem hostMemWrite_inputs (a : BitVec 32) (v : Byte) : (hostMemWrite s a v).inputs = s.inputs := rfl
@[simp] theorem hostMemWrite_readData (a : BitVec 32) (v : Byte) : (hostMemWrite s a v).readData = s.readData := rfl
@[simp] theorem hostMemWrite_sinkOut (a : BitVec 32) (v : Byte) : (hostMemWrite s a v).sinkOut = s.sinkOut := rfl
@[simp] theorem hostMemWrite_evOut (a : BitVec 32) (v : Byte) : (hostMemWrite s a v).evOut = s.evOut := rfl
@[simp] theorem hostMemWrite_phase (a : BitVec 32) (v : Byte) : (hostMemWrite s a v).phase = s.phase := rfl
@[simp] theorem hostMemWrite_chan (a : BitVec 32) (v : Byte) : (hostMemWrite s a v).chan = s.chan := rfl

@[simp] theorem hostMemRead_ch (a : BitVec 32) : (hostMemRead s a).ch = s.ch := rfl
@[simp] theorem hostMemRead_seq (a : BitVec 32) : (hostMemRead s a).seq = s.seq := rfl
@[simp] theorem hostMemRead_latch (a : BitVec 32) : (hostMemRead s a).latch = s.latch := rfl
@[simp] theorem hostMemRead_seqState (a : BitVec 32) : (hostMemRead s a).seqState = s.seqState := rfl
@[simp] theorem hostMemRead_pauseReq (a : BitVec 32) : (hostMemRead s a).pauseReq = s.pauseReq := rfl
@[simp] theorem hostMemRead_error (a : BitVec 32) : (hostMemRead s a).error = s.error := rfl
@[simp] theorem hostMemRead_clk (a : BitVec 32) : (hostMemRead s a).clk = s.clk := rfl
@[simp] theorem hostMemRead_cnt (a : BitVec 32) : (hostMemRead s a).cnt = s.cnt := rfl
@[simp] theorem hostMemRead_ring (a : BitVec 32) : (hostMemRead s a).ring = s.ring := rfl
@[simp] theorem hostMemRead_evq (a : BitVec 32) : (hostMemRead s a).evq = s.evq := rfl
@[simp] theorem hostMemRead_cfg (a : BitVec 32) : (hostMemRead s a).cfg = s.cfg := rfl
@[simp] theorem hostMemRead_act (a : BitVec 32) : (hostMemRead s a).act = s.act := rfl
@[simp] theorem hostMemRead_mem (a : BitVec 32) : (hostMemRead s a).mem = s.mem := rfl
@[simp] theorem hostMemRead_dutyBroken (a : BitVec 32) : (hostMemRead s a).dutyBroken = s.dutyBroken := rfl
@[simp] theorem hostMemRead_draws (a : BitVec 32) : (hostMemRead s a).draws = s.draws := rfl
@[simp] theorem hostMemRead_inputs (a : BitVec 32) : (hostMemRead s a).inputs = s.inputs := rfl
@[simp] theorem hostMemRead_sinkOut (a : BitVec 32) : (hostMemRead s a).sinkOut = s.sinkOut := rfl
@[simp] theorem hostMemRead_evOut (a : BitVec 32) : (hostMemRead s a).evOut = s.evOut := rfl
@[simp] theorem hostMemRead_phase (a : BitVec 32) : (hostMemRead s a).phase = s.phase := rfl
@[simp] theorem hostMemRead_chan (a : BitVec 32) : (hostMemRead s a).chan = s.chan := rfl

@[simp] theorem crossBoundary_ch : (crossBoundary s).ch = s.ch := rfl
@[simp] theorem crossBoundary_seq : (crossBoundary s).seq = s.seq := rfl
@[simp] theorem crossBoundary_latch : (crossBoundary s).latch = s.latch := rfl
@[simp] theorem crossBoundary_seqState : (crossBoundary s).seqState = s.seqState := rfl
@[simp] theorem crossBoundary_pauseReq : (crossBoundary s).pauseReq = s.pauseReq := rfl
@[simp] theorem crossBoundary_error : (crossBoundary s).error = s.error := rfl
@[simp] theorem crossBoundary_ring : (crossBoundary s).ring = s.ring := rfl
@[simp] theorem crossBoundary_evq : (crossBoundary s).evq = s.evq := rfl
@[simp] theorem crossBoundary_cfg : (crossBoundary s).cfg = s.cfg := rfl
@[simp] theorem crossBoundary_act : (crossBoundary s).act = s.act := rfl
@[simp] theorem crossBoundary_mem : (crossBoundary s).mem = s.mem := rfl
@[simp] theorem crossBoundary_dutyBroken : (crossBoundary s).dutyBroken = s.dutyBroken := rfl
@[simp] theorem crossBoundary_draws : (crossBoundary s).draws = s.draws := rfl
@[simp] theorem crossBoundary_inputs : (crossBoundary s).inputs = s.inputs := rfl
@[simp] theorem crossBoundary_readData : (crossBoundary s).readData = s.readData := rfl
@[simp] theorem crossBoundary_sinkOut : (crossBoundary s).sinkOut = s.sinkOut := rfl
@[simp] theorem crossBoundary_evOut : (crossBoundary s).evOut = s.evOut := rfl
@[simp] theorem crossBoundary_phase : (crossBoundary s).phase = s.phase := rfl
@[simp] theorem crossBoundary_chan : (crossBoundary s).chan = s.chan := rfl

@[simp] theorem pushFrame_ch (f : Frame) : (pushFrame s f).ch = s.ch := rfl
@[simp] theorem pushFrame_seq (f : Frame) : (pushFrame s f).seq = s.seq := rfl
@[simp] theorem pushFrame_latch (f : Frame) : (pushFrame s f).latch = s.latch := rfl
@[simp] theorem pushFrame_seqState (f : Frame) : (pushFrame s f).seqState = s.seqState := rfl
@[simp] theorem pushFrame_pauseReq (f : Frame) : (pushFrame s f).pauseReq = s.pauseReq := rfl
@[simp] theorem pushFrame_error (f : Frame) : (pushFrame s f).error = s.error := rfl
@[simp] theorem pushFrame_evq (f : Frame) : (pushFrame s f).evq = s.evq := rfl
@[simp] theorem pushFrame_cfg (f : Frame) : (pushFrame s f).cfg = s.cfg := rfl
@[simp] theorem pushFrame_act (f : Frame) : (pushFrame s f).act = s.act := rfl
@[simp] theorem pushFrame_mem (f : Frame) : (pushFrame s f).mem = s.mem := rfl
@[simp] theorem pushFrame_dutyBroken (f : Frame) : (pushFrame s f).dutyBroken = s.dutyBroken := rfl
@[simp] theorem pushFrame_draws (f : Frame) : (pushFrame s f).draws = s.draws := rfl
@[simp] theorem pushFrame_inputs (f : Frame) : (pushFrame s f).inputs = s.inputs := rfl
@[simp] theorem pushFrame_readData (f : Frame) : (pushFrame s f).readData = s.readData := rfl
@[simp] theorem pushFrame_sinkOut (f : Frame) : (pushFrame s f).sinkOut = s.sinkOut := rfl
@[simp] theorem pushFrame_evOut (f : Frame) : (pushFrame s f).evOut = s.evOut := rfl
@[simp] theorem pushFrame_chan (f : Frame) : (pushFrame s f).chan = s.chan := rfl

@[simp] theorem runTick_ch : (runTick s).ch = s.ch := rfl
@[simp] theorem runTick_seq : (runTick s).seq = s.seq := rfl
@[simp] theorem runTick_latch : (runTick s).latch = s.latch := rfl
@[simp] theorem runTick_seqState : (runTick s).seqState = s.seqState := rfl
@[simp] theorem runTick_pauseReq : (runTick s).pauseReq = s.pauseReq := rfl
@[simp] theorem runTick_error : (runTick s).error = s.error := rfl
@[simp] theorem runTick_clk : (runTick s).clk = s.clk := rfl
@[simp] theorem runTick_cnt : (runTick s).cnt = s.cnt := rfl
@[simp] theorem runTick_ring : (runTick s).ring = s.ring := rfl
@[simp] theorem runTick_evq : (runTick s).evq = s.evq := rfl
@[simp] theorem runTick_cfg : (runTick s).cfg = s.cfg := rfl
@[simp] theorem runTick_act : (runTick s).act = s.act := rfl
@[simp] theorem runTick_mem : (runTick s).mem = s.mem := rfl
@[simp] theorem runTick_dutyBroken : (runTick s).dutyBroken = s.dutyBroken := rfl
@[simp] theorem runTick_draws : (runTick s).draws = s.draws := rfl
@[simp] theorem runTick_inputs : (runTick s).inputs = s.inputs := rfl
@[simp] theorem runTick_readData : (runTick s).readData = s.readData := rfl
@[simp] theorem runTick_sinkOut : (runTick s).sinkOut = s.sinkOut := rfl
@[simp] theorem runTick_evOut : (runTick s).evOut = s.evOut := rfl

@[simp] theorem latchConfig_ch : (latchConfig s).ch = s.ch := rfl
@[simp] theorem latchConfig_seq : (latchConfig s).seq = s.seq := rfl
@[simp] theorem latchConfig_latch : (latchConfig s).latch = s.latch := rfl
@[simp] theorem latchConfig_seqState : (latchConfig s).seqState = s.seqState := rfl
@[simp] theorem latchConfig_pauseReq : (latchConfig s).pauseReq = s.pauseReq := rfl
@[simp] theorem latchConfig_error : (latchConfig s).error = s.error := rfl
@[simp] theorem latchConfig_clk : (latchConfig s).clk = s.clk := rfl
@[simp] theorem latchConfig_cnt : (latchConfig s).cnt = s.cnt := rfl
@[simp] theorem latchConfig_ring : (latchConfig s).ring = s.ring := rfl
@[simp] theorem latchConfig_evq : (latchConfig s).evq = s.evq := rfl
@[simp] theorem latchConfig_cfg : (latchConfig s).cfg = s.cfg := rfl
@[simp] theorem latchConfig_mem : (latchConfig s).mem = s.mem := rfl
@[simp] theorem latchConfig_dutyBroken : (latchConfig s).dutyBroken = s.dutyBroken := rfl
@[simp] theorem latchConfig_draws : (latchConfig s).draws = s.draws := rfl
@[simp] theorem latchConfig_inputs : (latchConfig s).inputs = s.inputs := rfl
@[simp] theorem latchConfig_readData : (latchConfig s).readData = s.readData := rfl
@[simp] theorem latchConfig_sinkOut : (latchConfig s).sinkOut = s.sinkOut := rfl
@[simp] theorem latchConfig_evOut : (latchConfig s).evOut = s.evOut := rfl
@[simp] theorem latchConfig_phase : (latchConfig s).phase = s.phase := rfl
@[simp] theorem latchConfig_chan : (latchConfig s).chan = s.chan := rfl

@[simp] theorem resetSong_latch : (resetSong s).latch = s.latch := rfl
@[simp] theorem resetSong_seqState : (resetSong s).seqState = s.seqState := rfl
@[simp] theorem resetSong_ring : (resetSong s).ring = s.ring := rfl
@[simp] theorem resetSong_cfg : (resetSong s).cfg = s.cfg := rfl
@[simp] theorem resetSong_act : (resetSong s).act = s.act := rfl
@[simp] theorem resetSong_mem : (resetSong s).mem = s.mem := rfl
@[simp] theorem resetSong_dutyBroken : (resetSong s).dutyBroken = s.dutyBroken := rfl
@[simp] theorem resetSong_draws : (resetSong s).draws = s.draws := rfl
@[simp] theorem resetSong_inputs : (resetSong s).inputs = s.inputs := rfl
@[simp] theorem resetSong_readData : (resetSong s).readData = s.readData := rfl
@[simp] theorem resetSong_sinkOut : (resetSong s).sinkOut = s.sinkOut := rfl
@[simp] theorem resetSong_evOut : (resetSong s).evOut = s.evOut := rfl
@[simp] theorem resetSong_phase : (resetSong s).phase = s.phase := rfl
@[simp] theorem resetSong_chan : (resetSong s).chan = s.chan := rfl

@[simp] theorem beginSong_ring (l : Latches) : (beginSong s l).ring = s.ring := rfl
@[simp] theorem beginSong_cfg (l : Latches) : (beginSong s l).cfg = s.cfg := rfl
@[simp] theorem beginSong_act (l : Latches) : (beginSong s l).act = s.act := rfl
@[simp] theorem beginSong_mem (l : Latches) : (beginSong s l).mem = s.mem := rfl
@[simp] theorem beginSong_dutyBroken (l : Latches) : (beginSong s l).dutyBroken = s.dutyBroken := rfl
@[simp] theorem beginSong_draws (l : Latches) : (beginSong s l).draws = s.draws := rfl
@[simp] theorem beginSong_inputs (l : Latches) : (beginSong s l).inputs = s.inputs := rfl
@[simp] theorem beginSong_readData (l : Latches) : (beginSong s l).readData = s.readData := rfl
@[simp] theorem beginSong_sinkOut (l : Latches) : (beginSong s l).sinkOut = s.sinkOut := rfl
@[simp] theorem beginSong_evOut (l : Latches) : (beginSong s l).evOut = s.evOut := rfl

@[simp] theorem setCh_getCh_same (k : Fin 8) (c : Channel) : (s.setCh k c).getCh k = c := by
  simp [State.setCh, State.getCh]

theorem setCh_getCh_ne (j k : Fin 8) (c : Channel) (h : j ≠ k) : (s.setCh k c).getCh j = s.getCh j := by
  have hv : k.val ≠ j.val := fun e => h (Fin.ext e.symm)
  simp [State.setCh, State.getCh, hv]

@[simp] theorem modCh_getCh_same (k : Fin 8) (f : Channel → Channel) : (s.modCh k f).getCh k = f (s.getCh k) := by
  simp [State.modCh]

theorem modCh_getCh_ne (j k : Fin 8) (f : Channel → Channel) (h : j ≠ k) : (s.modCh k f).getCh j = s.getCh j := by
  simp [State.modCh, setCh_getCh_ne _ _ _ _ h]

@[simp] theorem setCh_getCh_self (k : Fin 8) : s.setCh k (s.getCh k) = s := by
  simp [State.setCh, State.getCh]

@[simp] theorem setCh_setCh (k : Fin 8) (c d : Channel) : (s.setCh k c).setCh k d = s.setCh k d := by
  simp [State.setCh]

@[simp] theorem modCh_id (k : Fin 8) : (s.modCh k fun h => h) = s := by
  simp [State.modCh]

/-- A channel change is a change of one record of the register file and nothing else. -/
theorem modCh_eq (k : Fin 8) (f : Channel → Channel) : s.modCh k f = s.setCh k (f (s.getCh k)) := rfl

/-- Sample headers are read from the latches alone. -/
theorem hdr_congr (t : State) (h : t.latch = s.latch) (n : Nat) : t.hdr n = s.hdr n := by
  simp [State.hdr, h]

/-- The channels that take part are given by the latched count alone. -/
theorem channelsFrom_congr (t : State) (h : t.latch = s.latch) (k : Nat) : t.channelsFrom k = s.channelsFrom k := by
  simp [State.channelsFrom, h]

@[simp] theorem setCh_hdr (k : Fin 8) (c : Channel) (n : Nat) : (s.setCh k c).hdr n = s.hdr n := rfl

@[simp] theorem modCh_hdr (k : Fin 8) (f : Channel → Channel) (n : Nat) : (s.modCh k f).hdr n = s.hdr n := rfl

end Sys2Proof.Machine
end

