-- ==== Sys2Proof/Laws/Notes.lean ====
section
/-! SUPPORT. What the shared note operations do, said once: the note part as one record, the trigger phase of a cell, and
how a cell instruction runs at each kind of tick. -/

namespace Sys2Proof.Machine

variable (s : State)

/-- A state whose channel is written where nothing else differs is determined by the last channel written. -/
theorem setCh_modCh (k : Fin 8) (h : Channel) (f : Channel → Channel) : (s.setCh k h).modCh k f = s.setCh k (f h) := by
  simp [State.modCh]

/-- `modCh` as a write. -/
theorem modCh_setCh (k : Fin 8) (f : Channel → Channel) : s.modCh k f = s.setCh k (f (s.getCh k)) := rfl

/-- Whether a note is a no-op does not depend on the channels. -/
@[simp] theorem noopNote_setCh (k : Fin 8) (h : Channel) (c : Cell) : noopNote (s.setCh k h) c = noopNote s c := rfl

/-- Where a restart sounds does not depend on the channels. -/
@[simp] theorem startsInside_setCh (k : Fin 8) (h : Channel) (n : BitVec 5) (off : Nat) :
    startsInside (s.setCh k h) n off = startsInside s n off := rfl

/-- The latch, the revert and the note part of a trigger, as one record (42_sequencer.md R184 to R190). -/
theorem triggerNote_eq (c : Cell) : triggerNote (latchCell s s.chan c) s.chan c = s.setCh s.chan (noteResult s c) := by
  simp only [triggerNote, latchCell, note, noteSample, noteFinetune, notePeriod, bindSample, retrigger, restartAt,
    modCh_setCh, noteResult, setsPitch, setsTarget, noteFt, bindsSample, startOffset]
  by_cases hh : heldNote c = true
  · simp [hh]
  · by_cases hn : noopNote s c = true
    · simp [hh, hn]
    · by_cases h1 : c.smp = 0#8 <;> by_cases h2 : c.period = 0#12 <;>
        by_cases h3 : (c.cmd = 0xE#4 ∧ hiNibble c.param = 0x5#4) <;>
        by_cases h4 : c.cmd = 0x3#4 <;> by_cases h6 : c.cmd = 0x5#4 <;> by_cases h5 : (s.getCh s.chan).basePeriod = 0#12 <;>
        simp [hh, hn, h1, h2, h3, h4, h5, h6, startsInside]

/-- Pushing an event and writing a channel are independent. -/
theorem evPush_setCh (k : Fin 8) (c : Channel) (e : NoteEvent) : evPush (s.setCh k c) e = (evPush s e).setCh k c := by
  by_cases h : s.evq.length < evqDepth
  · rw [evPush, evPush, setCh_evq, if_pos h, if_pos h]; rfl
  · rw [evPush, evPush, setCh_evq, if_neg h, if_neg h]; rfl

/-- The event of a cell, with the channel's volume after its effect. -/
theorem emitIfNote_setCh (h : Channel) (c : Cell) : emitIfNote (s.setCh s.chan h) s.chan c =
    (if hasNotePart c && !noopNote s c then evPush s (cellEvent s c h.vol) else s).setCh s.chan h := by
  simp only [emitIfNote, emit, noteEvent, noopNote_setCh, setCh_getCh_same, setCh_cnt, evPush_setCh, cellEvent]
  split <;> rfl

/-- The trigger phase of a cell whose effect leaves the channel at `h` and changes nothing else. -/
theorem trigger_to (c : Cell) (t0 : TriggerEffect) (h : Channel) (tn : TickEffect) (ht : s.seq.tick = 0#5)
    (h0 : t0 (s.setCh s.chan (noteResult s c)) s.chan = s.setCh s.chan h) :
    runCell c t0 tn s = .next (cellResult s c h) := by
  simp only [runCell, if_pos ht, triggerCell, triggerNote_eq, h0, emitIfNote_setCh, cellResult, emitsEvent]
  by_cases hh : heldNote c = true <;> simp [hh]

/-- The trigger phase of a cell whose effect changes the channel alone. -/
theorem trigger_channel (c : Cell) (f : Channel → Channel) (tn : TickEffect) (ht : s.seq.tick = 0#5) :
    runCell c (fun s k => s.modCh k f) tn s = .next (cellResult s c (f (noteResult s c))) :=
  trigger_to s c _ _ tn ht (setCh_modCh s _ _ _)

/-- The trigger phase of a cell whose effect does nothing there. -/
theorem trigger_none (c : Cell) (tn : TickEffect) (ht : s.seq.tick = 0#5) :
    runCell c noT0 tn s = .next (cellResult s c (noteResult s c)) :=
  trigger_to s c _ _ tn ht rfl

/-- Writing the sequencer registers is independent of the event. -/
theorem emitIfNote_seq (k : Fin 8) (c : Cell) (q : SeqRegs) :
    emitIfNote { s with seq := q } k c = { emitIfNote s k c with seq := q } := by
  have hn : noopNote { s with seq := q } c = noopNote s c := rfl
  simp only [emitIfNote, hn, emit, evPush]
  split
  · split <;> rfl
  · rfl

/-- The trigger phase of a cell whose effect changes the channel and the sequencer registers. -/
theorem trigger_seq (c : Cell) (t0 : TriggerEffect) (h : Channel) (q : SeqRegs) (tn : TickEffect) (ht : s.seq.tick = 0#5)
    (h0 : t0 (s.setCh s.chan (noteResult s c)) s.chan = { s.setCh s.chan h with seq := q }) :
    runCell c t0 tn s = .next { cellResult s c h with seq := q } := by
  simp only [runCell, if_pos ht, triggerCell, triggerNote_eq, h0, emitIfNote_seq, emitIfNote_setCh, cellResult, emitsEvent]
  by_cases hh : heldNote c = true <;> simp [hh]

/-- A continuation tick runs the effect's TN. -/
theorem tick_run (c : Cell) (t0 : TriggerEffect) (tn : TickEffect) (ht : s.seq.tick ≠ 0#5) :
    runCell c t0 tn s = .next (tn s.seq.tick s s.chan) := by
  simp [runCell, ht]

/-- A cell's result reads memory as before. -/
theorem cellResult_sameMemory (c : Cell) (h : Channel) : SameMemory s (cellResult s c h) := by
  intro who a
  simp only [cellResult, evPush]
  split
  · split <;> rfl
  · rfl

/-- A cell's result with other sequencer registers reads memory as before. -/
theorem cellResult_seq_sameMemory (c : Cell) (h : Channel) (q : SeqRegs) : SameMemory s { cellResult s c h with seq := q } :=
  fun who a => cellResult_sameMemory s c h who a

/-- Writing a channel leaves memory as it reads. -/
theorem setCh_sameMemory (k : Fin 8) (h : Channel) : SameMemory s (s.setCh k h) := fun _ _ => rfl

end Sys2Proof.Machine
end

