-- ==== Sys2Proof/Laws/Dispatch.lean ====
section
/-! SUPPORT. Each cell instruction as one run of its cell with its two effects, so that no proof unfolds `exec`. -/

namespace Sys2Proof.Machine

variable (s : State)

theorem exec_arp (period : BitVec 12) (smp : BitVec 8) (x y : BitVec 4) : exec (.arp period smp x y) s =
    runCell ⟨period, smp, 0x0#4, joinNibbles x y⟩ noT0 (fun t s k => s.modCh k (arpeggio s.act.arp x y t)) s := rfl

theorem exec_pup (period : BitVec 12) (smp : BitVec 8) (xx : BitVec 8) : exec (.pup period smp xx) s =
    runCell ⟨period, smp, 0x1#4, xx⟩ noT0 (fun _ s k => s.modCh k fun h => slideUp h xx.toNat) s := rfl

theorem exec_pdn (period : BitVec 12) (smp : BitVec 8) (xx : BitVec 8) : exec (.pdn period smp xx) s =
    runCell ⟨period, smp, 0x2#4, xx⟩ noT0 (fun _ s k => s.modCh k fun h => slideDown h xx.toNat) s := rfl

theorem exec_tporta (period : BitVec 12) (smp : BitVec 8) (xx : BitVec 8) : exec (.tporta period smp xx) s =
    runCell ⟨period, smp, 0x3#4, xx⟩
      (fun s k => s.modCh k fun h => { h with portaRate := if xx ≠ 0#8 then xx else h.portaRate })
      (fun _ s k => s.modCh k tonePorta) s := rfl

theorem exec_vib (period : BitVec 12) (smp : BitVec 8) (x y : BitVec 4) : exec (.vib period smp x y) s =
    runCell ⟨period, smp, 0x4#4, joinNibbles x y⟩
      (fun s k => s.modCh k fun h =>
        { h with vibSpeed := if x ≠ 0#4 then x else h.vibSpeed, vibDepth := if y ≠ 0#4 then y else h.vibDepth })
      (fun _ s k => s.modCh k vibrato) s := rfl

theorem exec_tpvs (period : BitVec 12) (smp : BitVec 8) (x y : BitVec 4) : exec (.tpvs period smp x y) s =
    runCell ⟨period, smp, 0x5#4, joinNibbles x y⟩ noT0 (fun _ s k => s.modCh k fun h => volSlide x y (tonePorta h)) s := rfl

theorem exec_vibvs (period : BitVec 12) (smp : BitVec 8) (x y : BitVec 4) : exec (.vibvs period smp x y) s =
    runCell ⟨period, smp, 0x6#4, joinNibbles x y⟩ noT0 (fun _ s k => s.modCh k fun h => volSlide x y (vibrato h)) s := rfl

theorem exec_efpu (period : BitVec 12) (smp : BitVec 8) (y : BitVec 4) : exec (.efpu period smp y) s =
    runCell ⟨period, smp, 0xE#4, joinNibbles 0x1#4 y⟩ (fun s k => s.modCh k fun h => slideUp h y.toNat) noTN s := rfl

theorem exec_efpd (period : BitVec 12) (smp : BitVec 8) (y : BitVec 4) : exec (.efpd period smp y) s =
    runCell ⟨period, smp, 0xE#4, joinNibbles 0x2#4 y⟩ (fun s k => s.modCh k fun h => slideDown h y.toNat) noTN s := rfl

theorem exec_eglis (period : BitVec 12) (smp : BitVec 8) (y : BitVec 4) : exec (.eglis period smp y) s =
    runCell ⟨period, smp, 0xE#4, joinNibbles 0x3#4 y⟩ noT0 noTN s := rfl

theorem exec_evwav (period : BitVec 12) (smp : BitVec 8) (y : BitVec 4) : exec (.evwav period smp y) s =
    runCell ⟨period, smp, 0xE#4, joinNibbles 0x4#4 y⟩
      (fun s k => s.modCh k fun h => { h with vibWave := y.extractLsb' 0 2 }) noTN s := rfl

theorem exec_eftun (period : BitVec 12) (smp : BitVec 8) (y : BitVec 4) : exec (.eftun period smp y) s =
    runCell ⟨period, smp, 0xE#4, joinNibbles 0x5#4 y⟩ (fun s k => s.modCh k fun h => { h with ft := y }) noTN s := rfl

theorem exec_trem (period : BitVec 12) (smp : BitVec 8) (x y : BitVec 4) : exec (.trem period smp x y) s =
    runCell ⟨period, smp, 0x7#4, joinNibbles x y⟩
      (fun s k => s.modCh k fun h =>
        { h with tremSpeed := if x ≠ 0#4 then x else h.tremSpeed, tremDepth := if y ≠ 0#4 then y else h.tremDepth })
      (fun _ s k => s.modCh k tremolo) s := rfl

theorem exec_vsld (period : BitVec 12) (smp : BitVec 8) (x y : BitVec 4) : exec (.vsld period smp x y) s =
    runCell ⟨period, smp, 0xA#4, joinNibbles x y⟩ noT0 (fun _ s k => s.modCh k (volSlide x y)) s := rfl

theorem exec_vol (period : BitVec 12) (smp : BitVec 8) (xx : BitVec 8) : exec (.vol period smp xx) s =
    runCell ⟨period, smp, 0xC#4, xx⟩ (fun s k => s.modCh k fun h => setVolume h (volumeUp 0 xx.toNat)) noTN s := rfl

theorem exec_etwav (period : BitVec 12) (smp : BitVec 8) (y : BitVec 4) : exec (.etwav period smp y) s =
    runCell ⟨period, smp, 0xE#4, joinNibbles 0x7#4 y⟩
      (fun s k => s.modCh k fun h => { h with tremWave := y.extractLsb' 0 2 }) noTN s := rfl

theorem exec_efvu (period : BitVec 12) (smp : BitVec 8) (y : BitVec 4) : exec (.efvu period smp y) s =
    runCell ⟨period, smp, 0xE#4, joinNibbles 0xA#4 y⟩
      (fun s k => s.modCh k fun h => setVolume h (volumeUp h.vol.toNat y.toNat)) noTN s := rfl

theorem exec_efvd (period : BitVec 12) (smp : BitVec 8) (y : BitVec 4) : exec (.efvd period smp y) s =
    runCell ⟨period, smp, 0xE#4, joinNibbles 0xB#4 y⟩
      (fun s k => s.modCh k fun h => setVolume h (volumeDown h.vol.toNat y.toNat)) noTN s := rfl

theorem exec_ecut (period : BitVec 12) (smp : BitVec 8) (y : BitVec 4) : exec (.ecut period smp y) s =
    runCell ⟨period, smp, 0xE#4, joinNibbles 0xC#4 y⟩
      (fun s k => if y = 0#4 then s.modCh k fun h => setVolume h 0#7 else s)
      (fun t s k => if t.toNat = y.toNat then s.modCh k fun h => setVolume h 0#7 else s) s := rfl

theorem exec_noEffect (period : BitVec 12) (smp : BitVec 8) : exec (.noEffect period smp) s =
    runCell ⟨period, smp, 0x0#4, 0x00#8⟩ noT0 noTN s := rfl

theorem exec_pan (period : BitVec 12) (smp : BitVec 8) (xx : BitVec 8) : exec (.pan period smp xx) s =
    runCell ⟨period, smp, 0x8#4, xx⟩
      (fun s k => if s.act.pan then s.modCh k fun h => { h with panExplicit := true } else s) noTN s := rfl

theorem exec_offs (period : BitVec 12) (smp : BitVec 8) (xx : BitVec 8) : exec (.offs period smp xx) s =
    runCell ⟨period, smp, 0x9#4, xx⟩
      (fun s k => s.modCh k fun h => { h with offsetMem := if xx ≠ 0#8 then xx else h.offsetMem }) noTN s := rfl

theorem exec_efilt (period : BitVec 12) (smp : BitVec 8) (y : BitVec 4) : exec (.efilt period smp y) s =
    runCell ⟨period, smp, 0xE#4, joinNibbles 0x0#4 y⟩ noT0 noTN s := rfl

theorem exec_eun8 (period : BitVec 12) (smp : BitVec 8) (y : BitVec 4) : exec (.eun8 period smp y) s =
    runCell ⟨period, smp, 0xE#4, joinNibbles 0x8#4 y⟩ noT0 noTN s := rfl

theorem exec_ertrg (period : BitVec 12) (smp : BitVec 8) (y : BitVec 4) : exec (.ertrg period smp y) s =
    runCell ⟨period, smp, 0xE#4, joinNibbles 0x9#4 y⟩ noT0 (retriggerEvery y) s := rfl

theorem exec_edly (period : BitVec 12) (smp : BitVec 8) (y : BitVec 4) : exec (.edly period smp y) s =
    runCell ⟨period, smp, 0xE#4, joinNibbles 0xD#4 y⟩ noT0 (releaseNote y) s := rfl

theorem exec_einv (period : BitVec 12) (smp : BitVec 8) (y : BitVec 4) : exec (.einv period smp y) s =
    runCell ⟨period, smp, 0xE#4, joinNibbles 0xF#4 y⟩ noT0 noTN s := rfl

theorem exec_jump (period : BitVec 12) (smp : BitVec 8) (xx : BitVec 8) : exec (.jump period smp xx) s =
    runCell ⟨period, smp, 0xB#4, xx⟩
      (fun s _ => { s with seq := { s.seq with jumpPending := true, jumpTarget := xx } }) noTN s := rfl

theorem exec_brk (period : BitVec 12) (smp : BitVec 8) (x y : BitVec 4) : exec (.brk period smp x y) s =
    runCell ⟨period, smp, 0xD#4, joinNibbles x y⟩
      (fun s _ => { s with seq := { s.seq with breakPending := true, breakRow := breakTarget x y } }) noTN s := rfl

theorem exec_spd (period : BitVec 12) (smp : BitVec 8) (xx : BitVec 8) : exec (.spd period smp xx) s =
    runCell ⟨period, smp, 0xF#4, xx⟩ (fun s _ => setSpeedTempo xx s) noTN s := rfl

theorem exec_eloop (period : BitVec 12) (smp : BitVec 8) (y : BitVec 4) : exec (.eloop period smp y) s =
    runCell ⟨period, smp, 0xE#4, joinNibbles 0x6#4 y⟩ (patternLoop y) noTN s := rfl

theorem exec_epdly (period : BitVec 12) (smp : BitVec 8) (y : BitVec 4) : exec (.epdly period smp y) s =
    runCell ⟨period, smp, 0xE#4, joinNibbles 0xE#4 y⟩
      (fun s _ => if s.seq.delayActive then s else { s with seq := { s.seq with delayCount := y } }) noTN s := rfl

end Sys2Proof.Machine
end

