-- ==== Sys2Proof/Laws/Cells.lean ====
section
/-! SUPPORT. What one cell instruction can do, said once: the frame of a cell's step and the ranges it keeps. Every shared
operation of the cells is such a step, such steps compose, and every cell instruction is one. -/

namespace Sys2Proof.Machine

/-- Volumes in range, and a sounding cursor inside its sample (42_sequencer.md R200, 44_mixer.md R285). -/
def ChanFits (s : State) (h : Channel) : Prop :=
  h.vol.toNat ≤ 64 ∧ h.outVol.toNat ≤ 64 ∧
    (h.active = true → h.smp ≠ 0#5 → h.posInt.toNat < (s.hdr h.smp.toNat).len.toNat)

/-- `t` is what a cell on channel `k` may make of `s`. -/
structure CellStep (k : Fin 8) (s t : State) : Prop where
  /-- Nothing but the channel, the sequencer registers, the event queue and its drop counter changes. -/
  frame : t = { s.setCh k (t.getCh k) with seq := t.seq, evq := t.evq, cnt := { s.cnt with evDrop := t.cnt.evDrop } }
  /-- The song position and the speed in force stay. -/
  pos : t.seq.order = s.seq.order ∧ t.seq.row = s.seq.row ∧ t.seq.tick = s.seq.tick ∧ t.seq.speed = s.seq.speed
  /-- The tempo stays in range. -/
  tempo : 32 ≤ s.seq.tempo.toNat → 32 ≤ t.seq.tempo.toNat
  /-- The event queue stays within its depth. -/
  events : s.evq.length ≤ evqDepth → t.evq.length ≤ evqDepth
  /-- The channel stays in range, if the default volumes are. -/
  fits : (∀ n : Nat, (s.hdr n).vol.toNat ≤ 64) → ChanFits s (s.getCh k) → ChanFits s (t.getCh k)

theorem CellStep.latch {k : Fin 8} {s t : State} (h : CellStep k s t) : t.latch = s.latch := by rw [h.frame]; rfl

theorem CellStep.hdr {k : Fin 8} {s t : State} (h : CellStep k s t) (n : Nat) : t.hdr n = s.hdr n := hdr_congr s t h.latch n

theorem CellStep.chan {k : Fin 8} {s t : State} (h : CellStep k s t) : t.chan = s.chan := by rw [h.frame]; rfl

theorem CellStep.phase {k : Fin 8} {s t : State} (h : CellStep k s t) : t.phase = s.phase := by rw [h.frame]; rfl

theorem CellStep.seqState {k : Fin 8} {s t : State} (h : CellStep k s t) : t.seqState = s.seqState := by rw [h.frame]; rfl

theorem CellStep.act {k : Fin 8} {s t : State} (h : CellStep k s t) : t.act = s.act := by rw [h.frame]; rfl

theorem CellStep.cfg {k : Fin 8} {s t : State} (h : CellStep k s t) : t.cfg = s.cfg := by rw [h.frame]; rfl

theorem CellStep.clk {k : Fin 8} {s t : State} (h : CellStep k s t) : t.clk = s.clk := by rw [h.frame]; rfl

theorem CellStep.ring {k : Fin 8} {s t : State} (h : CellStep k s t) : t.ring = s.ring := by rw [h.frame]; rfl

theorem CellStep.mem {k : Fin 8} {s t : State} (h : CellStep k s t) : t.mem = s.mem := by rw [h.frame]; rfl

theorem CellStep.tickCount {k : Fin 8} {s t : State} (h : CellStep k s t) : t.cnt.tickCount = s.cnt.tickCount := by rw [h.frame]

theorem CellStep.frameCount {k : Fin 8} {s t : State} (h : CellStep k s t) : t.cnt.frameCount = s.cnt.frameCount := by rw [h.frame]

theorem CellStep.other {k : Fin 8} {s t : State} (h : CellStep k s t) (j : Fin 8) (hj : j ≠ k) : t.getCh j = s.getCh j := by
  have := congrArg (fun u : State => u.getCh j) h.frame
  simp only at this
  rw [this]
  exact setCh_getCh_ne s j k _ hj

/-- Doing nothing is a cell's step. -/
theorem CellStep.refl (k : Fin 8) (s : State) : CellStep k s s :=
  ⟨by simp, ⟨rfl, rfl, rfl, rfl⟩, id, id, fun _ h => h⟩

/-- Cell steps on one channel compose. -/
theorem CellStep.trans {k : Fin 8} {s t u : State} (h : CellStep k s t) (g : CellStep k t u) : CellStep k s u where
  frame := by
    have hs := h.frame
    have hg := g.frame
    generalize u.getCh k = hu at hg ⊢
    generalize t.getCh k = ht at hs
    generalize u.seq = us at hg ⊢
    generalize u.evq = ue at hg ⊢
    generalize u.cnt.evDrop = ud at hg ⊢
    generalize t.seq = ts at hs
    generalize t.evq = te at hs
    generalize t.cnt.evDrop = td at hs
    subst hs
    rw [hg]
    simp [State.setCh]
  pos := ⟨g.pos.1.trans h.pos.1, g.pos.2.1.trans h.pos.2.1, g.pos.2.2.1.trans h.pos.2.2.1, g.pos.2.2.2.trans h.pos.2.2.2⟩
  tempo a := g.tempo (h.tempo a)
  events a := g.events (h.events a)
  fits hv a := by
    have b := g.fits (fun n => by rw [h.hdr]; exact hv n) (by
      have := h.fits hv a
      simpa only [ChanFits, h.hdr] using this)
    simpa only [ChanFits, h.hdr] using b

/-- Changing the channel in a way that keeps it in range is a cell's step. -/
theorem CellStep.modCh (k : Fin 8) (s : State) (f : Channel → Channel)
    (hf : (∀ n : Nat, (s.hdr n).vol.toNat ≤ 64) → ∀ h, ChanFits s h → ChanFits s (f h)) : CellStep k s (s.modCh k f) where
  frame := by simp [State.modCh, State.setCh, State.getCh]
  pos := ⟨rfl, rfl, rfl, rfl⟩
  tempo := id
  events := id
  fits hv a := by simpa [State.modCh] using hf hv _ a

/-- Pushing an event is a cell's step. -/
theorem evPush_cellStep (k : Fin 8) (s : State) (e : NoteEvent) : CellStep k s (evPush s e) := by
  by_cases h : s.evq.length < evqDepth
  · rw [evPush, if_pos h]
    exact ⟨by simp [State.setCh, State.getCh], ⟨rfl, rfl, rfl, rfl⟩, id, fun _ => by simp; omega, fun _ a => a⟩
  · rw [evPush, if_neg h]
    exact ⟨by simp [State.setCh, State.getCh], ⟨rfl, rfl, rfl, rfl⟩, id, id, fun _ a => a⟩

/-- Writing the sequencer registers, with the song position and the speed as they were, is a cell's step. -/
theorem CellStep.seq (k : Fin 8) (s : State) (q : SeqRegs)
    (hp : q.order = s.seq.order ∧ q.row = s.seq.row ∧ q.tick = s.seq.tick ∧ q.speed = s.seq.speed)
    (ht : 32 ≤ s.seq.tempo.toNat → 32 ≤ q.tempo.toNat) : CellStep k s { s with seq := q } where
  frame := by simp [State.setCh, State.getCh]
  pos := hp
  tempo := ht
  events := id
  fits _ a := a

/-- A channel whose volumes, sample, cursor and flag are as they were is in range as it was. -/
theorem ChanFits.same {s : State} {h g : Channel} (a : ChanFits s h) (e1 : g.vol = h.vol) (e2 : g.outVol = h.outVol ∨ g.outVol = h.vol)
    (e3 : g.active = h.active) (e4 : g.smp = h.smp) (e5 : g.posInt = h.posInt) : ChanFits s g := by
  obtain ⟨a1, a2, a3⟩ := a
  refine ⟨by rw [e1]; exact a1, ?_, by rw [e3, e4, e5]; exact a3⟩
  rcases e2 with e | e <;> rw [e] <;> assumption

/-- Setting a volume in range keeps the channel in range. -/
theorem ChanFits.setVolume {s : State} {h : Channel} (a : ChanFits s h) (v : BitVec 7) (hv : v.toNat ≤ 64) :
    ChanFits s (setVolume h v) := ⟨hv, hv, a.2.2⟩

/-- A restart leaves a channel with volumes in range in range. -/
theorem restart_fits {s : State} {h : Channel} (a1 : h.vol.toNat ≤ 64) (a2 : h.outVol.toNat ≤ 64) (off : Nat) :
    ChanFits s { h with posInt := BitVec.ofNat 18 off, posFrac := 0, loopActive := false, active := startsInside s h.smp off } := by
  refine ⟨a1, a2, fun hact _ => ?_⟩
  simp only [startsInside, Bool.and_eq_true, decide_eq_true_eq] at hact
  have := (s.hdr h.smp.toNat).len.isLt
  simp only [BitVec.toNat_ofNat]
  omega

theorem volumeUp_toNat (v d : Nat) : (volumeUp v d).toNat = min (v + d) 64 := by simp [volumeUp]

theorem volumeDown_toNat (v : BitVec 7) (d : Nat) : (volumeDown v.toNat d).toNat = v.toNat - d := by
  have := v.isLt; simp [volumeDown]; omega

theorem clampVolume_le (v : Int) : (clampVolume v).toNat ≤ 64 := by simp [clampVolume]; omega

/-- The slides of the periods keep everything but the periods. -/
theorem slideUp_fits {s : State} {h : Channel} (a : ChanFits s h) (d : Nat) : ChanFits s (slideUp h d) := by
  simp only [slideUp, setPeriod]; split
  · exact a
  · exact a

theorem slideDown_fits {s : State} {h : Channel} (a : ChanFits s h) (d : Nat) : ChanFits s (slideDown h d) := by
  simp only [slideDown, setPeriod]; split
  · exact a
  · exact a

theorem tonePorta_fits {s : State} {h : Channel} (a : ChanFits s h) : ChanFits s (tonePorta h) := by
  simp only [tonePorta]; split
  · exact a
  · split
    · exact a
    · exact a

theorem vibrato_fits {s : State} {h : Channel} (a : ChanFits s h) : ChanFits s (vibrato h) := by
  simp only [vibrato]; split
  · exact a
  · exact a

theorem arpeggio_fits {s : State} {h : Channel} (a : ChanFits s h) (b : Bool) (x y : BitVec 4) (t : BitVec 5) :
    ChanFits s (arpeggio b x y t h) := by
  simp only [arpeggio]; split
  · exact a
  · exact a

theorem volSlide_fits {s : State} {h : Channel} (a : ChanFits s h) (x y : BitVec 4) : ChanFits s (volSlide x y h) := by
  have hv : (if x ≠ 0#4 then volumeUp h.vol.toNat x.toNat else volumeDown h.vol.toNat y.toNat).toNat ≤ 64 := by
    have := a.1
    split
    · rw [volumeUp_toNat]; omega
    · rw [volumeDown_toNat]; omega
  exact ⟨hv, hv, a.2.2⟩

theorem tremolo_fits {s : State} {h : Channel} (a : ChanFits s h) : ChanFits s (tremolo h) :=
  ⟨a.1, clampVolume_le _, a.2.2⟩

/-! ## The note part -/

theorem restartAt_cellStep (k : Fin 8) (s : State) (off : Nat) : CellStep k s (restartAt s k off) :=
  CellStep.modCh k s _ fun _ _ a => restart_fits a.1 a.2.1 off

theorem noteSample_cellStep (k : Fin 8) (s : State) (c : Cell) : CellStep k s (noteSample s k c) := by
  simp only [noteSample]
  split
  · have e : retrigger (bindSample s k c.smp) k c = s.modCh k fun h =>
        let g : Channel := { h with
          smp := c.smp.setWidth 5, ft := (s.hdr c.smp.toNat).ft, vol := (s.hdr c.smp.toNat).vol, outVol := (s.hdr c.smp.toNat).vol }
        let off := startOffset h c
        { g with posInt := BitVec.ofNat 18 off, posFrac := 0, loopActive := false, active := startsInside s g.smp off } := by
      simp [retrigger, restartAt, bindSample, State.modCh, startOffset]
    rw [e]
    exact CellStep.modCh k s _ fun hv h a => restart_fits (hv _) (hv _) _
  · exact .refl k s

theorem noteFinetune_cellStep (k : Fin 8) (s : State) (c : Cell) : CellStep k s (noteFinetune s k c) := by
  simp only [noteFinetune]
  split
  · exact CellStep.modCh k s _ fun _ h a => a
  · exact .refl k s

theorem notePeriod_cellStep (k : Fin 8) (s : State) (c : Cell) : CellStep k s (notePeriod s k c) := by
  simp only [notePeriod]
  split
  · exact .refl k s
  · split
    · exact CellStep.modCh k s _ fun _ h a => a
    · refine CellStep.trans (CellStep.modCh k s _ ?_) (restartAt_cellStep k _ _)
      exact fun _ h a => a

theorem note_cellStep (k : Fin 8) (s : State) (c : Cell) : CellStep k s (note s k c) := by
  simp only [note]
  split
  · exact .refl k s
  · exact ((noteSample_cellStep k s c).trans (noteFinetune_cellStep k _ c)).trans (notePeriod_cellStep k _ c)

theorem emitIfNote_cellStep (k : Fin 8) (s : State) (c : Cell) : CellStep k s (emitIfNote s k c) := by
  simp only [emitIfNote, emit]
  split
  · exact evPush_cellStep k s _
  · exact .refl k s

/-- The trigger phase of a cell is a cell's step, if its effect is. -/
theorem triggerCell_cellStep (c : Cell) (t0 : TriggerEffect) (k : Fin 8) (h0 : ∀ s, CellStep k s (t0 s k)) (s : State) :
    CellStep k s (triggerCell c t0 s k) := by
  have h1 : CellStep k s (latchCell s k c) := CellStep.modCh k s _ fun _ h a => ⟨a.1, a.1, a.2.2⟩
  have h2 : CellStep k (latchCell s k c) (triggerNote (latchCell s k c) k c) := by
    simp only [triggerNote]
    split
    · exact CellStep.modCh k _ _ fun _ h a => a
    · exact note_cellStep k _ c
  have h3 := (h1.trans h2).trans (h0 _)
  simp only [triggerCell]
  split
  · exact h3
  · exact h3.trans (emitIfNote_cellStep k _ c)

/-- A cell instruction whose two effects are cell steps completes with a cell's step. -/
theorem runCell_cellStep (c : Cell) (t0 : TriggerEffect) (tn : TickEffect) (s : State)
    (h0 : ∀ u, CellStep s.chan u (t0 u s.chan)) (h1 : CellStep s.chan s (tn s.seq.tick s s.chan)) :
    ∃ t, runCell c t0 tn s = .next t ∧ CellStep s.chan s t := by
  refine ⟨_, rfl, ?_⟩
  split
  · exact triggerCell_cellStep c t0 _ h0 s
  · exact h1

/-! ## The effects on the song -/

theorem patternLoop_cellStep (y : BitVec 4) (k : Fin 8) (s : State) : CellStep k s (patternLoop y s k) := by
  have hl : ∀ u : State, CellStep k u (scheduleLoop u k) := fun u => CellStep.seq k u _ ⟨rfl, rfl, rfl, rfl⟩ id
  simp only [patternLoop]
  split
  · exact .refl k s
  · split
    · exact CellStep.modCh k s _ fun _ h a => a
    · split
      · refine CellStep.trans (CellStep.modCh k s _ ?_) (hl _)
        exact fun _ h a => a
      · split
        · refine CellStep.trans (CellStep.modCh k s _ ?_) (hl _)
          exact fun _ h a => a
        · exact CellStep.modCh k s _ fun _ h a => a

theorem setSpeedTempo_cellStep (xx : BitVec 8) (k : Fin 8) (s : State) : CellStep k s (setSpeedTempo xx s) := by
  simp only [setSpeedTempo]
  split
  · exact .refl k s
  · split
    · exact CellStep.seq k s _ ⟨rfl, rfl, rfl, rfl⟩ id
    · exact CellStep.seq k s _ ⟨rfl, rfl, rfl, rfl⟩ fun _ => by simp only; omega

/-! ## Every cell instruction -/

/-- A cell instruction completes, and what it does is a cell's step on the current channel. -/
theorem exec_cellStep (i : Instr) (s : State) (h : i.space = .cell) : ∃ t, exec i s = .next t ∧ CellStep s.chan s t := by
  have hn : ∀ u : State, CellStep s.chan u u := CellStep.refl s.chan
  have hm : ∀ (u : State) (f : Channel → Channel), (∀ g, ChanFits u g → ChanFits u (f g)) → CellStep s.chan u (u.modCh s.chan f) :=
    fun u f hf => CellStep.modCh s.chan u f fun _ g a => hf g a
  have hv : ∀ (u : State) (g : Channel) (v : BitVec 7), v.toNat ≤ 64 → ChanFits u g → ChanFits u (setVolume g v) :=
    fun u g v a b => b.setVolume v a
  cases i
  case noEffect => exact runCell_cellStep _ _ _ s hn (hn s)
  case arp =>
    rw [exec_arp]
    refine runCell_cellStep _ _ _ s ?_ ?_
    · exact hn
    · exact hm _ _ fun _ a => arpeggio_fits a _ _ _ _
  case pup =>
    rw [exec_pup]
    refine runCell_cellStep _ _ _ s ?_ ?_
    · exact hn
    · exact hm _ _ fun _ a => slideUp_fits a _
  case pdn =>
    rw [exec_pdn]
    refine runCell_cellStep _ _ _ s ?_ ?_
    · exact hn
    · exact hm _ _ fun _ a => slideDown_fits a _
  case tporta =>
    rw [exec_tporta]
    refine runCell_cellStep _ _ _ s ?_ ?_
    · exact fun u => hm u _ fun _ a => a
    · exact hm _ _ fun _ a => tonePorta_fits a
  case vib =>
    rw [exec_vib]
    refine runCell_cellStep _ _ _ s ?_ ?_
    · exact fun u => hm u _ fun _ a => a
    · exact hm _ _ fun _ a => vibrato_fits a
  case tpvs =>
    rw [exec_tpvs]
    refine runCell_cellStep _ _ _ s ?_ ?_
    · exact hn
    · exact hm _ _ fun _ a => volSlide_fits (tonePorta_fits a) _ _
  case vibvs =>
    rw [exec_vibvs]
    refine runCell_cellStep _ _ _ s ?_ ?_
    · exact hn
    · exact hm _ _ fun _ a => volSlide_fits (vibrato_fits a) _ _
  case trem =>
    rw [exec_trem]
    refine runCell_cellStep _ _ _ s ?_ ?_
    · exact fun u => hm u _ fun _ a => a
    · exact hm _ _ fun _ a => tremolo_fits a
  case pan =>
    refine runCell_cellStep _ _ _ s (fun u => ?_) (hn s)
    split
    · exact hm u _ fun _ a => a
    · exact hn u
  case offs =>
    refine runCell_cellStep _ _ _ s ?_ ?_
    · exact fun u => hm u _ fun _ a => a
    · exact hn s
  case vsld =>
    rw [exec_vsld]
    refine runCell_cellStep _ _ _ s ?_ ?_
    · exact hn
    · exact hm _ _ fun _ a => volSlide_fits a _ _
  case jump =>
    refine runCell_cellStep _ _ _ s ?_ ?_
    · exact fun u => CellStep.seq _ u _ ⟨rfl, rfl, rfl, rfl⟩ id
    · exact hn s
  case vol =>
    refine runCell_cellStep _ _ _ s ?_ ?_
    · exact fun u => hm u _ fun g a => hv u g _ (by rw [volumeUp_toNat]; omega) a
    · exact hn s
  case brk =>
    refine runCell_cellStep _ _ _ s ?_ ?_
    · exact fun u => CellStep.seq _ u _ ⟨rfl, rfl, rfl, rfl⟩ id
    · exact hn s
  case spd =>
    refine runCell_cellStep _ _ _ s ?_ ?_
    · exact fun u => setSpeedTempo_cellStep _ _ u
    · exact hn s
  case efilt => exact runCell_cellStep _ _ _ s hn (hn s)
  case efpu =>
    refine runCell_cellStep _ _ _ s ?_ ?_
    · exact fun u => hm u _ fun _ a => slideUp_fits a _
    · exact hn s
  case efpd =>
    refine runCell_cellStep _ _ _ s ?_ ?_
    · exact fun u => hm u _ fun _ a => slideDown_fits a _
    · exact hn s
  case eglis => exact runCell_cellStep _ _ _ s hn (hn s)
  case evwav =>
    refine runCell_cellStep _ _ _ s ?_ ?_
    · exact fun u => hm u _ fun _ a => a
    · exact hn s
  case eftun =>
    refine runCell_cellStep _ _ _ s ?_ ?_
    · exact fun u => hm u _ fun _ a => a
    · exact hn s
  case eloop =>
    refine runCell_cellStep _ _ _ s ?_ ?_
    · exact fun u => patternLoop_cellStep _ _ u
    · exact hn s
  case etwav =>
    refine runCell_cellStep _ _ _ s ?_ ?_
    · exact fun u => hm u _ fun _ a => a
    · exact hn s
  case eun8 => exact runCell_cellStep _ _ _ s hn (hn s)
  case ertrg p n y =>
    refine runCell_cellStep _ _ _ s hn ?_
    simp only [retriggerEvery]
    split
    · exact restartAt_cellStep _ _ _
    · exact hn s
  case efvu =>
    refine runCell_cellStep _ _ _ s ?_ ?_
    · exact fun u => hm u _ fun g a => hv u g _ (by rw [volumeUp_toNat]; omega) a
    · exact hn s
  case efvd =>
    refine runCell_cellStep _ _ _ s (fun u => hm u _ fun g a => hv u g _ ?_ a) (hn s)
    have := a.1
    rw [volumeDown_toNat]; omega
  case ecut =>
    rw [exec_ecut]
    refine runCell_cellStep _ _ _ s (fun u => ?_) ?_
    · split
      · exact hm u _ fun g a => hv u g _ (by decide) a
      · exact hn u
    · split
      · exact hm s _ fun g a => hv s g _ (by decide) a
      · exact hn s
  case edly =>
    refine runCell_cellStep _ _ _ s hn ?_
    simp only [releaseNote]
    split
    · exact (note_cellStep _ s _).trans (emitIfNote_cellStep _ _ _)
    · exact hn s
  case epdly =>
    refine runCell_cellStep _ _ _ s (fun u => ?_) (hn s)
    split
    · exact hn u
    · exact CellStep.seq _ u _ ⟨rfl, rfl, rfl, rfl⟩ id
  case einv => exact runCell_cellStep _ _ _ s hn (hn s)
  all_goals exact absurd h (by simp [Instr.space])

end Sys2Proof.Machine
end

