-- ==== Sys2Proof/Laws/Run.lean ====
section
/-! SUPPORT. What running the cells of a tick can do: every fetched instruction is a cell instruction, and a property that
every cell instruction keeps is kept by the whole tick. -/

namespace Sys2Proof.Machine

/-- Four bytes of a cell decode to a cell instruction. -/
theorem decode_cell_bytes (b0 b1 b2 b3 : Byte) : decode .cell [b0, b1, b2, b3] = .ok (decodeWord (bytesWord b0 b1 b2 b3), []) := rfl

/-- The current bytes always decode, and nothing follows. -/
theorem decode_currentBytes (s : State) : ∃ w : Word, decode .cell (currentBytes s) = .ok (decodeWord w, []) ∧ currentInstr s = decodeWord w := by
  simp only [currentInstr, currentBytes]
  split
  · simp only [fetchBytes, decode_cell_bytes]; exact ⟨_, rfl, rfl⟩
  · simp only [decode_cell_wordBytes]; exact ⟨_, rfl, rfl⟩

/-- The current instruction is what the current bytes decode to. -/
theorem currentInstr_of_decode (s : State) (i : Instr) (h : decode .cell (currentBytes s) = .ok (i, [])) : currentInstr s = i := by
  simp only [currentInstr, h]

/-- The bytes of a latched effect: no note, the command and the parameter. -/
theorem wordBytes_latchedCell (h : Channel) :
    wordBytes (cellWord (latchedCell h)) = [0x00#8, 0x00#8, h.cmd.setWidth 8, h.param] := by
  have hw := cellWord_toNat (latchedCell h)
  have hc := h.cmd.isLt
  have hp := h.param.isLt
  simp only [latchedCell, BitVec.toNat_ofNat] at hw
  simp only [wordBytes, List.cons.injEq, and_true]
  refine ⟨?_, ?_, ?_, ?_⟩ <;> apply BitVec.eq_of_toNat_eq <;>
    simp only [latchedCell, BitVec.extractLsb'_toNat, hw, Nat.shiftRight_eq_div_pow, BitVec.toNat_setWidth,
      BitVec.toNat_ofNat] <;> omega

/-- The bytes of the current channel, written out. -/
theorem currentBytes_eq (s : State) : currentBytes s = cellBytes s s.chan := by
  simp only [currentBytes, fetchBytes, cellAddr, cellBytes, wordBytes_latchedCell]

/-- One channel of a tick runs the instruction that its bytes decode to. -/
theorem runCells_cons (k : Fin 8) (rest : List (Fin 8)) (s : State) (i : Instr) (h : decode .cell (cellBytes s k) = .ok (i, [])) :
    runCells (k :: rest) s = thenNext (exec i { s with chan := k }) (runCells rest) := by
  have hi := currentInstr_of_decode { s with chan := k } i (by rw [currentBytes_eq]; exact h)
  simp only [runCells, hi]

/-- The current instruction is a cell instruction. -/
theorem currentInstr_space (s : State) : (currentInstr s).space = .cell := by
  obtain ⟨w, _, h⟩ := decode_currentBytes s
  rw [h]; exact cellKind_space _

@[simp] theorem thenNext_next (s : State) (f : State → Answer) : thenNext (.next s) f = f s := rfl

@[simp] theorem thenNext_fault (r : Fault) (f : State → Answer) : thenNext (.fault r) f = .fault r := rfl

@[simp] theorem thenNext_refused (r : Refusal) (f : State → Answer) : thenNext (.refused r) f = .refused r := rfl

/-- A continued answer is a next state exactly where both parts are. -/
theorem thenNext_eq_next (a : Answer) (f : State → Answer) (t : State) :
    thenNext a f = .next t ↔ ∃ u, a = .next u ∧ f u = .next t := by
  cases a <;> simp [thenNext]

/-- A property that the choice of each channel and every cell instruction keep is kept by the cells of a tick, which
complete. -/
theorem runCells_keeps {P : State → Prop} (ks : List (Fin 8)) (hchan : ∀ s k, k ∈ ks → P s → P { s with chan := k })
    (hexec : ∀ i s, i.space = .cell → s.chan ∈ ks → P s → ∃ t, exec i s = .next t ∧ t.chan = s.chan ∧ P t) (s : State) (hs : P s) :
    ∃ t, runCells ks s = .next t ∧ P t := by
  have main : ∀ (l : List (Fin 8)), (∀ k ∈ l, k ∈ ks) → ∀ u, P u → ∃ t, runCells l u = .next t ∧ P t := by
    intro l
    induction l with
    | nil => intro _ u hu; exact ⟨u, rfl, hu⟩
    | cons k rest ih =>
      intro hl u hu
      obtain ⟨t, ht, -, hpt⟩ := hexec (currentInstr { u with chan := k }) { u with chan := k } (currentInstr_space _)
        (hl k (List.mem_cons_self ..)) (hchan u k (hl k (List.mem_cons_self ..)) hu)
      obtain ⟨v, hv, hpv⟩ := ih (fun j hj => hl j (List.mem_cons_of_mem _ hj)) t hpt
      exact ⟨v, by simp only [runCells, ht, thenNext_next, hv], hpv⟩
  exact main ks (fun _ h => h) s hs

/-- The channels of a tick, from `k` on: those that take part, in ascending order (10_state.md R22, R43). -/
theorem mem_channelsFrom (s : State) (k : Nat) (j : Fin 8) :
    j ∈ s.channelsFrom k ↔ k ≤ j.val ∧ j.val < s.latch.chanCount.toNat := by
  have hall : j ∈ ([0, 1, 2, 3, 4, 5, 6, 7] : List (Fin 8)) := by revert j; decide
  simp [State.channelsFrom, List.mem_filter, hall]

end Sys2Proof.Machine
end

