-- ==== Sys2Proof/Laws/Events.lean ====
section
/-! SUPPORT. No operation of the cells, the Sequencer and the mixer reads the event queue: on two states that differ at most
in it, each answers alike. -/

namespace Sys2Proof.Machine

/-- The state with another event queue, drop counter and delivered event. -/
def State.withEvents (s : State) (q : List NoteEvent) (o : Option NoteEvent) (d : BitVec 32) : State :=
  { s with evq := q, evOut := o, cnt := { s.cnt with evDrop := d } }

/-- The two states differ at most in the events exactly where one is the other with other events. -/
theorem sameButEvents_iff (s t : State) : SameButEvents s t ↔ ∃ q o d, t = s.withEvents q o d := by
  constructor
  · exact fun h => ⟨_, _, _, h⟩
  · rintro ⟨q, o, d, rfl⟩
    rfl

theorem SameButEvents.refl (s : State) : SameButEvents s s := rfl

/-- The operation answers alike on states that differ at most in the events. -/
def EventBlind (f : State → State) : Prop := ∀ s t, SameButEvents s t → SameButEvents (f s) (f t)

theorem EventBlind.of (f : State → State) (h : ∀ s q o d, SameButEvents (f s) (f (s.withEvents q o d))) : EventBlind f := by
  intro s t hs
  obtain ⟨q, o, d, rfl⟩ := (sameButEvents_iff s t).1 hs
  exact h s q o d

theorem EventBlind.id : EventBlind fun s => s := fun _ _ h => h

theorem EventBlind.comp {f g : State → State} (hf : EventBlind f) (hg : EventBlind g) : EventBlind fun s => g (f s) :=
  fun _ _ h => hg _ _ (hf _ _ h)

/-- A choice on what both states share. -/
theorem EventBlind.ite {f g : State → State} (p : State → Prop) [DecidablePred p]
    (hp : ∀ s q o d, p (s.withEvents q o d) ↔ p s) (hf : EventBlind f) (hg : EventBlind g) :
    EventBlind fun s => if p s then f s else g s := by
  intro s t h
  obtain ⟨q, o, d, rfl⟩ := (sameButEvents_iff s t).1 h
  simp only [hp]
  split
  · exact hf _ _ h
  · exact hg _ _ h

/-! ## The cells -/

theorem evPush_blind (e : NoteEvent) : EventBlind fun s => evPush s e := by
  refine EventBlind.of _ fun s q o d => ?_
  by_cases a : s.evq.length < evqDepth <;> by_cases b : (s.withEvents q o d).evq.length < evqDepth <;>
    simp only [evPush, if_pos, if_neg, a, b, not_false_eq_true] <;> rfl

theorem restartAt_blind (k : Fin 8) (off : Nat) : EventBlind fun s => restartAt s k off := .of _ fun _ _ _ _ => rfl

theorem modCh_blind (k : Fin 8) (f : Channel → Channel) : EventBlind fun s => s.modCh k f := .of _ fun _ _ _ _ => rfl

theorem retrigger_blind (k : Fin 8) (c : Cell) : EventBlind fun s => retrigger s k c := .of _ fun _ _ _ _ => rfl

theorem bindSample_blind (k : Fin 8) (n : BitVec 8) : EventBlind fun s => bindSample s k n := .of _ fun _ _ _ _ => rfl

theorem noteSample_blind (k : Fin 8) (c : Cell) : EventBlind fun s => noteSample s k c :=
  .ite (fun _ => c.smp ≠ 0#8) (fun _ _ _ _ => Iff.rfl) ((bindSample_blind k c.smp).comp (retrigger_blind k c)) .id

theorem noteFinetune_blind (k : Fin 8) (c : Cell) : EventBlind fun s => noteFinetune s k c :=
  .ite (fun _ => (c.cmd = 0xE#4 && hiNibble c.param = 0x5#4) = true) (fun _ _ _ _ => Iff.rfl) (modCh_blind k _) .id

theorem notePeriod_blind (k : Fin 8) (c : Cell) : EventBlind fun s => notePeriod s k c := by
  refine EventBlind.of _ fun s q o d => ?_
  have e : (s.withEvents q o d).getCh k = s.getCh k := rfl
  simp only [notePeriod, e]
  split
  · rfl
  · split
    · rfl
    · rfl

theorem note_blind (k : Fin 8) (c : Cell) : EventBlind fun s => note s k c :=
  .ite (fun s => noopNote s c = true) (fun _ _ _ _ => Iff.rfl) .id
    (((noteSample_blind k c).comp (noteFinetune_blind k c)).comp (notePeriod_blind k c))

theorem emitIfNote_blind (k : Fin 8) (c : Cell) : EventBlind fun s => emitIfNote s k c := by
  intro s t h
  have h' := evPush_blind (noteEvent s k c) s t h
  obtain ⟨q, o, d, rfl⟩ := (sameButEvents_iff s t).1 h
  have e1 : noopNote (s.withEvents q o d) c = noopNote s c := rfl
  have e2 : emit (s.withEvents q o d) k c = evPush (s.withEvents q o d) (noteEvent s k c) := rfl
  simp only [emitIfNote, e1, e2]
  split
  · exact h'
  · exact h

theorem triggerNote_blind (k : Fin 8) (c : Cell) : EventBlind fun s => triggerNote s k c :=
  .ite (fun _ => heldNote c = true) (fun _ _ _ _ => Iff.rfl) (modCh_blind k _) (note_blind k c)

theorem triggerCell_blind (c : Cell) (t0 : TriggerEffect) (k : Fin 8) (h0 : EventBlind fun s => t0 s k) :
    EventBlind fun s => triggerCell c t0 s k := by
  have h1 : EventBlind fun s => t0 (triggerNote (latchCell s k c) k c) k :=
    ((modCh_blind k _).comp (triggerNote_blind k c)).comp h0
  exact .ite (fun _ => heldNote c = true) (fun _ _ _ _ => Iff.rfl) h1 (h1.comp (emitIfNote_blind k c))

/-- An answer of a cell: a next state, alike on both states. -/
theorem runCell_blind (c : Cell) (t0 : TriggerEffect) (tn : TickEffect) (s t : State) (h : SameButEvents s t)
    (h0 : ∀ k, EventBlind fun s => t0 s k) (h1 : ∀ x k, EventBlind fun s => tn x s k) :
    ∃ u v, runCell c t0 tn s = .next u ∧ runCell c t0 tn t = .next v ∧ SameButEvents u v := by
  refine ⟨_, _, rfl, rfl, ?_⟩
  have a0 := triggerCell_blind c t0 s.chan (h0 s.chan) s t h
  have a1 := h1 s.seq.tick s.chan s t h
  obtain ⟨q, o, d, rfl⟩ := (sameButEvents_iff s t).1 h
  have e1 : (s.withEvents q o d).seq = s.seq := rfl
  have e2 : (s.withEvents q o d).chan = s.chan := rfl
  simp only [e1, e2]
  split
  · exact a0
  · exact a1

theorem patternLoop_blind (y : BitVec 4) (k : Fin 8) : EventBlind fun s => patternLoop y s k := by
  refine EventBlind.of _ fun s q o d => ?_
  have e1 : (s.withEvents q o d).getCh k = s.getCh k := rfl
  have e2 : (s.withEvents q o d).seq = s.seq := rfl
  simp only [patternLoop, e1, e2]
  split
  · rfl
  · split
    · rfl
    · split
      · rfl
      · have e3 : ∀ f, ((s.withEvents q o d).modCh k f).getCh k = (s.modCh k f).getCh k := fun _ => rfl
        simp only [e3]
        split
        · rfl
        · rfl

theorem setSpeedTempo_blind (xx : BitVec 8) : EventBlind (setSpeedTempo xx) := by
  refine EventBlind.of _ fun s q o d => ?_
  simp only [setSpeedTempo]
  split
  · rfl
  · split <;> rfl

/-- A cell instruction answers a next state, alike on states that differ at most in the events. -/
theorem exec_blind (i : Instr) (s t : State) (hi : i.space = .cell) (h : SameButEvents s t) :
    ∃ u v, exec i s = .next u ∧ exec i t = .next v ∧ SameButEvents u v := by
  have hn : ∀ k, EventBlind fun s => noT0 s k := fun _ => .id
  have hN : ∀ x k, EventBlind fun s => noTN x s k := fun _ _ => .id
  have hm : ∀ (f : Channel → Channel) (k : Fin 8), EventBlind fun s => s.modCh k f := fun f k => modCh_blind k f
  cases i
  case noEffect => exact runCell_blind _ _ _ s t h hn hN
  case arp =>
    rw [exec_arp, exec_arp]
    refine runCell_blind _ _ _ s t h hn fun x k => EventBlind.of _ fun u q o d => ?_
    rfl
  case pup => exact runCell_blind _ _ _ s t h hn fun _ => hm _
  case pdn => exact runCell_blind _ _ _ s t h hn fun _ => hm _
  case tporta => exact runCell_blind _ _ _ s t h (hm _) fun _ => hm _
  case vib => exact runCell_blind _ _ _ s t h (hm _) fun _ => hm _
  case tpvs => exact runCell_blind _ _ _ s t h hn fun _ => hm _
  case vibvs => exact runCell_blind _ _ _ s t h hn fun _ => hm _
  case trem => exact runCell_blind _ _ _ s t h (hm _) fun _ => hm _
  case pan =>
    exact runCell_blind _ _ _ s t h
      (fun k => .ite (fun s => s.act.pan = true) (fun _ _ _ _ => Iff.rfl) (hm _ k) .id) hN
  case offs => exact runCell_blind _ _ _ s t h (hm _) hN
  case vsld => exact runCell_blind _ _ _ s t h hn fun _ => hm _
  case jump => exact runCell_blind _ _ _ s t h (fun _ => .of _ fun _ _ _ _ => rfl) hN
  case vol => exact runCell_blind _ _ _ s t h (hm _) hN
  case brk => exact runCell_blind _ _ _ s t h (fun _ => .of _ fun _ _ _ _ => rfl) hN
  case spd => exact runCell_blind _ _ _ s t h (fun _ => setSpeedTempo_blind _) hN
  case efilt => exact runCell_blind _ _ _ s t h hn hN
  case efpu => exact runCell_blind _ _ _ s t h (hm _) hN
  case efpd => exact runCell_blind _ _ _ s t h (hm _) hN
  case eglis => exact runCell_blind _ _ _ s t h hn hN
  case evwav => exact runCell_blind _ _ _ s t h (hm _) hN
  case eftun => exact runCell_blind _ _ _ s t h (hm _) hN
  case eloop => exact runCell_blind _ _ _ s t h (fun k => patternLoop_blind _ k) hN
  case etwav => exact runCell_blind _ _ _ s t h (hm _) hN
  case eun8 => exact runCell_blind _ _ _ s t h hn hN
  case ertrg p n y =>
    exact runCell_blind _ _ _ s t h hn fun x k =>
      .ite (fun _ => y ≠ 0#4 ∧ x.toNat % y.toNat = 0) (fun _ _ _ _ => Iff.rfl) (restartAt_blind k 0) .id
  case efvu => exact runCell_blind _ _ _ s t h (hm _) hN
  case efvd => exact runCell_blind _ _ _ s t h (hm _) hN
  case ecut p n y =>
    exact runCell_blind _ _ _ s t h
      (fun k => .ite (fun _ => y = 0#4) (fun _ _ _ _ => Iff.rfl) (hm _ k) .id)
      (fun x k => .ite (fun _ => x.toNat = y.toNat) (fun _ _ _ _ => Iff.rfl) (hm _ k) .id)
  case edly p n y =>
    refine runCell_blind _ _ _ s t h hn fun x k => ?_
    refine .ite (fun _ => y ≠ 0#4 ∧ x.toNat = y.toNat) (fun _ _ _ _ => Iff.rfl) ?_ .id
    intro s t h
    have h' := ((note_blind k (delayedCell (s.getCh k))).comp (emitIfNote_blind k (delayedCell (s.getCh k)))) s t h
    obtain ⟨q, o, d, rfl⟩ := (sameButEvents_iff s t).1 h
    exact h'
  case epdly =>
    exact runCell_blind _ _ _ s t h
      (fun k => .ite (fun s => s.seq.delayActive = true) (fun _ _ _ _ => Iff.rfl) .id (.of _ fun _ _ _ _ => rfl)) hN
  case einv => exact runCell_blind _ _ _ s t h hn hN
  all_goals exact absurd hi (by simp [Instr.space])

/-! ## The cells of a tick and the frame -/

theorem currentInstr_blind (s t : State) (h : SameButEvents s t) : currentInstr t = currentInstr s := by
  obtain ⟨q, o, d, rfl⟩ := (sameButEvents_iff s t).1 h
  rfl

/-- The cells of a tick answer a next state, alike on states that differ at most in the events. -/
theorem runCells_blind (ks : List (Fin 8)) : ∀ s t : State, SameButEvents s t →
    ∃ u v, runCells ks s = .next u ∧ runCells ks t = .next v ∧ SameButEvents u v := by
  induction ks with
  | nil => exact fun s t h => ⟨s, t, rfl, rfl, h⟩
  | cons k rest ih =>
    intro s t h
    have h' : SameButEvents { s with chan := k } { t with chan := k } := by
      obtain ⟨q, o, d, rfl⟩ := (sameButEvents_iff s t).1 h
      rfl
    obtain ⟨u, v, hu, hv, huv⟩ := exec_blind (currentInstr { s with chan := k }) _ _ (currentInstr_space _) h'
    obtain ⟨u', v', hu', hv', h2⟩ := ih u v huv
    refine ⟨u', v', ?_, ?_, h2⟩
    · simp only [runCells, hu, thenNext_next, hu']
    · simp only [runCells, currentInstr_blind _ _ h', hv, thenNext_next, hv']

/-- The two answers are next states that differ at most in the events, or the same stop. -/
def AnswersAlike : Answer → Answer → Prop
  | .next s, .next t => SameButEvents s t
  | .fault e, .fault f => e = f
  | .refused e, .refused f => e = f
  | _, _ => False

theorem AnswersAlike.thenNext {a b : Answer} {f g : State → Answer} (h : AnswersAlike a b)
    (hfg : ∀ s t, SameButEvents s t → AnswersAlike (f s) (g t)) : AnswersAlike (thenNext a f) (Machine.thenNext b g) := by
  cases a <;> cases b <;> first | exact hfg _ _ h | exact h | exact h.elim

theorem mixChannel_blind (k : Fin 8) (acc : Int × Int) (s : State) (q : List NoteEvent) (o : Option NoteEvent) (d : BitVec 32) :
    mixChannel (s.withEvents q o d) k acc = (mixChannel s k acc).map fun r => (r.1.withEvents q o d, r.2) := by
  have e1 : (s.withEvents q o d).getCh k = s.getCh k := rfl
  have e2 : sampleValue (s.withEvents q o d) k = sampleValue s k := rfl
  simp only [mixChannel, e1, e2]
  split
  · rfl
  · split
    · rfl
    · rfl

theorem mixChannels_blind (ks : List (Fin 8)) : ∀ (s : State) (acc : Int × Int) (q : List NoteEvent) (o : Option NoteEvent)
    (d : BitVec 32), mixChannels (s.withEvents q o d) acc ks = (mixChannels s acc ks).map fun r => (r.1.withEvents q o d, r.2) := by
  induction ks with
  | nil => intros; rfl
  | cons k rest ih =>
    intro s acc q o d
    simp only [mixChannels, mixChannel_blind]
    cases mixChannel s k acc with
    | error f => rfl
    | ok r => exact ih _ _ q o d

theorem produceFrame_blind (s t : State) (h : SameButEvents s t) : AnswersAlike (produceFrame s) (produceFrame t) := by
  obtain ⟨q, o, d, rfl⟩ := (sameButEvents_iff s t).1 h
  have e1 : (s.withEvents q o d).seqState = s.seqState := rfl
  have e2 : (s.withEvents q o d).channelsFrom 0 = s.channelsFrom 0 := rfl
  simp only [produceFrame, e1, mix, e2, mixChannels_blind]
  split
  · exact rfl
  · cases mixChannels s (0, 0) (s.channelsFrom 0) with
    | error f => exact rfl
    | ok r => exact rfl

/-- The rest of a step answers alike on states that differ at most in the events. -/
theorem finishStep_blind (s t : State) (h : SameButEvents s t) : AnswersAlike (finishStep s) (finishStep t) := by
  have hr : AnswersAlike (runTickCells s) (runTickCells t) := by
    obtain ⟨u, v, hu, hv, huv⟩ := runCells_blind (s.channelsFrom s.chan.val) s t h
    have e : runTickCells t = runCells (s.channelsFrom s.chan.val) t := by
      obtain ⟨q, o, d, rfl⟩ := (sameButEvents_iff s t).1 h
      rfl
    rw [e, hv, runTickCells, hu]
    exact huv
  have hp : t.phase = s.phase := by
    obtain ⟨q, o, d, rfl⟩ := (sameButEvents_iff s t).1 h
    rfl
  simp only [finishStep, hp]
  cases s.phase
  · exact h
  · refine hr.thenNext fun u v huv => ?_
    obtain ⟨q, o, d, rfl⟩ := (sameButEvents_iff u v).1 huv
    exact rfl
  · exact hr.thenNext produceFrame_blind
  · exact produceFrame_blind s t h

/-! ## The Sequencer and the clock -/

theorem rowAdvance_blind : EventBlind rowAdvance := by
  refine EventBlind.of _ fun s q o d => ?_
  have e1 : (s.withEvents q o d).seq = s.seq := rfl
  have e2 : (s.withEvents q o d).latch = s.latch := rfl
  simp only [rowAdvance, e1, e2]
  split
  · rfl
  · split
    · rfl
    · split <;> rfl

theorem SameButEvents.seqState {s t : State} (h : SameButEvents s t) : t.seqState = s.seqState := by rw [h]

theorem sequenceTick_blind : EventBlind sequenceTick := by
  intro s t h
  have hr := rowAdvance_blind s t h
  have hs := hr.seqState
  have e : t.seq = s.seq := by rw [h]
  simp only [sequenceTick, e, hs]
  split
  · split
    · exact hr
    · obtain ⟨q, o, d, hq⟩ := (sameButEvents_iff _ _).1 hr
      rw [hq]
      rfl
  · obtain ⟨q, o, d, rfl⟩ := (sameButEvents_iff s t).1 h
    rfl

theorem advanceTick_blind : EventBlind advanceTick := by
  intro s t h
  have e1 : t.seqState = s.seqState := h.seqState
  have e2 : t.pauseReq = s.pauseReq := by rw [h]
  have h' : SameButEvents { s with seqState := .playing } { t with seqState := .playing } := by
    obtain ⟨q, o, d, rfl⟩ := (sameButEvents_iff s t).1 h
    rfl
  simp only [e2] at h'
  simp only [advanceTick, e1, e2]
  split
  · obtain ⟨q, o, d, rfl⟩ := (sameButEvents_iff s t).1 h
    rfl
  · split
    · split
      · exact h
      · exact sequenceTick_blind _ _ h'
    · exact sequenceTick_blind _ _ h

theorem beginFrame_blind : EventBlind beginFrame := by
  intro s t h
  have e1 : frameEnabled t = frameEnabled s := by
    obtain ⟨q, o, d, rfl⟩ := (sameButEvents_iff s t).1 h
    rfl
  have e2 : atTickBoundary t = atTickBoundary s := by
    obtain ⟨q, o, d, rfl⟩ := (sameButEvents_iff s t).1 h
    rfl
  have h' : SameButEvents { crossBoundary s with phase := .frameMix } { crossBoundary t with phase := .frameMix } := by
    obtain ⟨q, o, d, rfl⟩ := (sameButEvents_iff s t).1 h
    rfl
  have ha := advanceTick_blind _ _ h'
  have e3 := ha.seqState
  simp only [beginFrame, e1, e2, e3]
  split
  · split
    · split
      · obtain ⟨q, o, d, hq⟩ := (sameButEvents_iff _ _).1 ha
        rw [hq]
        rfl
      · exact ha
    · obtain ⟨q, o, d, rfl⟩ := (sameButEvents_iff s t).1 h
      rfl
  · exact h

end Sys2Proof.Machine
end

