-- ==== Sys2Proof/Laws/Mixer.lean ====
section
/-! SUPPORT. What MIX can do, said once: which channels it writes and with what, what it adds up, and when it completes. -/

namespace Sys2Proof.Machine

/-- Channel `k` after a frame in which it sounds (44_mixer.md R291). -/
def mixedChannel (s : State) (k : Fin 8) : Channel :=
  endCheck (s.hdr (s.getCh k).smp.toNat) (advanceCursor s.act.rate (s.getCh k))

/-- One channel of MIX reads its own channel, the latches, the configuration and memory. -/
theorem sampleValue_congr {s t : State} (k : Fin 8) (h : t.getCh k = s.getCh k) (hr : t = { s with ch := t.ch }) :
    sampleValue t k = sampleValue s k := by
  have hh : ∀ n, t.hdr n = s.hdr n := fun n => hdr_congr s t (by rw [hr]) n
  have ha : t.act = s.act := by rw [hr]
  have hb : ∀ who a, byteAt t who a = byteAt s who a := by rw [hr]; intro _ _; rfl
  simp only [sampleValue, nextFrameValue, pcm, h, hh, ha, hb]

theorem mixedChannel_congr {s t : State} (k : Fin 8) (h : t.getCh k = s.getCh k) (hr : t = { s with ch := t.ch }) :
    mixedChannel t k = mixedChannel s k := by
  have hh : ∀ n, t.hdr n = s.hdr n := fun n => hdr_congr s t (by rw [hr]) n
  have ha : t.act = s.act := by rw [hr]
  simp only [mixedChannel, h, hh, ha]

/-- What the mixer takes from a channel does not depend on the other channels. -/
theorem mixedValue_congr {s t : State} (k : Fin 8) (h : t.getCh k = s.getCh k) (hr : t = { s with ch := t.ch }) :
    mixedValue t k = mixedValue s k := by
  have hh : ∀ n, t.hdr n = s.hdr n := fun n => hdr_congr s t (by rw [hr]) n
  have ha : t.act = s.act := by rw [hr]
  have hb : ∀ who a, byteAt t who a = byteAt s who a := by rw [hr]; intro _ _; rfl
  simp only [mixedValue, h, hh, ha, hb]

/-- A PCM fetch that answers reads the byte of the frame. -/
theorem pcm_ok {s : State} {k : Fin 8} {hd : SampleHdr} {j : Nat} {v : Int} (h : pcm s k hd j = .ok v) :
    v = (byteAt s k.val (hd.base.toNat + j)).toInt := by
  simp only [pcm] at h
  split at h
  · exact (Except.ok.inj h).symm
  · cases h

/-- The frame after the cursor, where the mixer finds one. -/
theorem nextFrameValue_ok {s : State} {k : Fin 8} {hd : SampleHdr} {pos : Nat} {v : Int} (h : nextFrameValue s k hd pos = .ok v) :
    v = if pos + 1 < regionEnd hd then (byteAt s k.val (hd.base.toNat + (pos + 1))).toInt
      else if hd.loopEn then (byteAt s k.val (hd.base.toNat + hd.loopStart.toNat)).toInt else 0 := by
  simp only [nextFrameValue] at h
  split at h
  · rename_i hp; rw [if_pos hp, pcm_ok h]
  · rename_i hp
    rw [if_neg hp]
    split at h
    · rename_i hl; rw [if_pos hl, pcm_ok h]
    · rename_i hl; rw [if_neg hl, ← Except.ok.inj h]

/-- The value of a channel, where the mixer finds one, is the byte under the cursor or the weighted pair. -/
theorem sampleValue_ok {s : State} {k : Fin 8} {v : Int} (h : sampleValue s k = .ok v) : v = mixedValue s k := by
  simp only [sampleValue] at h
  split at h
  · cases h
  rename_i v0 h0
  simp only [mixedValue]
  rw [← pcm_ok h0]
  split at h
  · rename_i hi
    rw [if_pos hi]
    split at h
    · cases h
    rename_i v1 h1
    rw [← Except.ok.inj h, interpolate, asr, nextFrameValue_ok h1]
    rfl
  · rename_i hi
    rw [if_neg hi, ← Except.ok.inj h]

/-- What a frame does to an active channel is the advance and the end check. -/
theorem afterFrame_active (hd : SampleHdr) (rate : BitVec 18) (h : Channel) (ha : h.active = true) :
    afterFrame hd rate h = endCheck hd (advanceCursor rate h) := by
  have hp : ∀ n : Nat, n % 2 ^ 34 / 65536 < 2 ^ 18 := fun n => by omega
  simp only [afterFrame, endCheck, advanceCursor, cursorStep, clockConstant, regionEnd, ha, Bool.true_eq_false, if_false,
    BitVec.toNat_ofNat, Nat.mod_eq_of_lt (hp _)]
  generalize (h.posInt.toNat * 65536 + h.posFrac.toNat + 3546895 * 65536 / (h.outPeriod.toNat * rate.toNat)) % 2 ^ 34 = pos
  cases hd.loopEn
  · by_cases he : pos / 65536 < hd.len.toNat
    · simp [he]
    · simp [he, Nat.not_lt.1 he]
  · by_cases he : pos / 65536 < hd.loopStart.toNat + hd.loopLen.toNat
    · simp [he]
    · simp [he, Nat.not_lt.1 he]

theorem afterFrame_inactive (hd : SampleHdr) (rate : BitVec 18) (h : Channel) (ha : h.active = false) :
    afterFrame hd rate h = h := by simp [afterFrame, ha]

/-- A sounding channel after a frame. -/
theorem mixedChannel_afterFrame (s : State) (k : Fin 8) (h : silentChannel (s.getCh k) = false) :
    mixedChannel s k = afterFrame (s.hdr (s.getCh k).smp.toNat) s.act.rate (s.getCh k) := by
  rw [afterFrame_active, mixedChannel]
  simp only [silentChannel, Bool.or_eq_false_iff, Bool.not_eq_false'] at h
  exact h.1.1

/-- When a channel is silent. -/
theorem silentChannel_iff (h : Channel) :
    silentChannel h = true ↔ h.active = false ∨ h.smp = 0#5 ∨ h.outPeriod = 0#12 := by
  simp [silentChannel, or_assoc]

/-- What one channel adds, by its pan. -/
theorem panInto_eq (s : State) (k : Fin 8) (v : Int) (acc : Int × Int) (h : silentChannel (s.getCh k) = false) :
    panInto k (s.getCh k).panExplicit (scaleValue v (s.getCh k).outVol s.act.gain) acc
      = (acc.1 + leftPart s k v, acc.2 + rightPart s k v) := by
  have hs : ¬((s.getCh k).active = false ∨ (s.getCh k).smp = 0#5 ∨ (s.getCh k).outPeriod = 0#12) := by
    rw [← silentChannel_iff, h]; exact Bool.false_ne_true
  simp only [panInto, scaleValue, leftPart, rightPart, if_neg hs, asr]
  by_cases hp : (s.getCh k).panExplicit = true
  · simp [hp]
  · rcases Nat.mod_two_eq_zero_or_one k.val with e | e <;> simp [hp, e]

/-- One channel of MIX: a silent one is left, a sounding one adds its part and moves its cursor. -/
theorem mixChannel_cases (s : State) (k : Fin 8) (acc : Int × Int) (t : State) (acc' : Int × Int)
    (h : mixChannel s k acc = .ok (t, acc')) :
    (silentChannel (s.getCh k) = true ∧ t = s ∧ acc' = acc)
    ∨ (silentChannel (s.getCh k) = false ∧ t = s.setCh k (mixedChannel s k)
        ∧ acc' = (acc.1 + leftPart s k (mixedValue s k), acc.2 + rightPart s k (mixedValue s k))) := by
  simp only [mixChannel] at h
  split at h
  · rename_i hs
    simp only [Except.ok.injEq, Prod.mk.injEq] at h
    exact .inl ⟨hs, h.1.symm, h.2.symm⟩
  · rename_i hs
    simp only [Bool.not_eq_true] at hs
    split at h
    · cases h
    · rename_i v hv
      simp only [Except.ok.injEq, Prod.mk.injEq] at h
      exact .inr ⟨hs, h.1.symm, by rw [← h.2, panInto_eq s k v acc hs, sampleValue_ok hv]⟩

/-- The channels of MIX: those that sound move their cursors, every other stays, and the two sums are the sums of the parts. -/
theorem mixChannels_spec (l : List (Fin 8)) (hl : l.Nodup) (s : State) (acc : Int × Int) (t : State) (acc' : Int × Int)
    (h : mixChannels s acc l = .ok (t, acc')) :
    t = { s with ch := t.ch }
    ∧ (∀ k, t.getCh k = if k ∈ l ∧ silentChannel (s.getCh k) = false then mixedChannel s k else s.getCh k)
    ∧ acc' = (acc.1 + (l.map fun k => leftPart s k (mixedValue s k)).sum,
        acc.2 + (l.map fun k => rightPart s k (mixedValue s k)).sum) := by
  induction l generalizing s acc with
  | nil =>
    simp only [mixChannels, Except.ok.injEq, Prod.mk.injEq] at h
    obtain ⟨rfl, rfl⟩ := h
    exact ⟨rfl, by simp, by simp⟩
  | cons j rest ih =>
    have hj := (List.nodup_cons.1 hl).1
    simp only [mixChannels] at h
    split at h
    · cases h
    rename_i s1 acc1 h1
    obtain ⟨hr, hc, hacc⟩ := ih (List.nodup_cons.1 hl).2 s1 acc1 h
    rcases mixChannel_cases s j acc s1 acc1 h1 with ⟨hs, rfl, rfl⟩ | ⟨hs, rfl, rfl⟩
    · refine ⟨hr, fun k => ?_, ?_⟩
      · rw [hc]
        by_cases hk : k = j
        · subst hk; simp [hs]
        · simp [hk]
      · rw [hacc]; simp [leftPart, rightPart, (silentChannel_iff _).1 hs]
    · have hsame : ∀ k ∈ rest, (s.setCh j (mixedChannel s j)).getCh k = s.getCh k := fun k hk =>
        setCh_getCh_ne s k j _ fun e => hj (e ▸ hk)
      have hrr : s.setCh j (mixedChannel s j) = { s with ch := (s.setCh j (mixedChannel s j)).ch } := rfl
      refine ⟨by rw [hr]; rfl, fun k => ?_, ?_⟩
      · rw [hc]
        by_cases hk : k = j
        · subst hk; simp [hj, hs]
        · rw [setCh_getCh_ne s k j _ hk, mixedChannel_congr k (setCh_getCh_ne s k j _ hk) hrr]
          simp [hk]
      · have hp : ∀ k ∈ rest, (∀ v, leftPart (s.setCh j (mixedChannel s j)) k v = leftPart s k v)
            ∧ (∀ v, rightPart (s.setCh j (mixedChannel s j)) k v = rightPart s k v)
            ∧ mixedValue (s.setCh j (mixedChannel s j)) k = mixedValue s k := by
          intro k hk
          refine ⟨fun v => ?_, fun v => ?_, mixedValue_congr k (hsame k hk) hrr⟩
          · simp only [leftPart, hsame k hk, setCh_act]
          · simp only [rightPart, hsame k hk, setCh_act]
        have hL : (rest.map fun k => leftPart (s.setCh j (mixedChannel s j)) k (mixedValue (s.setCh j (mixedChannel s j)) k))
            = rest.map fun k => leftPart s k (mixedValue s k) :=
          List.map_congr_left fun k hk => by rw [(hp k hk).1, (hp k hk).2.2]
        have hR : (rest.map fun k => rightPart (s.setCh j (mixedChannel s j)) k (mixedValue (s.setCh j (mixedChannel s j)) k))
            = rest.map fun k => rightPart s k (mixedValue s k) :=
          List.map_congr_left fun k hk => by rw [(hp k hk).2.1, (hp k hk).2.2]
        rw [hacc, hL, hR]
        simp [add_assoc]

/-- MIX completes where every sounding channel's value can be read. -/
theorem mixChannels_ok (l : List (Fin 8)) (hl : l.Nodup) (s : State) (acc : Int × Int)
    (h : ∀ k ∈ l, silentChannel (s.getCh k) = false → ∃ v, sampleValue s k = .ok v) :
    ∃ r, mixChannels s acc l = .ok r := by
  induction l generalizing s acc with
  | nil => exact ⟨_, rfl⟩
  | cons j rest ih =>
    have hj := (List.nodup_cons.1 hl).1
    have step : ∀ (s1 : State) (acc1 : Int × Int), mixChannel s j acc = .ok (s1, acc1) →
        ∃ r, mixChannels s acc (j :: rest) = .ok r := by
      intro s1 acc1 h1
      simp only [mixChannels, h1]
      apply ih (List.nodup_cons.1 hl).2
      intro k hk hsk
      have hne : k ≠ j := fun e => hj (e ▸ hk)
      rcases mixChannel_cases s j acc s1 acc1 h1 with ⟨_, rfl, _⟩ | ⟨_, rfl, _⟩
      · exact h k (List.mem_cons_of_mem _ hk) hsk
      · rw [setCh_getCh_ne s k j _ hne] at hsk
        rw [sampleValue_congr k (setCh_getCh_ne s k j _ hne) rfl]
        exact h k (List.mem_cons_of_mem _ hk) hsk
    by_cases hs : silentChannel (s.getCh j) = true
    · exact step s acc (by simp [mixChannel, hs])
    · obtain ⟨v, hv⟩ := h j (List.mem_cons_self ..) (by simpa using hs)
      exact step _ _ (by simp only [mixChannel, hv]; rw [if_neg hs])

theorem channelsFrom_nodup (s : State) (k : Nat) : (s.channelsFrom k).Nodup := List.Nodup.filter _ (by decide)

theorem clampSample_toInt (v : Int) : (clampSample v).toInt = min (max v (-32768)) 32767 := by
  simp only [clampSample, BitVec.toInt_ofInt]
  rw [Int.bmod_def]
  omega

/-- MIX changes nothing but channels. -/
theorem mix_frame {s t : State} {f : Frame} (h : mix s = .ok (t, f)) : t = { s with ch := t.ch } := by
  simp only [mix] at h
  split at h
  · cases h
  · rename_i s1 acc h1
    have hr := (mixChannels_spec _ (channelsFrom_nodup s 0) s _ _ _ h1).1
    cases h; exact hr

/-- The channels of MIX do not depend on how much of the step is done. -/
theorem mixChannels_phase (p : Phase) (l : List (Fin 8)) (s : State) (acc : Int × Int) :
    mixChannels { s with phase := p } acc l = (mixChannels s acc l).map fun r => ({ r.1 with phase := p }, r.2) := by
  induction l generalizing s acc with
  | nil => rfl
  | cons k rest ih =>
    have hk : mixChannel { s with phase := p } k acc = (mixChannel s k acc).map fun r => ({ r.1 with phase := p }, r.2) := by
      have e1 : ({ s with phase := p } : State).getCh k = s.getCh k := rfl
      have e2 : sampleValue { s with phase := p } k = sampleValue s k := rfl
      simp only [mixChannel, e1, e2]
      split
      · rfl
      · split <;> rfl
    simp only [mixChannels, hk]
    cases mixChannel s k acc with
    | error e => rfl
    | ok r => exact ih r.1 r.2

/-- MIX does not depend on how much of the step is done. -/
theorem mix_phase (p : Phase) (s : State) :
    mix { s with phase := p } = (mix s).map fun r => ({ r.1 with phase := p }, r.2) := by
  have hc : ({ s with phase := p } : State).channelsFrom 0 = s.channelsFrom 0 := rfl
  simp only [mix, hc, mixChannels_phase]
  cases mixChannels s (0, 0) (s.channelsFrom 0) <;> rfl

/-- The cursor of a sounding channel inside its sample stays inside it, whatever the region's end does (44_mixer.md R285, R286). -/
theorem cursor_after_frame {hd : SampleHdr} {rate : BitVec 18} {h : Channel} (hr : 8000 ≤ rate.toNat) (hp : h.outPeriod ≠ 0#12)
    (hin : h.posInt.toNat < hd.len.toNat)
    (hl : hd.loopEn = true → 4 ≤ hd.loopLen.toNat ∧ hd.loopStart.toNat + hd.loopLen.toNat ≤ hd.len.toNat) :
    (advanceCursor rate h).posInt.toNat * 65536 + (advanceCursor rate h).posFrac.toNat
        = h.posInt.toNat * 65536 + h.posFrac.toNat + cursorStep h.outPeriod.toNat rate.toNat
    ∧ ((endCheck hd (advanceCursor rate h)).active = true →
        (endCheck hd (advanceCursor rate h)).posInt.toNat < hd.len.toNat) := by
  have hp0 : 1 ≤ h.outPeriod.toNat := by
    rcases Nat.eq_zero_or_pos h.outPeriod.toNat with e | e
    · exact absurd (BitVec.eq_of_toNat_eq (by simpa using e)) hp
    · exact e
  have hstep : cursorStep h.outPeriod.toNat rate.toNat ≤ 29056163 := by
    have hm : 1 * 8000 ≤ h.outPeriod.toNat * rate.toNat := Nat.mul_le_mul hp0 hr
    calc cursorStep h.outPeriod.toNat rate.toNat ≤ clockConstant * 65536 / (1 * 8000) := Nat.div_le_div_left hm (by decide)
      _ ≤ 29056163 := by decide
  have hlen := hd.len.isLt
  have hfrac := h.posFrac.isLt
  have hlt : h.posInt.toNat * 65536 + h.posFrac.toNat + cursorStep h.outPeriod.toNat rate.toNat < 2 ^ 34 := by omega
  constructor
  · simp only [advanceCursor, Nat.mod_eq_of_lt hlt, BitVec.toNat_ofNat]
    omega
  · intro hact
    generalize hg : advanceCursor rate h = g at hact ⊢
    simp only [endCheck] at hact ⊢
    split at hact
    · rename_i hend
      split at hact
      · rename_i hen
        obtain ⟨h4, hle⟩ := hl hen
        rw [if_pos hend, if_pos hen]
        have := Nat.mod_lt (g.posInt.toNat - regionEnd hd) (show 0 < hd.loopLen.toNat by omega)
        simp only [BitVec.toNat_ofNat]
        rw [Nat.mod_eq_of_lt (by omega)]
        omega
      · simp at hact
    · rename_i hend
      rw [if_neg hend]
      simp only [regionEnd] at hend
      split at hend
      · rename_i hen
        have := (hl hen).2
        omega
      · omega

end Sys2Proof.Machine
end

