-- ==== Sys2Proof/Laws/Frames.lean ====
section
/-! SUPPORT. What the parts of an agent's step can do, said once: the row advance, the cells of a tick, the frame, and how a
whole step is put together from them. -/

namespace Sys2Proof.Machine

/-! ## The row advance -/

/-- ROW_ADVANCE writes the sequencer registers and may finish the song; it takes tick 0, keeps the tempo and a nonzero
speed, and keeps the order in the song. -/
theorem rowAdvance_spec (s : State) :
    rowAdvance s = { s with seq := (rowAdvance s).seq, seqState := (rowAdvance s).seqState }
    ∧ ((rowAdvance s).seqState = s.seqState ∨ (rowAdvance s).seqState = .finished)
    ∧ (rowAdvance s).seq.tick = 0#5 ∧ (rowAdvance s).seq.tempo = s.seq.tempo
    ∧ (1 ≤ s.seq.speed.toNat → 1 ≤ (rowAdvance s).seq.speed.toNat)
    ∧ (s.seq.order.toNat < s.latch.songLen.toNat → (rowAdvance s).seq.order.toNat < s.latch.songLen.toNat) := by
  have hq : (commitSpeed s.seq).tick = 0#5 ∧ (commitSpeed s.seq).tempo = s.seq.tempo
      ∧ (1 ≤ s.seq.speed.toNat → 1 ≤ (commitSpeed s.seq).speed.toNat) ∧ (commitSpeed s.seq).order = s.seq.order := by
    simp only [commitSpeed]
    split
    · rename_i hne
      refine ⟨rfl, rfl, fun _ => ?_, rfl⟩
      rcases Nat.eq_zero_or_pos s.seq.speedPending.toNat with e | e
      · exact absurd (BitVec.eq_of_toNat_eq (by simpa using e)) hne
      · exact e
    · exact ⟨rfl, rfl, id, rfl⟩
  obtain ⟨h1, h2, h3, h4⟩ := hq
  simp only [rowAdvance]
  generalize commitSpeed s.seq = q at *
  split
  · exact ⟨rfl, .inl rfl, h1, h2, h3, fun a => by rw [h4]; exact a⟩
  · split
    · rename_i hlt
      refine ⟨rfl, .inl rfl, h1, h2, h3, fun _ => ?_⟩
      simp only [BitVec.toNat_ofNat]
      exact lt_of_le_of_lt (Nat.mod_le _ _) hlt
    · split
      · rename_i hlt
        refine ⟨rfl, .inl rfl, h1, h2, h3, fun _ => ?_⟩
        simp only [BitVec.toNat_ofNat]
        exact lt_of_le_of_lt (Nat.mod_le _ _) hlt
      · exact ⟨rfl, .inr rfl, h1, h2, h3, fun a => by simp only [clearPending]; rw [h4]; exact a⟩

/-! ## The cells of a tick -/

/-- What the cells of a tick may make of a state: the channels that take part, the sequencer registers but the position and
the speed, and the event queue. -/
structure CellsStep (ks : List (Fin 8)) (s t : State) : Prop where
  /-- Nothing but the channels, the sequencer registers, the event queue, its drop counter and the current channel changes. -/
  frame : t = { s with ch := t.ch, seq := t.seq, evq := t.evq, cnt := { s.cnt with evDrop := t.cnt.evDrop }, chan := t.chan }
  /-- The channels that do not take part stay. -/
  other : ∀ k : Fin 8, k ∉ ks → t.getCh k = s.getCh k
  /-- The song position and the speed in force stay. -/
  pos : t.seq.order = s.seq.order ∧ t.seq.row = s.seq.row ∧ t.seq.tick = s.seq.tick ∧ t.seq.speed = s.seq.speed
  /-- The tempo stays in range. -/
  tempo : 32 ≤ s.seq.tempo.toNat → 32 ≤ t.seq.tempo.toNat
  /-- The event queue stays within its depth. -/
  events : s.evq.length ≤ evqDepth → t.evq.length ≤ evqDepth
  /-- Every channel stays in range, if the default volumes are. -/
  fits : (∀ n : Nat, (s.hdr n).vol.toNat ≤ 64) → (∀ k, ChanFits s (s.getCh k)) → ∀ k, ChanFits s (t.getCh k)

/-- The cells of a tick complete, in every state. -/
theorem runCells_spec (ks : List (Fin 8)) (s : State) : ∃ t, runCells ks s = .next t ∧ CellsStep ks s t := by
  refine runCells_keeps (P := CellsStep ks s) ks (fun u k _ h => ?_) (fun i u hi hk h => ?_) s ?_
  · refine ⟨?_, h.other, h.pos, h.tempo, h.events, h.fits⟩
    have := h.frame
    generalize u.ch = a1 at this ⊢
    generalize u.seq = a2 at this ⊢
    generalize u.evq = a3 at this ⊢
    generalize u.cnt.evDrop = a4 at this ⊢
    generalize u.chan = a5 at this
    subst this
    rfl
  · obtain ⟨t, ht, hs⟩ := exec_cellStep i u hi
    have hl : u.latch = s.latch := by rw [h.frame]
    have hh : ∀ n, u.hdr n = s.hdr n := fun n => hdr_congr s u hl n
    refine ⟨t, ht, hs.chan, ?_, ?_, ?_, ?_, ?_, ?_⟩
    · have h1 := h.frame
      have h2 := hs.frame
      generalize t.getCh u.chan = b1 at h2
      generalize u.ch = a1 at h1
      generalize u.seq = a2 at h1
      generalize u.evq = a3 at h1
      generalize u.cnt.evDrop = a4 at h1
      generalize u.chan = a5 at h1 h2
      generalize t.seq = b2 at h2 ⊢
      generalize t.evq = b3 at h2 ⊢
      generalize t.cnt.evDrop = b4 at h2 ⊢
      subst h1
      subst h2
      rfl
    · intro k hk'
      rw [hs.other k fun e => hk' (e ▸ hk)]
      exact h.other k hk'
    · exact ⟨hs.pos.1.trans h.pos.1, hs.pos.2.1.trans h.pos.2.1, hs.pos.2.2.1.trans h.pos.2.2.1,
        hs.pos.2.2.2.trans h.pos.2.2.2⟩
    · exact fun a => hs.tempo (h.tempo a)
    · exact fun a => hs.events (h.events a)
    · intro hv ha k
      have hb := h.fits hv ha
      by_cases e : k = u.chan
      · subst e
        have := hs.fits (fun n => by rw [hh]; exact hv n) (by simpa only [ChanFits, hh] using hb u.chan)
        simpa only [ChanFits, hh] using this
      · rw [hs.other k e]; exact hb k
  · exact ⟨rfl, fun _ _ => rfl, ⟨rfl, rfl, rfl, rfl⟩, id, id, fun _ a => a⟩

/-! ## The frame -/

/-- The frame of a FRAME step, where it completes: one frame is pushed and counted, and the mixer writes the channels. -/
theorem produceFrame_spec (s t : State) (h : produceFrame s = .next t) :
    ∃ f : Frame, t = { s with
      ch := t.ch, ring := s.ring ++ [f], phase := .idle
      clk := { s.clk with frameInTick := s.clk.frameInTick + 1 }
      cnt := { s.cnt with frameCount := s.cnt.frameCount + 1 } }
    ∧ (s.seqState = .paused → f = { left := 0, right := 0 } ∧ ∀ k, t.getCh k = s.getCh k)
    ∧ (s.seqState ≠ .paused → ∀ k, t.getCh k =
        if k ∈ s.channelsFrom 0 ∧ silentChannel (s.getCh k) = false then mixedChannel s k else s.getCh k) := by
  simp only [produceFrame] at h
  split at h
  · rename_i hp
    simp only [Host.Outcome.next.injEq] at h
    subst h
    exact ⟨_, rfl, fun _ => ⟨rfl, fun _ => rfl⟩, fun a => absurd hp a⟩
  · rename_i hp
    simp only [mix] at h
    split at h
    · rename_i s1 f hm
      split at hm
      · cases hm
      · rename_i s2 acc hc
        obtain ⟨hr, hk, -⟩ := mixChannels_spec _ (channelsFrom_nodup s 0) s _ _ _ hc
        simp only [Except.ok.injEq, Prod.mk.injEq] at hm
        obtain ⟨rfl, rfl⟩ := hm
        simp only [Host.Outcome.next.injEq] at h
        subst h
        refine ⟨{ left := clampSample acc.1, right := clampSample acc.2 }, ?_, fun a => absurd a hp, fun _ k => ?_⟩
        · generalize s2.ch = c at hr
          subst hr
          rfl
        · rw [← hk k]; rfl
    · cases h

/-- The frame of a FRAME step completes where every sounding channel's value can be read. -/
theorem produceFrame_ok (s : State)
    (h : s.seqState ≠ .paused → ∀ k ∈ s.channelsFrom 0, silentChannel (s.getCh k) = false → ∃ v, sampleValue s k = .ok v) :
    ∃ t, produceFrame s = .next t := by
  simp only [produceFrame]
  split
  · exact ⟨_, rfl⟩
  · rename_i hp
    obtain ⟨⟨s1, acc⟩, hr⟩ := mixChannels_ok _ (channelsFrom_nodup s 0) s (0, 0) (h hp)
    simp only [mix, hr]
    exact ⟨_, rfl⟩

/-! ## A whole step -/

theorem step_idle (s : State) (h : s.phase = .idle) : step s = thenNext (beginStep s) finishStep := by
  simp only [step, atomicStep, if_pos h]

theorem step_busy (s : State) (h : s.phase ≠ .idle) : step s = finishStep s := by
  simp only [step, atomicStep, if_neg h]

theorem finishStep_idle (s : State) (h : s.phase = .idle) : finishStep s = .next s := by simp only [finishStep, h]

theorem finishStep_startCells (s : State) (h : s.phase = .startCells) :
    finishStep s = thenNext (runTickCells s) fun s1 => .next { s1 with phase := .idle } := by simp only [finishStep, h]

theorem finishStep_frameCells (s : State) (h : s.phase = .frameCells) :
    finishStep s = thenNext (runTickCells s) produceFrame := by simp only [finishStep, h]

theorem finishStep_frameMix (s : State) (h : s.phase = .frameMix) : finishStep s = produceFrame s := by simp only [finishStep, h]

theorem finishStep_runTick (s : State) : finishStep (runTick s)
    = thenNext (runCells (s.channelsFrom 0) { s with phase := .frameCells, chan := 0 }) produceFrame := rfl

/-- A FRAME step from the state `b` in which it begins: not enabled, between boundaries, paused at a boundary, finishing,
or sequenced (41_clock.md R160, 42_sequencer.md R180). -/
theorem frame_cases (b : State) (h : b.phase = .idle) :
    (frameEnabled b = false ∧ finishStep (beginFrame b) = .next b)
    ∨ (frameEnabled b = true ∧ atTickBoundary b = false ∧ finishStep (beginFrame b) = produceFrame { b with phase := .frameMix })
    ∨ (frameEnabled b = true ∧ atTickBoundary b = true ∧ b.pauseReq = true
      ∧ finishStep (beginFrame b) = produceFrame { crossBoundary b with phase := .frameMix, seqState := .paused })
    ∨ (frameEnabled b = true ∧ atTickBoundary b = true ∧ b.pauseReq = false ∧ ∃ d : State,
        d = { crossBoundary b with phase := .frameMix, seqState := .playing }
        ∧ ((b.seq.tick.toNat + 1 = b.seq.speed.toNat ∧ (rowAdvance d).seqState = .finished
            ∧ finishStep (beginFrame b) = .next { rowAdvance d with phase := .idle })
          ∨ (b.seq.tick.toNat + 1 = b.seq.speed.toNat ∧ (rowAdvance d).seqState ≠ .finished
            ∧ finishStep (beginFrame b) = thenNext (runCells (b.channelsFrom 0) { rowAdvance d with phase := .frameCells, chan := 0 }) produceFrame)
          ∨ (b.seq.tick.toNat + 1 ≠ b.seq.speed.toNat
            ∧ finishStep (beginFrame b) = thenNext (runCells (b.channelsFrom 0)
                { d with seq := { b.seq with tick := b.seq.tick + 1 }, phase := .frameCells, chan := 0 }) produceFrame))) := by
  by_cases he : frameEnabled b = true
  · by_cases ha : atTickBoundary b = true
    · have hps : b.seqState = .playing ∨ b.seqState = .paused := by
        simp only [frameEnabled, Bool.and_eq_true, Bool.or_eq_true, decide_eq_true_eq] at he
        exact he.1
      cases hq : b.pauseReq with
      | true =>
        refine .inr (.inr (.inl ⟨he, ha, rfl, ?_⟩))
        simp only [beginFrame, he, ha, if_true]
        rcases hps with e | e <;>
          simp [advanceTick, crossBoundary, e, hq, finishStep_frameMix]
      | false =>
        obtain ⟨d, hdd⟩ : ∃ d : State, d = { crossBoundary b with phase := .frameMix, seqState := .playing } := ⟨_, rfl⟩
        refine .inr (.inr (.inr ⟨he, ha, rfl, d, hdd, ?_⟩))
        have hd : advanceTick { crossBoundary b with phase := .frameMix }
            = sequenceTick d := by
          rw [hdd]
          rcases hps with e | e
          · simp [advanceTick, crossBoundary, e, hq]
          · simp [advanceTick, crossBoundary, e, hq]
        simp only [beginFrame, he, ha, if_true, hd]
        have hseq : d.seq = b.seq := by rw [hdd]; rfl
        have hlat : d.latch = b.latch := by rw [hdd]; rfl
        have hst : d.seqState = .playing := by rw [hdd]
        simp only [sequenceTick, hseq]
        by_cases ht : b.seq.tick.toNat + 1 = b.seq.speed.toNat
        · simp only [if_pos ht]
          by_cases hf : (rowAdvance d).seqState = .finished
          · refine .inl ⟨ht, hf, ?_⟩
            simp [hf, finishStep]
          · refine .inr (.inl ⟨ht, hf, ?_⟩)
            have hrl : (rowAdvance d).latch = b.latch := by
              rw [← hlat]; simp only [rowAdvance]; split
              · rfl
              · split
                · rfl
                · split <;> rfl
            simp only [if_neg hf]
            rw [if_neg (show ¬ (runTick (rowAdvance d)).seqState = .finished from hf), finishStep_runTick,
              channelsFrom_congr b (rowAdvance d) hrl]
        · refine .inr (.inr ⟨ht, ?_⟩)
          simp only [if_neg ht]
          rw [if_neg (by simp [runTick, hst]), finishStep_runTick,
            channelsFrom_congr b _ (show ({ d with seq := { b.seq with tick := b.seq.tick + 1 } } : State).latch = b.latch from hlat)]
    · exact .inr (.inl ⟨he, by simpa using ha, by simp [beginFrame, he, ha, finishStep]⟩)
  · exact .inl ⟨by simpa using he, by simp [beginFrame, he, finishStep_idle b h]⟩

end Sys2Proof.Machine
end

