-- ==== Sys2Proof/Laws/Loader.lean ====
section
/-! SUPPORT. What the header decoder can do, said once: the checks, the latches of an image that passes them, and the ranges
that they have. -/

namespace Sys2Proof.Machine

theorem maxOrder_le (rd : Nat → Byte) (n : Nat) : ∀ i, i < n → (rd (952 + i)).toNat ≤ maxOrder rd n := by
  induction n with
  | zero => intro i h; omega
  | succ n ih =>
    intro i h
    simp only [maxOrder]
    rcases Nat.lt_succ_iff_lt_or_eq.1 h with h | rfl
    · have := ih i h; omega
    · omega

theorem maxOrder_reached (rd : Nat → Byte) (n : Nat) (hn : 0 < n) : ∃ i, i < n ∧ (rd (952 + i)).toNat = maxOrder rd n := by
  induction n with
  | zero => omega
  | succ n ih =>
    simp only [maxOrder]
    by_cases h : maxOrder rd n ≤ (rd (952 + n)).toNat
    · exact ⟨n, by omega, by omega⟩
    · rcases Nat.eq_zero_or_pos n with rfl | hp
      · simp [maxOrder] at h
      · obtain ⟨i, hi, he⟩ := ih hp; exact ⟨i, by omega, by omega⟩

/-- A big-endian word is known by its four bytes. -/
theorem quad_eq_iff (rd : Nat → Byte) (a y0 y1 y2 y3 : Nat) (h1 : y1 < 256) (h2 : y2 < 256) (h3 : y3 < 256) :
    quad rd a = (y0 * 256 + y1) * 65536 + (y2 * 256 + y3) ↔
      (rd a).toNat = y0 ∧ (rd (a + 1)).toNat = y1 ∧ (rd (a + 2)).toNat = y2 ∧ (rd (a + 3)).toNat = y3 := by
  have b1 := (rd (a + 1)).isLt
  have b2 := (rd (a + 2)).isLt
  have b3 := (rd (a + 3)).isLt
  simp only [quad, half, show a + 2 + 1 = a + 3 from rfl]
  omega

/-- The pattern count is in range exactly where every order byte is (30_encoding.md R96, 40_control.md R135 step 4). -/
theorem patternCount_le_iff (rd : Nat → Byte) : patternCount rd ≤ 128 ↔ ∀ i, i < 128 → (rd (952 + i)).toNat < 128 := by
  constructor
  · intro h i hi
    have := maxOrder_le rd 128 i hi
    simp only [patternCount] at h; omega
  · intro h
    obtain ⟨i, hi, he⟩ := maxOrder_reached rd 128 (by omega)
    have := h i hi
    simp only [patternCount]; omega

theorem half_lt (rd : Nat → Byte) (a : Nat) : half rd a < 65536 := by
  have := (rd a).isLt; have := (rd (a + 1)).isLt; simp only [half]; omega

theorem readHeader_len (rd : Nat → Byte) (n : Nat) : (readHeader rd n).len.toNat = 2 * half rd (20 + 30 * (n - 1) + 22) := by
  have := half_lt rd (20 + 30 * (n - 1) + 22); simp [readHeader]; omega

/-- No image has a sample that is too long: a length is twice a 16-bit number (40_control.md R135 step 5). -/
theorem sampleTooLong_false (rd : Nat → Byte) : sampleTooLong rd = false := by
  simp only [sampleTooLong, List.any_eq_false]
  intro i _
  have := half_lt rd (20 + 30 * (i + 1 - 1) + 22)
  rw [readHeader_len]; simp only [maxSampleFrames, Nat.add_sub_cancel] at *; simp; omega

theorem payloadLen_mono (rd : Nat → Byte) (m n : Nat) (h : m ≤ n) : payloadLen rd m ≤ payloadLen rd n := by
  induction h with
  | refl => exact Nat.le_refl _
  | step _ ih => simp only [payloadLen]; omega

theorem signatureChannels_cases (x c : Nat) (h : signatureChannels x = some c) : c = 4 ∨ c = 6 ∨ c = 8 := by
  simp only [signatureChannels] at h
  split_ifs at h <;> simp at h <;> omega

/-- The latches of an image whose declared length is a 32-bit number (30_encoding.md R93 to R97, 20_memory.md R64, R66). -/
theorem readLatches_headerOf (rd : Nat → Byte) (c len : Nat) (hc : c = 4 ∨ c = 6 ∨ c = 8) (hp : patternCount rd ≤ 128)
    (hd : payloadBase rd c + payloadLen rd 31 ≤ len) (hl : len < 2 ^ 32) : HeaderOf rd c (readLatches rd c) := by
  have hpc : patternCount rd = 1 + maxOrder rd 128 := rfl
  have hpt : (readLatches rd c).patCount.toNat = patternCount rd := by simp [readLatches]; omega
  have hb : (readLatches rd c).smpBase.toNat = payloadBase rd c := by
    change (BitVec.ofNat 32 (payloadBase rd c)).toNat = _
    rw [BitVec.toNat_ofNat]
    exact Nat.mod_eq_of_lt (lt_of_le_of_lt (le_trans (Nat.le_add_right _ _) hd) hl)
  have hsm : ∀ i : Fin 31, (readLatches rd c).samples[i.val]'i.isLt
      = { readHeader rd (i.val + 1) with base := BitVec.ofNat 32 (payloadBase rd c + payloadLen rd i.val) } := by
    intro i; simp [readLatches]
  refine ⟨?_, rfl, rfl, ?_, ?_, ?_, ?_, ?_, ?_, ?_, ?_, ?_, ?_, ?_, ?_⟩
  · rcases hc with rfl | rfl | rfl <;> simp [readLatches]
  · intro i; simp [readLatches, readOrder]
  · intro i; rw [hpt, hpc]; have := maxOrder_le rd 128 i i.isLt; omega
  · obtain ⟨i, hi, he⟩ := maxOrder_reached rd 128 (by omega); exact ⟨⟨i, hi⟩, by rw [hpt, hpc, he]; omega⟩
  · rw [hb, hpt]; rfl
  · intro i; rw [hsm]; exact readHeader_len rd _
  · intro i; rw [hsm]; rfl
  · intro i; rw [hsm]; simp [readHeader]
  · intro i; rw [hsm]; have := half_lt rd (20 + 30 * i.val + 26); simp [readHeader]; omega
  · intro i; rw [hsm]; have := half_lt rd (20 + 30 * i.val + 28); simp [readHeader]; omega
  · intro i; rw [hsm]; simp [readHeader, loopEnabled]
  · have := hsm 0; simp only [Fin.val_zero] at this; rw [this]; simp [readLatches, payloadLen]
  · intro i
    have h1 := hsm ⟨i.val, by omega⟩
    have h2 := hsm ⟨i.val + 1, by omega⟩
    simp only at h1 h2
    rw [h1, h2]
    have m1 := payloadLen_mono rd i.val 31 (by omega)
    have m2 := payloadLen_mono rd (i.val + 1) 31 (by omega)
    have e : payloadLen rd (i.val + 1) = payloadLen rd i.val + (readHeader rd (i.val + 1)).len.toNat := rfl
    simp only [BitVec.toNat_ofNat]
    omega

/-- An image that passes the checks (40_control.md R135): its channel count, its song length, its patterns, its payload. -/
theorem loadAndCheck_ok (rd : Nat → Byte) (len : Nat) (l : Latches) (h : loadAndCheck rd len = .ok l) :
    ∃ c, 1084 ≤ len ∧ signatureChannels (quad rd 1080) = some c ∧ l = readLatches rd c ∧ 1 ≤ (rd 950).toNat
      ∧ (rd 950).toNat ≤ 128 ∧ patternCount rd ≤ 128 ∧ payloadBase rd c + payloadLen rd 31 ≤ len := by
  simp only [loadAndCheck] at h
  split at h
  · cases h
  split at h
  · cases h
  rename_i c hc
  split at h
  · cases h
  split at h
  · cases h
  split at h
  · cases h
  split at h
  · cases h
  rename_i h1 h2 h3 h4 h5
  simp only [maxPatterns] at h3
  exact ⟨c, by omega, hc, (Except.ok.inj h).symm, by omega, by omega, by omega, by omega⟩

/-- Sample header `n` of a latched image has a volume in range, and an enabled loop lies in its sample (30_encoding.md R93). -/
theorem readLatches_samples (rd : Nat → Byte) (c : Nat) (i : Nat) (hi : i < 31) :
    ((readLatches rd c).samples[i]).vol.toNat ≤ 64
    ∧ (((readLatches rd c).samples[i]).loopEn = true → 4 ≤ ((readLatches rd c).samples[i]).loopLen.toNat
      ∧ ((readLatches rd c).samples[i]).loopStart.toNat + ((readLatches rd c).samples[i]).loopLen.toNat
          ≤ ((readLatches rd c).samples[i]).len.toNat) := by
  have h1 := half_lt rd (20 + 30 * i + 22)
  have h2 := half_lt rd (20 + 30 * i + 26)
  have h3 := half_lt rd (20 + 30 * i + 28)
  simp only [readLatches, Vector.getElem_ofFn, readHeader, loopEnabled, Nat.add_sub_cancel, Bool.and_eq_true, decide_eq_true_eq,
    BitVec.toNat_ofNat]
  constructor
  · omega
  · rintro ⟨h4, h5⟩
    omega

/-- Sample header `n` of a latched image: its bytes lie between the first payload and the image's declared end (20_memory.md
R66, R68). -/
theorem readLatches_payload (rd : Nat → Byte) (c len : Nat) (hd : payloadBase rd c + payloadLen rd 31 ≤ len) (hl : len < 2 ^ 32)
    (i : Nat) (hi : i < 31) : (readLatches rd c).smpBase.toNat ≤ ((readLatches rd c).samples[i]).base.toNat
      ∧ ((readLatches rd c).samples[i]).base.toNat + ((readLatches rd c).samples[i]).len.toNat ≤ len := by
  have m1 := payloadLen_mono rd i 31 (by omega)
  have m2 := payloadLen_mono rd (i + 1) 31 (by omega)
  have e : payloadLen rd (i + 1) = payloadLen rd i + (readHeader rd (i + 1)).len.toNat := rfl
  have hs : (readLatches rd c).smpBase = BitVec.ofNat 32 (payloadBase rd c) := rfl
  rw [hs]
  simp only [readLatches, Vector.getElem_ofFn, BitVec.toNat_ofNat]
  generalize payloadBase rd c = x at *
  omega

end Sys2Proof.Machine
end

