-- ==== Sys2Proof/Laws/Memory.lean ====
section
/-! SUPPORT. The laws of module memory: reading after writing, and the canonical form that every memory operation keeps. -/

namespace Sys2Proof.Machine

/-- Reading the address just written gives the byte written. -/
theorem get_put_same (m : Memory) (a : Nat) (v : Byte) : Memory.get (Memory.put m a v) a = some v := by
  induction m with
  | nil => simp [Memory.put, Memory.get]
  | cons e rest ih =>
    obtain ⟨x, b⟩ := e
    simp only [Memory.put]
    split
    · simp [Memory.get]
    · split
      · simp [Memory.get]
      · simp [Memory.get, *]

/-- Writing leaves every other address as it was. -/
theorem get_put_ne (m : Memory) (a j : Nat) (v : Byte) (h : j ≠ a) : Memory.get (Memory.put m a v) j = Memory.get m j := by
  induction m with
  | nil => simp [Memory.put, Memory.get, h]
  | cons e rest ih =>
    obtain ⟨x, b⟩ := e
    simp only [Memory.put]
    split
    · simp [Memory.get, h]
    · split
      · subst x; simp [Memory.get, h]
      · simp only [Memory.get, ih]

/-- A memory canonical from `lo` on stays so when a 32-bit address from `lo` on is written. -/
theorem put_wfFrom (m : Memory) (lo a : Nat) (v : Byte) (hm : Memory.wfFrom lo m = true) (hlo : lo ≤ a) (ha : a < 2 ^ 32) :
    Memory.wfFrom lo (Memory.put m a v) = true := by
  induction m generalizing lo with
  | nil => simp only [Memory.put, Memory.wfFrom]; simp [hlo]; omega
  | cons e rest ih =>
    obtain ⟨x, b⟩ := e
    simp only [Memory.wfFrom, Bool.and_eq_true, decide_eq_true_eq] at hm
    obtain ⟨⟨h1, h2⟩, h3⟩ := hm
    simp only [Memory.put]
    split
    · simp only [Memory.wfFrom, Bool.and_eq_true, decide_eq_true_eq]
      exact ⟨⟨hlo, ha⟩, ⟨by omega, h2⟩, h3⟩
    · split
      · subst x; simp only [Memory.wfFrom, Bool.and_eq_true, decide_eq_true_eq]
        exact ⟨⟨hlo, ha⟩, h3⟩
      · simp only [Memory.wfFrom, Bool.and_eq_true, decide_eq_true_eq]
        exact ⟨⟨h1, h2⟩, ih _ h3 (by omega)⟩

/-- One byte written keeps the canonical form. -/
theorem put_wf (m : Memory) (a : Nat) (v : Byte) (hm : Memory.wf m = true) (ha : a < 2 ^ 32) : Memory.wf (Memory.put m a v) = true :=
  put_wfFrom m 0 a v hm (Nat.zero_le a) ha

/-- Bytes written keep the canonical form, if their addresses are 32-bit addresses. -/
theorem putBytes_wf (bs : List Byte) (m : Memory) (a : Nat) (hm : Memory.wf m = true) (ha : a + bs.length ≤ 2 ^ 32) :
    Memory.wf (Memory.putBytes m a bs) = true := by
  induction bs generalizing m a with
  | nil => exact hm
  | cons b rest ih =>
    simp only [List.length_cons] at ha
    exact ih _ _ (put_wf m a b hm (by omega)) (by omega)

/-- The host's write keeps the canonical form. -/
theorem hostMemWrite_wf (s : State) (a : BitVec 32) (v : Byte) (h : Memory.wf s.mem = true) : Memory.wf (hostMemWrite s a v).mem = true :=
  put_wf _ _ _ h a.isLt

/-- Reset's memory has the canonical form. -/
theorem reset_mem_wf : Memory.wf State.reset.mem = true := rfl

/-- The address of every cell is a 32-bit address (20_memory.md R65, R68). -/
theorem cellAddr_lt (c : BitVec 4) (p : BitVec 8) (r : BitVec 6) (k : Fin 8) :
    cellAddr c.toNat p.toNat r.toNat k.val + 3 < 2 ^ 32 := by
  have hc := c.isLt; have hp := p.isLt; have hr := r.isLt; have hk := k.isLt
  have h1 : (p.toNat * 64 + r.toNat) * c.toNat ≤ 16383 * 15 := Nat.mul_le_mul (by omega) (by omega)
  simp only [cellAddr]; omega

end Sys2Proof.Machine
end

