-- ==== Sys2Proof/Laws/PerInstr.lean ====
section
/-! SUPPORT. The per-instruction family CommandField: the word of every instruction holds, in the bits its row of
spec/opcode_table.json fixes, the value the row gives (30_encoding.md R115). -/

namespace Sys2Proof.Laws

/-- The field a row of the opcode table fixes: its lowest bit, its width and its value. -/
def rowField : Instr → Nat × Nat × Nat
  | .noEffect .. => (0, 12, 0)
  | .arp .. => (8, 4, 0)
  | .pup .. => (8, 4, 1)
  | .pdn .. => (8, 4, 2)
  | .tporta .. => (8, 4, 3)
  | .vib .. => (8, 4, 4)
  | .tpvs .. => (8, 4, 5)
  | .vibvs .. => (8, 4, 6)
  | .trem .. => (8, 4, 7)
  | .pan .. => (8, 4, 8)
  | .offs .. => (8, 4, 9)
  | .vsld .. => (8, 4, 10)
  | .jump .. => (8, 4, 11)
  | .vol .. => (8, 4, 12)
  | .brk .. => (8, 4, 13)
  | .spd .. => (8, 4, 15)
  | .efilt .. => (4, 8, 224)
  | .efpu .. => (4, 8, 225)
  | .efpd .. => (4, 8, 226)
  | .eglis .. => (4, 8, 227)
  | .evwav .. => (4, 8, 228)
  | .eftun .. => (4, 8, 229)
  | .eloop .. => (4, 8, 230)
  | .etwav .. => (4, 8, 231)
  | .eun8 .. => (4, 8, 232)
  | .ertrg .. => (4, 8, 233)
  | .efvu .. => (4, 8, 234)
  | .efvd .. => (4, 8, 235)
  | .ecut .. => (4, 8, 236)
  | .edly .. => (4, 8, 237)
  | .epdly .. => (4, 8, 238)
  | .einv .. => (4, 8, 239)
  | .nop => (0, 3, 0)
  | .start => (0, 3, 1)
  | .pause => (0, 3, 2)
  | .resume => (0, 3, 3)
  | .stop => (0, 3, 4)
  | .rsvd5 => (0, 3, 5)
  | .rsvd6 => (0, 3, 6)
  | .rsvd7 => (0, 3, 7)

/-- The fixed field of the row stands in the word. -/
def CommandField.Statement (i : Instr) : Prop :=
  (encode i).toNat / 2 ^ (rowField i).1 % 2 ^ (rowField i).2.1 = (rowField i).2.2

/-- A cell word holds its command in bits 11 to 8. -/
theorem cellWord_cmd (c : Cell) : (cellWord c).toNat / 2 ^ 8 % 2 ^ 4 = c.cmd.toNat := by
  have h3 := c.cmd.isLt; have h4 := c.param.isLt
  rw [cellWord_toNat]; omega

/-- A cell word holds its command and the first nibble of its parameter in bits 11 to 4. -/
theorem cellWord_cmd_x (c : Cell) : (cellWord c).toNat / 2 ^ 4 % 2 ^ 8 = c.cmd.toNat * 16 + c.param.toNat / 16 := by
  have h3 := c.cmd.isLt; have h4 := c.param.isLt
  rw [cellWord_toNat]; omega

/-- A cell word holds its command and parameter in bits 11 to 0. -/
theorem cellWord_effect (c : Cell) : (cellWord c).toNat / 2 ^ 0 % 2 ^ 12 = c.cmd.toNat * 256 + c.param.toNat := by
  have h3 := c.cmd.isLt; have h4 := c.param.isLt
  rw [cellWord_toNat]; omega

/-- An extended effect's fixed field. -/
theorem extended_field (p : BitVec 12) (s : BitVec 8) (x y : BitVec 4) :
    (cellWord ⟨p, s, 0xE#4, joinNibbles x y⟩).toNat / 2 ^ 4 % 2 ^ 8 = 224 + x.toNat := by
  have hx := x.isLt; have hy := y.isLt
  rw [cellWord_cmd_x]
  simp only [joinNibbles_toNat, BitVec.toNat_ofNat]; omega

/-- The fixed field of a cell without an effect. -/
theorem noEffect_field (p : BitVec 12) (s : BitVec 8) : (cellWord ⟨p, s, 0x0#4, 0x00#8⟩).toNat / 2 ^ 0 % 2 ^ 12 = 0 := by
  rw [cellWord_effect]; simp

/-- The statement, from the encoded word and the row. -/
theorem CommandField.of_word {i : Instr} {w : Word} {a n v : Nat} (hw : encode i = w) (hr : rowField i = (a, n, v))
    (h : w.toNat / 2 ^ a % 2 ^ n = v) : CommandField.Statement i := by
  rw [CommandField.Statement, hw, hr]; exact h

theorem CommandField.noEffect (period : BitVec 12) (smp : BitVec 8) : CommandField.Statement (.noEffect period smp) :=
  CommandField.of_word rfl rfl (noEffect_field period smp)

theorem CommandField.arp (period : BitVec 12) (smp : BitVec 8) (x y : BitVec 4) : CommandField.Statement (.arp period smp x y) :=
  CommandField.of_word rfl rfl (cellWord_cmd ⟨period, smp, 0x0#4, joinNibbles x y⟩)

theorem CommandField.pup (period : BitVec 12) (smp : BitVec 8) (xx : BitVec 8) : CommandField.Statement (.pup period smp xx) :=
  CommandField.of_word rfl rfl (cellWord_cmd ⟨period, smp, 0x1#4, xx⟩)

theorem CommandField.pdn (period : BitVec 12) (smp : BitVec 8) (xx : BitVec 8) : CommandField.Statement (.pdn period smp xx) :=
  CommandField.of_word rfl rfl (cellWord_cmd ⟨period, smp, 0x2#4, xx⟩)

theorem CommandField.tporta (period : BitVec 12) (smp : BitVec 8) (xx : BitVec 8) : CommandField.Statement (.tporta period smp xx) :=
  CommandField.of_word rfl rfl (cellWord_cmd ⟨period, smp, 0x3#4, xx⟩)

theorem CommandField.vib (period : BitVec 12) (smp : BitVec 8) (x y : BitVec 4) : CommandField.Statement (.vib period smp x y) :=
  CommandField.of_word rfl rfl (cellWord_cmd ⟨period, smp, 0x4#4, joinNibbles x y⟩)

theorem CommandField.tpvs (period : BitVec 12) (smp : BitVec 8) (x y : BitVec 4) : CommandField.Statement (.tpvs period smp x y) :=
  CommandField.of_word rfl rfl (cellWord_cmd ⟨period, smp, 0x5#4, joinNibbles x y⟩)

theorem CommandField.vibvs (period : BitVec 12) (smp : BitVec 8) (x y : BitVec 4) : CommandField.Statement (.vibvs period smp x y) :=
  CommandField.of_word rfl rfl (cellWord_cmd ⟨period, smp, 0x6#4, joinNibbles x y⟩)

theorem CommandField.trem (period : BitVec 12) (smp : BitVec 8) (x y : BitVec 4) : CommandField.Statement (.trem period smp x y) :=
  CommandField.of_word rfl rfl (cellWord_cmd ⟨period, smp, 0x7#4, joinNibbles x y⟩)

theorem CommandField.pan (period : BitVec 12) (smp : BitVec 8) (xx : BitVec 8) : CommandField.Statement (.pan period smp xx) :=
  CommandField.of_word rfl rfl (cellWord_cmd ⟨period, smp, 0x8#4, xx⟩)

theorem CommandField.offs (period : BitVec 12) (smp : BitVec 8) (xx : BitVec 8) : CommandField.Statement (.offs period smp xx) :=
  CommandField.of_word rfl rfl (cellWord_cmd ⟨period, smp, 0x9#4, xx⟩)

theorem CommandField.vsld (period : BitVec 12) (smp : BitVec 8) (x y : BitVec 4) : CommandField.Statement (.vsld period smp x y) :=
  CommandField.of_word rfl rfl (cellWord_cmd ⟨period, smp, 0xA#4, joinNibbles x y⟩)

theorem CommandField.jump (period : BitVec 12) (smp : BitVec 8) (xx : BitVec 8) : CommandField.Statement (.jump period smp xx) :=
  CommandField.of_word rfl rfl (cellWord_cmd ⟨period, smp, 0xB#4, xx⟩)

theorem CommandField.vol (period : BitVec 12) (smp : BitVec 8) (xx : BitVec 8) : CommandField.Statement (.vol period smp xx) :=
  CommandField.of_word rfl rfl (cellWord_cmd ⟨period, smp, 0xC#4, xx⟩)

theorem CommandField.brk (period : BitVec 12) (smp : BitVec 8) (x y : BitVec 4) : CommandField.Statement (.brk period smp x y) :=
  CommandField.of_word rfl rfl (cellWord_cmd ⟨period, smp, 0xD#4, joinNibbles x y⟩)

theorem CommandField.spd (period : BitVec 12) (smp : BitVec 8) (xx : BitVec 8) : CommandField.Statement (.spd period smp xx) :=
  CommandField.of_word rfl rfl (cellWord_cmd ⟨period, smp, 0xF#4, xx⟩)

theorem CommandField.efilt (period : BitVec 12) (smp : BitVec 8) (y : BitVec 4) : CommandField.Statement (.efilt period smp y) :=
  CommandField.of_word rfl rfl (extended_field period smp 0x0#4 y)

theorem CommandField.efpu (period : BitVec 12) (smp : BitVec 8) (y : BitVec 4) : CommandField.Statement (.efpu period smp y) :=
  CommandField.of_word rfl rfl (extended_field period smp 0x1#4 y)

theorem CommandField.efpd (period : BitVec 12) (smp : BitVec 8) (y : BitVec 4) : CommandField.Statement (.efpd period smp y) :=
  CommandField.of_word rfl rfl (extended_field period smp 0x2#4 y)

theorem CommandField.eglis (period : BitVec 12) (smp : BitVec 8) (y : BitVec 4) : CommandField.Statement (.eglis period smp y) :=
  CommandField.of_word rfl rfl (extended_field period smp 0x3#4 y)

theorem CommandField.evwav (period : BitVec 12) (smp : BitVec 8) (y : BitVec 4) : CommandField.Statement (.evwav period smp y) :=
  CommandField.of_word rfl rfl (extended_field period smp 0x4#4 y)

theorem CommandField.eftun (period : BitVec 12) (smp : BitVec 8) (y : BitVec 4) : CommandField.Statement (.eftun period smp y) :=
  CommandField.of_word rfl rfl (extended_field period smp 0x5#4 y)

theorem CommandField.eloop (period : BitVec 12) (smp : BitVec 8) (y : BitVec 4) : CommandField.Statement (.eloop period smp y) :=
  CommandField.of_word rfl rfl (extended_field period smp 0x6#4 y)

theorem CommandField.etwav (period : BitVec 12) (smp : BitVec 8) (y : BitVec 4) : CommandField.Statement (.etwav period smp y) :=
  CommandField.of_word rfl rfl (extended_field period smp 0x7#4 y)

theorem CommandField.eun8 (period : BitVec 12) (smp : BitVec 8) (y : BitVec 4) : CommandField.Statement (.eun8 period smp y) :=
  CommandField.of_word rfl rfl (extended_field period smp 0x8#4 y)

theorem CommandField.ertrg (period : BitVec 12) (smp : BitVec 8) (y : BitVec 4) : CommandField.Statement (.ertrg period smp y) :=
  CommandField.of_word rfl rfl (extended_field period smp 0x9#4 y)

theorem CommandField.efvu (period : BitVec 12) (smp : BitVec 8) (y : BitVec 4) : CommandField.Statement (.efvu period smp y) :=
  CommandField.of_word rfl rfl (extended_field period smp 0xA#4 y)

theorem CommandField.efvd (period : BitVec 12) (smp : BitVec 8) (y : BitVec 4) : CommandField.Statement (.efvd period smp y) :=
  CommandField.of_word rfl rfl (extended_field period smp 0xB#4 y)

theorem CommandField.ecut (period : BitVec 12) (smp : BitVec 8) (y : BitVec 4) : CommandField.Statement (.ecut period smp y) :=
  CommandField.of_word rfl rfl (extended_field period smp 0xC#4 y)

theorem CommandField.edly (period : BitVec 12) (smp : BitVec 8) (y : BitVec 4) : CommandField.Statement (.edly period smp y) :=
  CommandField.of_word rfl rfl (extended_field period smp 0xD#4 y)

theorem CommandField.epdly (period : BitVec 12) (smp : BitVec 8) (y : BitVec 4) : CommandField.Statement (.epdly period smp y) :=
  CommandField.of_word rfl rfl (extended_field period smp 0xE#4 y)

theorem CommandField.einv (period : BitVec 12) (smp : BitVec 8) (y : BitVec 4) : CommandField.Statement (.einv period smp y) :=
  CommandField.of_word rfl rfl (extended_field period smp 0xF#4 y)

theorem CommandField.nop : CommandField.Statement .nop := rfl

theorem CommandField.start : CommandField.Statement .start := rfl

theorem CommandField.pause : CommandField.Statement .pause := rfl

theorem CommandField.resume : CommandField.Statement .resume := rfl

theorem CommandField.stop : CommandField.Statement .stop := rfl

theorem CommandField.rsvd5 : CommandField.Statement .rsvd5 := rfl

theorem CommandField.rsvd6 : CommandField.Statement .rsvd6 := rfl

theorem CommandField.rsvd7 : CommandField.Statement .rsvd7 := rfl

end Sys2Proof.Laws
end

