-- ==== Sys2Proof/Tests/Slice0.lean ====
section
/-! SUPPORT. Small tests: the well-formedness check, every constructor's word written out field by field from the spec's
encoding tables, one step on a small state for each instruction with values from 95_test_vectors.md, and for each
statement with hypotheses a state and operands that meet them. -/

set_option Elab.async false

namespace Sys2Proof.Machine

/-! ## Well-formedness -/

/-- An arpeggio with parameter 0 is NONE, not an arpeggio (30_encoding.md R102). -/
theorem test_wf_refuses_arp_of_zero : (Instr.arp 0x1AC#12 1#8 0#4 0#4).wf = false := by decide

theorem test_wf_accepts_arp : (Instr.arp 0x1AC#12 1#8 0#4 7#4).wf = true := by decide

/-! ## Words, written out from 30_encoding.md R99, R102, R103 and R112 -/

/-- A cell word by its fields in order: sample high nibble, period, sample low nibble, command, parameter (R99). -/
def fieldsWord (hi : BitVec 4) (p : BitVec 12) (lo cmd x y : BitVec 4) : Word := hi ++ p ++ lo ++ cmd ++ x ++ y

theorem test_decode_none : decodeWord (fieldsWord 1 0x1AC 5 0x0 0 0) = .noEffect 0x1AC 0x15 := by decide
theorem test_decode_arp : decodeWord (fieldsWord 1 0x1AC 5 0x0 4 7) = .arp 0x1AC 0x15 4 7 := by decide
theorem test_decode_pup : decodeWord (fieldsWord 1 0x1AC 5 0x1 4 7) = .pup 0x1AC 0x15 0x47 := by decide
theorem test_decode_pdn : decodeWord (fieldsWord 1 0x1AC 5 0x2 4 7) = .pdn 0x1AC 0x15 0x47 := by decide
theorem test_decode_tporta : decodeWord (fieldsWord 1 0x1AC 5 0x3 4 7) = .tporta 0x1AC 0x15 0x47 := by decide
theorem test_decode_vib : decodeWord (fieldsWord 1 0x1AC 5 0x4 4 7) = .vib 0x1AC 0x15 4 7 := by decide
theorem test_decode_tpvs : decodeWord (fieldsWord 1 0x1AC 5 0x5 4 7) = .tpvs 0x1AC 0x15 4 7 := by decide
theorem test_decode_vibvs : decodeWord (fieldsWord 1 0x1AC 5 0x6 4 7) = .vibvs 0x1AC 0x15 4 7 := by decide
theorem test_decode_trem : decodeWord (fieldsWord 1 0x1AC 5 0x7 4 7) = .trem 0x1AC 0x15 4 7 := by decide
theorem test_decode_pan : decodeWord (fieldsWord 1 0x1AC 5 0x8 4 7) = .pan 0x1AC 0x15 0x47 := by decide
theorem test_decode_offs : decodeWord (fieldsWord 1 0x1AC 5 0x9 4 7) = .offs 0x1AC 0x15 0x47 := by decide
theorem test_decode_vsld : decodeWord (fieldsWord 1 0x1AC 5 0xA 4 7) = .vsld 0x1AC 0x15 4 7 := by decide
theorem test_decode_jump : decodeWord (fieldsWord 1 0x1AC 5 0xB 4 7) = .jump 0x1AC 0x15 0x47 := by decide
theorem test_decode_vol : decodeWord (fieldsWord 1 0x1AC 5 0xC 4 7) = .vol 0x1AC 0x15 0x47 := by decide
theorem test_decode_brk : decodeWord (fieldsWord 1 0x1AC 5 0xD 4 7) = .brk 0x1AC 0x15 4 7 := by decide
theorem test_decode_spd : decodeWord (fieldsWord 1 0x1AC 5 0xF 4 7) = .spd 0x1AC 0x15 0x47 := by decide
theorem test_decode_efilt : decodeWord (fieldsWord 1 0x1AC 5 0xE 0x0 7) = .efilt 0x1AC 0x15 7 := by decide
theorem test_decode_efpu : decodeWord (fieldsWord 1 0x1AC 5 0xE 0x1 7) = .efpu 0x1AC 0x15 7 := by decide
theorem test_decode_efpd : decodeWord (fieldsWord 1 0x1AC 5 0xE 0x2 7) = .efpd 0x1AC 0x15 7 := by decide
theorem test_decode_eglis : decodeWord (fieldsWord 1 0x1AC 5 0xE 0x3 7) = .eglis 0x1AC 0x15 7 := by decide
theorem test_decode_evwav : decodeWord (fieldsWord 1 0x1AC 5 0xE 0x4 7) = .evwav 0x1AC 0x15 7 := by decide
theorem test_decode_eftun : decodeWord (fieldsWord 1 0x1AC 5 0xE 0x5 7) = .eftun 0x1AC 0x15 7 := by decide
theorem test_decode_eloop : decodeWord (fieldsWord 1 0x1AC 5 0xE 0x6 7) = .eloop 0x1AC 0x15 7 := by decide
theorem test_decode_etwav : decodeWord (fieldsWord 1 0x1AC 5 0xE 0x7 7) = .etwav 0x1AC 0x15 7 := by decide
theorem test_decode_eun8 : decodeWord (fieldsWord 1 0x1AC 5 0xE 0x8 7) = .eun8 0x1AC 0x15 7 := by decide
theorem test_decode_ertrg : decodeWord (fieldsWord 1 0x1AC 5 0xE 0x9 7) = .ertrg 0x1AC 0x15 7 := by decide
theorem test_decode_efvu : decodeWord (fieldsWord 1 0x1AC 5 0xE 0xA 7) = .efvu 0x1AC 0x15 7 := by decide
theorem test_decode_efvd : decodeWord (fieldsWord 1 0x1AC 5 0xE 0xB 7) = .efvd 0x1AC 0x15 7 := by decide
theorem test_decode_ecut : decodeWord (fieldsWord 1 0x1AC 5 0xE 0xC 7) = .ecut 0x1AC 0x15 7 := by decide
theorem test_decode_edly : decodeWord (fieldsWord 1 0x1AC 5 0xE 0xD 7) = .edly 0x1AC 0x15 7 := by decide
theorem test_decode_epdly : decodeWord (fieldsWord 1 0x1AC 5 0xE 0xE 7) = .epdly 0x1AC 0x15 7 := by decide
theorem test_decode_einv : decodeWord (fieldsWord 1 0x1AC 5 0xE 0xF 7) = .einv 0x1AC 0x15 7 := by decide

/-- The host commands: bits 2 to 0 of CTRL, the reserved bits above set in some of the values (30_encoding.md R112). -/
theorem test_decode_nop : decodeCtrl 0b000#32 = .nop := by decide
theorem test_decode_start : decodeCtrl 0b001#32 = .start := by decide
theorem test_decode_pause : decodeCtrl 0b010#32 = .pause := by decide
theorem test_decode_resume : decodeCtrl 0b1000011#32 = .resume := by decide
theorem test_decode_stop : decodeCtrl 0xFFFFFFFC#32 = .stop := by decide
theorem test_decode_rsvd5 : decodeCtrl 0b101#32 = .rsvd5 := by decide
theorem test_decode_rsvd6 : decodeCtrl 0b110#32 = .rsvd6 := by decide
theorem test_decode_rsvd7 : decodeCtrl 0b111#32 = .rsvd7 := by decide

/-- A cell word in memory order, the most significant byte first: `1AC 01 000` (95_test_vectors.md V1.9). -/
theorem test_decode_bytes : decode .cell [0x01, 0xAC, 0x10, 0x00] = .ok (.noEffect 0x1AC 1, []) := by decide
theorem test_decode_missing_bytes : decode .cell [0x01, 0xAC, 0x10] = .error .missingBytes := by decide

/-- The table's rows: a one-byte row is a CTRL value, a longer one a cell word. -/
theorem test_table_start : decodeTableWord 8 1 = some .start := by decide
theorem test_table_ecut : decodeTableWord 16 0xEC3 = some (.ecut 0 0 3) := by decide

/-! ## Small states -/

/-- The header of every sample of the song: 2000 frames, volume 64, no loop. -/
def songHdr : SampleHdr := { SampleHdr.zero with len := 2000, vol := 64, base := 2108 }

/-- A 4-channel song that plays, with one pattern and every sample of 2000 frames and volume 64. -/
def song : State :=
  { State.reset with
    latch := { Latches.initial with
      chanCount := 4, songLen := 1, restart := 0x7F, patCount := 1, smpBase := 2108
      samples := Vector.replicate 31 songHdr }
    seqState := .playing
    clk := { fptLatched := 882, frameInTick := 0 }
    act := { rate := 44100, interp := false, pan := false, arp := false, gain := 128, len := 4108 } }

/-- Channel 0 of the song sounds sample 1 with the given base period and volume. -/
def sounding (p : BitVec 12) (v : BitVec 7) : Channel :=
  { Channel.silent with smp := 1, basePeriod := p, outPeriod := p, vol := v, outVol := v, active := true }

/-- The song at tick `t` with channel 0 at `h`. -/
def songAt (t : BitVec 5) (h : Channel) : State := ({ song with seq := { song.seq with tick := t } } : State).setCh 0 h

/-- The state an answer gives, if it is a next state. -/
def next? (a : Answer) : Option State :=
  match a with
  | .next s => some s
  | _ => none

/-- A view of channel 0 in the state an answer gives. -/
def ch0 (a : Answer) (f : Channel → Nat) : Option Nat := (next? a).map fun s => f (s.getCh 0)

/-- A view of the sequencer registers in the state an answer gives. -/
def seqOf (a : Answer) (f : SeqRegs → Nat) : Option Nat := (next? a).map fun s => f s.seq

/-! ## The effects: 95_test_vectors.md -/

/-- V1.5: `1AC 01 000` binds sample 1, plays 428 and emits one event. -/
theorem test_none : (next? (exec (.noEffect 0x1AC 1) song)).map (fun s =>
    ((s.getCh 0).basePeriod, (s.getCh 0).outPeriod, (s.getCh 0).vol, (s.getCh 0).active, s.evq))
    = some (428, 428, 64, true, [{ tickIndex := 0, channel := 0, sample := 1, period := 0x1AC, volume := 64, cmd := 0, param := 0 }]) := by
  decide +kernel

/-- V1.3: ticks 1 and 2 of `047` from 428. 43_effects.md R221: with ARP_SOURCE an offset 0 plays the base, here 408, no table
period. -/
theorem test_arp_1 : ch0 (exec (.arp 0 0 4 7) (songAt 1 (sounding 428 64))) (·.outPeriod.toNat) = some 339 := by decide +kernel
theorem test_arp_2 : ch0 (exec (.arp 0 0 4 7) (songAt 2 (sounding 428 64))) (·.outPeriod.toNat) = some 360
    ∧ ch0 (exec (.arp 0 0 3 0) { songAt 2 (sounding 408 64) with act := { song.act with arp := true } }) (·.outPeriod.toNat) = some 408 := by
  decide +kernel

/-- V2.7. -/
theorem test_pup : ch0 (exec (.pup 0 0 0x04) (songAt 1 (sounding 428 64))) (·.basePeriod.toNat) = some 424 := by decide +kernel
theorem test_pdn : ch0 (exec (.pdn 0 0 0x10) (songAt 1 (sounding 850 64))) (·.basePeriod.toNat) = some 856 := by decide +kernel
theorem test_tporta_target : ch0 (exec (.tporta 0x1C5 0 8) (songAt 0 (sounding 428 64))) (fun h => h.portaTarget.toNat * 4096 + h.basePeriod.toNat)
    = some (453 * 4096 + 428) := by decide +kernel
theorem test_tporta_slide : ch0 (exec (.tporta 0 0 8) (songAt 4 { sounding 452 64 with portaTarget := 453, portaRate := 8 }))
    (fun h => h.basePeriod.toNat * 4096 + h.portaTarget.toNat) = some (453 * 4096) := by decide +kernel
theorem test_efpu : ch0 (exec (.efpu 0 0 5) (songAt 0 (sounding 115 64))) (·.basePeriod.toNat) = some 113 := by decide +kernel
theorem test_efpd : ch0 (exec (.efpd 0 0 3) (songAt 0 (sounding 428 64))) (·.outPeriod.toNat) = some 431 := by decide +kernel

/-- V2.5: the second tick of `448`, at phase 4; ramp at phase 32, `4FF`. -/
theorem test_vib : ch0 (exec (.vib 0 0 4 8) (songAt 2 { sounding 428 64 with vibPos := 4, vibSpeed := 4, vibDepth := 8 }))
    (fun h => h.outPeriod.toNat * 64 + h.vibPos.toNat) = some (434 * 64 + 8) := by decide +kernel
theorem test_vib_ramp : ch0 (exec (.vib 0 0 15 15) (songAt 2 { sounding 428 64 with vibPos := 32, vibDepth := 15, vibWave := 1 }))
    (·.outPeriod.toNat) = some 399 := by decide +kernel

/-- V2.7 and V1.4 combined: `5xy` slides the pitch as `308` does, then the volume. -/
theorem test_tpvs : ch0 (exec (.tpvs 0 0 0 0xF) (songAt 1 { sounding 428 64 with portaTarget := 453, portaRate := 8 }))
    (fun h => h.outPeriod.toNat * 128 + h.outVol.toNat) = some (436 * 128 + 49) := by decide +kernel

/-- V2.5 and V1.4 combined. -/
theorem test_vibvs : ch0 (exec (.vibvs 0 0 5 0) (songAt 1 { sounding 428 60 with vibPos := 8, vibSpeed := 4, vibDepth := 8 }))
    (fun h => h.outPeriod.toNat * 128 + h.vol.toNat) = some (439 * 128 + 64) := by decide +kernel

/-- V2.6: the second and sixth ticks of `78F` from volume 32. -/
theorem test_trem_up : ch0 (exec (.trem 0 0 8 15) (songAt 2 { sounding 428 32 with tremPos := 8, tremSpeed := 8, tremDepth := 15 }))
    (fun h => h.outVol.toNat * 128 + h.vol.toNat) = some (64 * 128 + 32) := by decide +kernel
theorem test_trem_down : ch0 (exec (.trem 0 0 8 15) (songAt 1 { sounding 428 32 with tremPos := 40, tremSpeed := 8, tremDepth := 15 }))
    (·.outVol.toNat) = some 0 := by decide +kernel

/-- V2.9. -/
theorem test_pan_on : ch0 (exec (.pan 0 0 0x80) { song with act := { song.act with pan := true } }) (fun h => h.panExplicit.toNat) = some 1 := by
  decide +kernel
theorem test_pan_off : ch0 (exec (.pan 0 0 0x80) song) (fun h => h.panExplicit.toNat) = some 0 := by decide +kernel
theorem test_offs_memory : ch0 (exec (.offs 0x1AC 1 0x00) (songAt 0 { sounding 428 64 with offsetMem := 4 }))
    (fun h => h.posInt.toNat * 2 + h.active.toNat) = some (1024 * 2 + 1) := by decide +kernel
theorem test_offs_beyond : ch0 (exec (.offs 0x1AC 1 0x08) song) (fun h => h.offsetMem.toNat * 2 + h.active.toNat) = some 16 := by decide +kernel
theorem test_ertrg : ch0 (exec (.ertrg 0 0 2) (songAt 4 { sounding 428 64 with posInt := 331, posFrac := 7 }))
    (fun h => h.posInt.toNat + h.posFrac.toNat) = some 0 := by decide +kernel
theorem test_ertrg_between : ch0 (exec (.ertrg 0 0 2) (songAt 3 { sounding 428 64 with posInt := 331 })) (·.posInt.toNat) = some 331 := by
  decide +kernel
theorem test_edly_holds : (next? (exec (.edly 0x1AC 1 2) song)).map (fun s => ((s.getCh 0).basePeriod, (s.getCh 0).dlyPeriod, s.evq.length))
    = some (0, 0x1AC, 0) := by decide +kernel
theorem test_edly_releases : (next? (exec (.edly 0 0 2) { songAt 2 { Channel.silent with cmd := 0xE, param := 0xD2, dlyPeriod := 0x1AC, dlySmp := 1 } with
    cnt := { song.cnt with tickCount := 2 } })).map (fun s => ((s.getCh 0).basePeriod, s.evq))
    = some (428, [{ tickIndex := 2, channel := 0, sample := 1, period := 0x1AC, volume := 64, cmd := 0xE, param := 0xD2 }]) := by
  decide +kernel
theorem test_evwav : ch0 (exec (.evwav 0 0 2) song) (·.vibWave.toNat) = some 2 := by decide +kernel

/-- V1.4 and V2.8. -/
theorem test_vsld_up_wins : ch0 (exec (.vsld 0 0 2 3) (songAt 1 (sounding 428 10))) (·.vol.toNat) = some 12 := by decide +kernel
theorem test_vsld_down : ch0 (exec (.vsld 0 0 0 5) (songAt 1 (sounding 428 3))) (·.outVol.toNat) = some 0 := by decide +kernel
theorem test_vol_over_default : ch0 (exec (.vol 0x1AC 1 0x20) song) (·.vol.toNat) = some 32 := by decide +kernel
theorem test_vol_clamp : ch0 (exec (.vol 0 0 0x50) song) (·.outVol.toNat) = some 64 := by decide +kernel
theorem test_efvu : ch0 (exec (.efvu 0 0 4) (songAt 0 (sounding 428 62))) (·.vol.toNat) = some 64 := by decide +kernel
theorem test_efvd : ch0 (exec (.efvd 0 0 4) (songAt 0 (sounding 428 2))) (·.vol.toNat) = some 0 := by decide +kernel
theorem test_ecut_before : ch0 (exec (.ecut 0 0 3) (songAt 2 (sounding 428 64))) (·.outVol.toNat) = some 64 := by decide +kernel
theorem test_ecut_at : ch0 (exec (.ecut 0 0 3) (songAt 3 (sounding 428 64))) (fun h => h.outVol.toNat * 2 + h.active.toNat) = some 1 := by
  decide +kernel

/-- 43_effects.md R242: the waveform is `y mod 4`. -/
theorem test_etwav : ch0 (exec (.etwav 0 0 7) song) (·.tremWave.toNat) = some 3 := by decide +kernel

/-- 42_sequencer.md R187: an `E50` note is looked up with finetune 0, whatever the sample's is. -/
theorem test_eftun : ch0 (exec (.eftun 0x1AC 1 0) { song with latch := { song.latch with
    samples := Vector.replicate 31 { SampleHdr.zero with len := 2000, vol := 64, ft := 15 } } }) (·.basePeriod.toNat) = some 428 := by decide +kernel

/-- V2.11. -/
theorem test_jump : seqOf (exec (.jump 0 0 0x02) song) (fun q => q.jumpTarget.toNat * 2 + q.jumpPending.toNat) = some 5 := by decide +kernel
theorem test_brk : seqOf (exec (.brk 0 0 1 15) song) (fun q => q.breakRow.toNat * 2 + q.breakPending.toNat) = some 51 := by decide +kernel
theorem test_brk_beyond : seqOf (exec (.brk 0 0 6 4) song) (fun q => q.breakRow.toNat * 2 + q.breakPending.toNat) = some 1 := by decide +kernel
theorem test_spd_speed : seqOf (exec (.spd 0 0 0x1F) song) (fun q => q.speedPending.toNat * 256 + q.tempo.toNat) = some (31 * 256 + 125) := by
  decide +kernel
theorem test_spd_tempo : seqOf (exec (.spd 0 0 0x20) song) (fun q => q.speedPending.toNat * 256 + q.tempo.toNat) = some 32 := by decide +kernel
theorem test_eloop_mark : ch0 (exec (.eloop 0 0 0) { song with seq := { song.seq with row := 4 } }) (·.loopRow.toNat) = some 4 := by decide +kernel
theorem test_eloop_back : seqOf (exec (.eloop 0 0 2) (songAt 0 { Channel.silent with loopRow := 4 }))
    (fun q => q.loopjumpRow.toNat * 2 + q.loopjumpPending.toNat) = some 9 := by decide +kernel
theorem test_epdly : seqOf (exec (.epdly 0 0 2) song) (·.delayCount.toNat) = some 2 := by decide +kernel
theorem test_epdly_repetition : seqOf (exec (.epdly 0 0 2) { song with seq := { song.seq with delayActive := true } }) (·.delayCount.toNat) = some 0 := by
  decide +kernel

/-- 43_effects.md R235, R238, R243, R250: nothing but the latch of the cell. -/
theorem test_efilt : next? (exec (.efilt 0 0 1) (songAt 0 (sounding 428 64))) = some (songAt 0 { sounding 428 64 with cmd := 0xE, param := 0x01 }) := by
  decide +kernel
theorem test_eglis : next? (exec (.eglis 0 0 1) (songAt 0 (sounding 428 64))) = some (songAt 0 { sounding 428 64 with cmd := 0xE, param := 0x31 }) := by
  decide +kernel
theorem test_eun8 : next? (exec (.eun8 0 0 1) (songAt 0 (sounding 428 64))) = some (songAt 0 { sounding 428 64 with cmd := 0xE, param := 0x81 }) := by
  decide +kernel
theorem test_einv : next? (exec (.einv 0 0 1) (songAt 0 (sounding 428 64))) = some (songAt 0 { sounding 428 64 with cmd := 0xE, param := 0xF1 }) := by
  decide +kernel

/-! ## The host commands: 95_test_vectors.md V2.13 -/

theorem test_start_empty : (next? (exec .start State.reset)).map (fun s => (s.seqState, s.error)) = some (.stopped, .truncatedData) := by
  decide +kernel
theorem test_start_playing : next? (exec .start song) = some song := by decide +kernel
theorem test_pause : (next? (exec .pause song)).map (fun s => (s.seqState, s.pauseReq)) = some (.playing, true) := by decide +kernel
theorem test_pause_stopped : next? (exec .pause State.reset) = some State.reset := by decide +kernel
theorem test_resume : (next? (exec .resume { song with pauseReq := true })).map (·.pauseReq) = some false := by decide +kernel
theorem test_stop : (next? (exec .stop { song with pauseReq := true })).map (fun s => (s.seqState, s.pauseReq)) = some (.stopped, false) := by
  decide +kernel
theorem test_nop : next? (exec .nop song) = some song := by decide +kernel
theorem test_rsvd5 : next? (exec .rsvd5 song) = some song := by decide +kernel
theorem test_rsvd6 : next? (exec .rsvd6 song) = some song := by decide +kernel
theorem test_rsvd7 : next? (exec .rsvd7 song) = some song := by decide +kernel

/-- The host reads TIMING after reset (70_reset_and_hazards.md R362). -/
theorem test_read_timing : (next? (step { State.reset with inputs := [.regRead 0x03] })).map (·.readData) = some 0x0000067D#32 := by decide +kernel

/-- A write of CFG_RATE below 8000 is ignored. -/
theorem test_write_rate : (next? (step { State.reset with inputs := [.regWrite 0x09 7999] })).map (·.cfg.rate) = some 44100 := by decide +kernel

/-! ## Frames -/

/-- The song with the sample's first byte 64, sounding on channel 0 at 428 and volume 64. -/
def sounds : State := { songAt 0 (sounding 428 64) with mem := [(2108, 64)] }

/-- V2.10 and V1.6: the first frame is (8192, 0). -/
theorem test_frame : (next? (step sounds)).map (fun s => (s.ring, (s.getCh 0).posInt, (s.getCh 0).posFrac, s.clk.frameInTick))
    = some ([{ left := 8192, right := 0 }], 0, 12315, 1) := by decide +kernel

/-- V2.10: linear interpolation, rounded down. -/
theorem test_interpolate : interpolate 10 20 0x8000 = 15 ∧ interpolate 0 (-1) 1 = -1 ∧ interpolate (-128) 127 0xFFFF = 126 := by decide

/-- V2.10: the loop of 50 frames from 100, at 150.2. -/
theorem test_loop_wrap : (endCheck { SampleHdr.zero with len := 200, loopStart := 100, loopLen := 50, loopEn := true } { sounding 428 64 with posInt := 150 }).posInt
    = 100 := by decide +kernel

/-- V1.2: a tempo of 150 set in tick 0 gives tick 1 of 735 frames. -/
theorem test_tempo_next_tick : (next? (step { song with seq := { song.seq with tempo := 150 }, clk := { fptLatched := 882, frameInTick := 882 } })).map
    (fun s => (s.clk.fptLatched, s.clk.frameInTick, s.seq.tick)) = some (735, 1, 1) := by decide +kernel

/-- V2.11: the end of a song of length 1 with restart 127. -/
theorem test_finish : (next? (step { song with
    seq := { song.seq with row := 63, tick := 5 }, clk := { fptLatched := 882, frameInTick := 882 } })).map
    (fun s => (s.seqState, s.seq.row, s.seq.tick, s.ring.length)) = some (.finished, 63, 0, 0) := by decide +kernel

/-! ## What the host asks: the first instruction after reset -/

theorem test_fetch_vol : (next? (step (State.reset.withFetchWord 16 0xC50))).map (fun s => (s.getCh 3).vol) = some 64 := by decide +kernel
theorem test_fetch_start : (next? (step (State.reset.withFetchWord 8 1))).map (·.error) = some .truncatedData := by decide +kernel

/-! ## START on an image -/

/-- The header of an image: sample 1 of `words` words and no other, the song length, the order bytes, and `M.K.` but for its
last byte (30_encoding.md R92 to R97). The other bytes are not written. -/
def image (words sl : Byte) (orders : List Byte) (last : Byte) : Memory :=
  ((List.range 31).flatMap fun i => [(20 + 30 * i + 22, 0), (20 + 30 * i + 23, if i = 0 then words else 0)])
    ++ (950, sl) :: (951, 0x7F) :: (List.range 128).map (fun i => (952 + i, orders.getD i 0))
    ++ [(1080, 0x4D), (1081, 0x2E), (1082, 0x4B), (1083, last)]

/-- The block after reset with an image of a given length. -/
def loaded (m : Memory) (len : BitVec 32) : State :=
  { State.reset with mem := m, cfg := { State.reset.cfg with moduleLen := len } }

/-- 95_test_vectors.md V2.14: the base image, 2208 bytes. -/
theorem test_start_error_free : (next? (exec .start (loaded (image 50 1 [] 0x2E) 2208))).map (fun s => (s.seqState, s.error, s.latch.chanCount,
    s.latch.patCount, s.latch.smpBase, s.clk.fptLatched)) = some (.playing, .none, 4, 1, 2108, 882) := by decide +kernel

theorem test_start_errors :
    (next? (exec .start (loaded (image 50 1 [] 0x2E) 2207))).map (·.error) = some .truncatedData
    ∧ (next? (exec .start (loaded (image 50 1 [] 0x58) 2208))).map (·.error) = some .unknownSignature
    ∧ (next? (exec .start (loaded (image 50 129 [] 0x2E) 2208))).map (·.error) = some .patternIndexOutOfRange
    ∧ (next? (exec .start (loaded (image 50 1 [0, 0, 0, 0, 0, 200] 0x2E) 2208))).map (·.error) = some .patternIndexOutOfRange := by
  decide +kernel

/-! ## Witnesses: what meets the hypotheses of each statement -/

theorem witness_DecodeOfEncode : (Instr.arp 0xFFF 0xFF 15 15).wf = true ∧ (Instr.arp 0 0 0 1).wf = true ∧ (Instr.einv 0 0 0).wf = true := by decide

/-- The song, with one step of an agent to come. -/
def takes (s : State) (i : Input) : State := { s with inputs := [i] }

theorem witness_PlatformReset : (takes song .reset).phase = .idle ∧ (takes song .reset).inputs = .reset :: [] := by decide

theorem witness_RegisterFields : song.ring.length < 2 ^ 16 ∧ song.evq.length < 2 ^ 16 ∧ 0x0D ≤ (0x0D#8).toNat ∧ 0x0D ≤ (0xFF#8).toNat
    ∧ State.reset.seqState = .stopped ∧ song.seqState = .playing ∧ ({ song with seqState := .paused } : State).seqState = .paused
    ∧ ({ song with seqState := .finished } : State).seqState = .finished ∧ song.error = .none
    ∧ (∀ e : ErrorCode, ({ song with error := e } : State).error = e) := by
  refine ⟨by decide, by decide, by decide, by decide, rfl, rfl, rfl, rfl, rfl, fun _ => rfl⟩

theorem witness_RegisterAccess :
    (takes song (.regRead 0)).phase = .idle ∧ (takes song (.regRead 0)).inputs = .regRead 0 :: []
    ∧ (∀ v : Word, (takes song (.regWrite 0x09 v)).inputs = .regWrite 0x09 v :: []) ∧ (0x09#8 : BitVec 8) ≠ 0x00#8
    ∧ song.seqState = .playing ∧ State.reset.seqState = .stopped ∧ ({ song with seqState := .finished } : State).seqState = .finished
    ∧ ({ song with seqState := .paused } : State).seqState = .paused
    ∧ (0x08#8).toNat < 0x09 ∧ 0x0C < (0x0D#8).toNat ∧ (7999#32).toNat % 2 ^ 18 < 8000 ∧ 192000 < (192001#32).toNat % 2 ^ 18
    ∧ 8000 ≤ (8000#32).toNat % 2 ^ 18 ∧ (192000#32).toNat % 2 ^ 18 ≤ 192000 := by
  refine ⟨rfl, rfl, fun _ => rfl, ?_⟩; decide

theorem witness_CtrlStepRunsCommand : (takes song (.regWrite 0 0xFFFFFFFC)).phase = .idle
    ∧ (takes song (.regWrite 0 0xFFFFFFFC)).inputs = .regWrite 0x00#8 0xFFFFFFFC :: []
    ∧ decode .ctrl (wordBytes 0xFFFFFFFC#32) = .ok (.stop, []) := by decide

/-- An image as StartBeginsSong and StartStepPlaysFirstTick ask for it. -/
def Loads (s : State) (c : Nat) : Prop :=
  1084 ≤ s.cfg.moduleLen.toNat ∧ signatureChannels (quad (byteAt s headerReader) 1080) = some c
    ∧ 1 ≤ (byteAt s headerReader 950).toNat ∧ (byteAt s headerReader 950).toNat ≤ 128
    ∧ (∀ i : Nat, i < 128 → (byteAt s headerReader (952 + i)).toNat < 128)
    ∧ declaredLen (byteAt s headerReader) c ≤ s.cfg.moduleLen.toNat

theorem witness_StartBeginsSong :
    ((loaded (image 50 1 [] 0x2E) 2208).seqState = .stopped ∧ Loads (loaded (image 50 1 [] 0x2E) 2208) 4)
    ∧ (({ loaded (image 0 128 [127] 0x2E) 132156 with seqState := .finished } : State).seqState = .finished
      ∧ Loads { loaded (image 0 128 [127] 0x2E) 132156 with seqState := .finished } 4) := by
  unfold Loads; decide +kernel

theorem witness_StartReportsFirstError :
    (loaded [] 1083).cfg.moduleLen.toNat < 1084
    ∧ (1084 ≤ (loaded (image 0 1 [] 0x58) 1084).cfg.moduleLen.toNat
      ∧ signatureChannels (quad (byteAt (loaded (image 0 1 [] 0x58) 1084) headerReader) 1080) = none)
    ∧ (signatureChannels (quad (byteAt (loaded (image 0 0 [] 0x2E) 1084) headerReader) 1080) = some 4
      ∧ (byteAt (loaded (image 0 0 [] 0x2E) 1084) headerReader 950).toNat = 0)
    ∧ (signatureChannels (quad (byteAt (loaded (image 0 129 [] 0x2E) 1084) headerReader) 1080) = some 4
      ∧ 128 < (byteAt (loaded (image 0 129 [] 0x2E) 1084) headerReader 950).toNat)
    ∧ ((byteAt (loaded (image 0 128 [128] 0x2E) 1084) headerReader 950).toNat ≤ 128
      ∧ 128 ≤ (byteAt (loaded (image 0 128 [128] 0x2E) 1084) headerReader (952 + 0)).toNat)
    ∧ ((∀ i : Nat, i < 128 → (byteAt (loaded (image 50 1 [] 0x2E) 2207) headerReader (952 + i)).toNat < 128)
      ∧ (loaded (image 50 1 [] 0x2E) 2207).cfg.moduleLen.toNat < declaredLen (byteAt (loaded (image 50 1 [] 0x2E) 2207) headerReader) 4) := by
  decide +kernel

theorem witness_StartStepPlaysFirstTick :
    let s := takes (loaded (image 50 1 [] 0x2E) 2208) (.regWrite 0x00 0xFFFFFFF9)
    s.phase = .idle ∧ s.inputs = .regWrite 0x00#8 0xFFFFFFF9 :: [] ∧ (0xFFFFFFF9#32).toNat % 8 = 1 ∧ s.seqState = .stopped
      ∧ s.dutyBroken = false ∧ Loads s 4 := by
  unfold Loads; decide +kernel

theorem witness_PauseResumeStop : song.seqState = .playing ∧ ({ song with seqState := .paused } : State).seqState = .paused
    ∧ State.reset.seqState = .stopped ∧ ({ song with seqState := .finished } : State).seqState = .finished
    ∧ ({ song with seqState := .finished } : State).seqState ≠ .stopped := by decide

theorem witness_CtrlCommands : (0xFFFFFFF8#32).toNat % 8 = 0 ∧ (1#32).toNat % 8 = 1 ∧ (2#32).toNat % 8 = 2 ∧ (3#32).toNat % 8 = 3
    ∧ (4#32).toNat % 8 = 4 ∧ (5#32).toNat % 8 = 5 ∧ (6#32).toNat % 8 = 6 ∧ (0xFFFFFFFF#32).toNat % 8 = 7 := by decide

theorem witness_TickStepRunsCell :
    (let s := State.reset.withFetchWord 16 0xC50
     s.chan.val < s.latch.chanCount.toNat ∧ decode .cell (cellBytes s s.chan) = .ok (.vol 0 0 0x50, []) ∧ s.phase = .startCells)
    ∧ (let s : State := { songAt 1 { Channel.silent with cmd := 0xA, param := 0x20 } with phase := .frameCells }
     s.chan.val < s.latch.chanCount.toNat ∧ decode .cell (cellBytes s s.chan) = .ok (.vsld 0 0 2 0, []) ∧ s.phase = .frameCells) := by
  decide +kernel

/-- Tick 0, for every statement about a trigger phase. -/
theorem witness_trigger : song.seq.tick = 0#5 := by decide

/-- Continuation ticks, the first and the last, for every statement about one. -/
theorem witness_TriggerOnlyEffectsContinueIdle : (songAt 1 (sounding 428 64)).seq.tick ≠ 0#5 ∧ (songAt 31 (sounding 428 64)).seq.tick ≠ 0#5 := by decide

theorem witness_NotePartOnlyTriggers : song.seq.tick = 0#5 ∧ (1#4) ≠ 0#4 ∧ (15#4) ≠ 0#4 ∧
    ((.pup 0x1AC 1 4, ⟨0x1AC, 1, 0x1#4, 4⟩) : Instr × Cell) ∈ ([(.noEffect 0x1AC 1, ⟨0x1AC, 1, 0x0#4, 0x00#8⟩),
      (.arp 0x1AC 1 0 4, ⟨0x1AC, 1, 0x0#4, joinNibbles 0 4⟩), (.pup 0x1AC 1 4, ⟨0x1AC, 1, 0x1#4, 4⟩)] : List (Instr × Cell)) := by decide

theorem witness_VolumeSetInTrigger : (songAt 0 (sounding 428 64)).seq.tick = 0#5 := by decide

theorem witness_TremoloEffect : song.seq.tick = 0#5
    ∧ (songAt 1 { sounding 428 32 with tremPos := 31 }).seq.tick ≠ 0#5
    ∧ ((songAt 1 { sounding 428 32 with tremPos := 31 }).getCh 0).tremPos.toNat < 32
    ∧ ¬((songAt 1 { sounding 428 32 with tremPos := 32 }).getCh 0).tremPos.toNat < 32 := by decide +kernel

theorem witness_VibratoEffect : song.seq.tick = 0#5 ∧ (songAt 1 Channel.silent).seq.tick ≠ 0#5 ∧ (songAt 1 Channel.silent).chan = 0
    ∧ ((songAt 1 Channel.silent).getCh 0).basePeriod = 0#12
    ∧ (let h := (songAt 1 { sounding 4066 64 with vibPos := 31, vibDepth := 15, vibWave := 2 }).getCh 0
       h.basePeriod ≠ 0#12 ∧ h.vibPos.toNat < 32 ∧ h.basePeriod.toNat + wave h.vibWave h.vibPos * h.vibDepth.toNat / 128 ≤ 4095)
    ∧ (let h := (songAt 1 { sounding 29 64 with vibPos := 32, vibDepth := 15, vibWave := 2 }).getCh 0
       h.basePeriod ≠ 0#12 ∧ 32 ≤ h.vibPos.toNat ∧ wave h.vibWave h.vibPos * h.vibDepth.toNat / 128 ≤ h.basePeriod.toNat) := by
  decide +kernel

theorem witness_TonePortamentoEffect : song.seq.tick = 0#5 ∧ (songAt 1 (sounding 428 64)).seq.tick ≠ 0#5
    ∧ Channel.silent.basePeriod = 0#12 ∧ (sounding 428 64).basePeriod ≠ 0#12 ∧ (sounding 428 64).portaTarget = 0#12
    ∧ (let h := { sounding 428 64 with portaTarget := 428 }; h.portaTarget ≠ 0#12 ∧ h.basePeriod.toNat ≤ h.portaTarget.toNat)
    ∧ (let h := { sounding 428 64 with portaTarget := 427 }; h.portaTarget ≠ 0#12 ∧ h.portaTarget.toNat < h.basePeriod.toNat) := by decide

theorem witness_VolumeSlides : (songAt 1 (sounding 428 64)).seq.tick ≠ 0#5 ∧ (1#4) ≠ 0#4 := by decide

theorem witness_PortamentoUpDown : (songAt 1 (sounding 113 64)).seq.tick ≠ 0#5 ∧ ((songAt 1 Channel.silent).getCh 0).basePeriod = 0#12
    ∧ ((songAt 1 (sounding 113 64)).getCh 0).basePeriod ≠ 0#12 := by decide +kernel

theorem witness_FinePortamento : song.seq.tick = 0#5
    ∧ (noteResult song ⟨0, 0, 0xE#4, joinNibbles 0x1#4 2⟩).basePeriod = 0#12 ∧ (noteResult song ⟨0, 0, 0xE#4, joinNibbles 0x2#4 2⟩).basePeriod = 0#12
    ∧ (noteResult song ⟨0x1AC, 1, 0xE#4, joinNibbles 0x1#4 2⟩).basePeriod ≠ 0#12
    ∧ (noteResult song ⟨0x1AC, 1, 0xE#4, joinNibbles 0x2#4 2⟩).basePeriod ≠ 0#12 := by decide +kernel

theorem witness_ArpeggioEffect : (songAt 3 (sounding 428 64)).seq.tick ≠ 0#5 ∧ Channel.silent.basePeriod = 0#12 ∧ (sounding 428 64).basePeriod ≠ 0#12
    ∧ (songAt 3 (sounding 428 64)).seq.tick.toNat % 3 = 0 ∧ (songAt 1 (sounding 428 64)).seq.tick.toNat % 3 = 1
    ∧ (songAt 2 (sounding 428 64)).seq.tick.toNat % 3 = 2
    ∧ (periodTable 0 12).toNat ≤ (sounding 428 64).basePeriod.toNat ∧ (sounding 428 64).basePeriod.toNat < (periodTable 0 11).toNat := by decide +kernel

theorem witness_WaveformsAndFinetune : (songAt 0 (sounding 428 64)).seq.tick = 0#5 := by decide

theorem witness_SetPanning : ({ song with act := { song.act with pan := true } } : State).seq.tick = 0#5 := by decide

theorem witness_SampleOffset : song.seq.tick = 0#5 ∧ hasNotePart ⟨0x1AC, 1, 0x9#4, 4⟩ = true ∧ noopNote song ⟨0x1AC, 1, 0x9#4, 4⟩ = false := by
  decide +kernel

theorem witness_JumpAndBreak : song.seq.tick = 0#5 ∧ 10 * (6#4).toNat + (3#4).toNat ≤ 63 ∧ ¬10 * (6#4).toNat + (4#4).toNat ≤ 63 := by decide

theorem witness_SpeedAndTempo : song.seq.tick = 0#5 ∧ (0#8).toNat = 0 ∧ 1 ≤ (1#8).toNat ∧ (31#8).toNat ≤ 31 ∧ 32 ≤ (32#8).toNat := by decide

theorem witness_PatternLoop : song.seq.tick = 0#5 ∧ song.seq.delayActive = false
    ∧ ({ song with seq := { song.seq with delayActive := true } } : State).seq.delayActive = true ∧ (1#4) ≠ 0#4
    ∧ (noteResult song ⟨0, 0, 0xE#4, joinNibbles 0x6#4 2⟩).loopCount = 0#4
    ∧ (noteResult (songAt 0 { Channel.silent with loopCount := 1 }) ⟨0, 0, 0xE#4, joinNibbles 0x6#4 2⟩).loopCount = 1#4
    ∧ (noteResult (songAt 0 { Channel.silent with loopCount := 2 }) ⟨0, 0, 0xE#4, joinNibbles 0x6#4 2⟩).loopCount = 2#4 := by decide +kernel

theorem witness_PatternDelay : song.seq.tick = 0#5 ∧ song.seq.delayActive = false
    ∧ ({ song with seq := { song.seq with delayActive := true } } : State).seq.delayActive = true := by decide

theorem witness_RetriggerEffect : (songAt 4 (sounding 428 64)).seq.tick ≠ 0#5 ∧ (2#4) ≠ 0#4
    ∧ (songAt 4 (sounding 428 64)).seq.tick.toNat % (2#4).toNat = 0 ∧ (songAt 5 (sounding 428 64)).seq.tick.toNat % (2#4).toNat ≠ 0 := by decide

theorem witness_NoteCut : song.seq.tick = 0#5 ∧ (songAt 15 (sounding 428 64)).seq.tick ≠ 0#5
    ∧ (songAt 15 (sounding 428 64)).seq.tick.toNat = (15#4).toNat ∧ (songAt 16 (sounding 428 64)).seq.tick.toNat ≠ (0#4).toNat := by decide

theorem witness_NoteDelayReleases :
    (let s := songAt 2 { Channel.silent with cmd := 0xE, param := 0xD2, dlyPeriod := 0x1AC, dlySmp := 1 }
     let h := s.getCh 0
     s.seq.tick ≠ 0#5 ∧ s.seq.tick.toNat = (2#4).toNat ∧ s.seq.tick.toNat ≠ (3#4).toNat ∧ hiNibble h.param = 0xD#4
       ∧ noopNote s ⟨h.dlyPeriod, h.dlySmp, 0xE#4, h.param⟩ = false)
    ∧ (let s := songAt 2 { Channel.silent with cmd := 0xE, param := 0xD2, dlyPeriod := 0x1AC, dlySmp := 32 }
       let h := s.getCh 0
       noopNote s ⟨h.dlyPeriod, h.dlySmp, 0xE#4, h.param⟩ = true) := by decide +kernel

/-- The song with every sample empty. -/
def emptySong : State := { song with latch := { song.latch with samples := Vector.replicate 31 SampleHdr.zero } }

theorem witness_NoopNoteIgnored : song.seq.tick = 0#5 ∧ (32#8) ≠ 0#8 ∧ 32 ≤ (32#8).toNat
    ∧ emptySong.seq.tick = 0#5 ∧ (31#8) ≠ 0#8 ∧ (emptySong.hdr (31#8).toNat).len = 0#17
    ∧ (0xE#4) ≠ 0xC#4 ∧ hiNibble 0xC1#8 ≠ 0xA#4 ∧ hiNibble 0xC1#8 ≠ 0xB#4 ∧ 0xC1#8 ≠ 0xC0#8
    ∧ hiNibble 0xC1#8 ≠ 0x1#4 ∧ hiNibble 0xC1#8 ≠ 0x2#4 ∧ hiNibble 0xC1#8 ≠ 0x5#4 := by decide +kernel

theorem witness_SampleNumberBinds : song.seq.tick = 0#5 ∧ heldNote ⟨0, 1, 0xE#4, 0xD0#8⟩ = false ∧ heldNote ⟨0, 1, 0xC#4, 0x10#8⟩ = false
    ∧ (0xE#4) ≠ 0xC#4 ∧ hiNibble 0xD0#8 ≠ 0xA#4 ∧ hiNibble 0xD0#8 ≠ 0xB#4 ∧ 0xD0#8 ≠ 0xC0#8
    ∧ 1 ≤ (1#8).toNat ∧ (31#8).toNat ≤ 31 ∧ (song.hdr (1#8).toNat).len ≠ 0#17 ∧ (song.hdr (31#8).toNat).len ≠ 0#17 := by decide +kernel

theorem witness_CellsNeverFault : (Instr.noEffect 0 0).space = .cell ∧ (Instr.einv 0xFFF 0xFF 15).space = .cell := by decide

theorem witness_LookupSnapsToTable : 856 ≤ (856#12).toNat ∧ (113#12).toNat ≤ 113 ∧ (856#12) = periodTable 0 0 ∧ (113#12) = periodTable 0 35
    ∧ (429#12).toNat < (periodTable 0 11).toNat ∧ (periodTable 0 12).toNat ≤ (429#12).toNat := by decide +kernel

theorem witness_RowAdvanceOrder : song.latch.songLen.toNat ≤ 128
    ∧ ({ song.seq with delayCount := 15 } : SeqRegs).delayCount ≠ 0#4 ∧ song.seq.delayCount = 0#4
    ∧ 0 < song.latch.songLen.toNat ∧ song.latch.songLen.toNat ≤ 1 ∧ song.latch.songLen.toNat ≤ song.latch.restart.toNat
    ∧ (0x00#8).toNat < song.latch.songLen.toNat := by decide

/-- The targets of the next row, the next order, a jump with a break, a break and a loop jump. -/
theorem witness_RowTarget_row : RowTarget song.seq 0 1#6 := by simp [RowTarget, song, State.reset, SeqRegs.initial]
theorem witness_RowTarget_order : RowTarget { song.seq with row := 63 } 1 0#6 := by simp [RowTarget, song, State.reset, SeqRegs.initial]
theorem witness_RowTarget_jump : RowTarget { song.seq with jumpPending := true, jumpTarget := 255, breakPending := true, breakRow := 63 } 255 63#6 := by
  simp [RowTarget, song, State.reset, SeqRegs.initial]
theorem witness_RowTarget_break : RowTarget { song.seq with breakPending := true, breakRow := 32 } 1 32#6 := by simp [RowTarget, song, State.reset, SeqRegs.initial]
theorem witness_RowTarget_loop : RowTarget { song.seq with loopjumpPending := true, loopjumpRow := 4 } 0 4#6 := by simp [RowTarget, song, State.reset, SeqRegs.initial]

/-- A FRAME step of a state that the schedule has next, and of one whose schedule is empty. -/
theorem witness_FrameBegins (s : State) (h : s.phase = .idle) :
    FrameBegins (takes s .frame) { s with inputs := [], draws := s.draws + 1 }
    ∧ FrameBegins { s with inputs := [] } { s with inputs := [], draws := s.draws + 1 } :=
  ⟨⟨h, .inl ⟨[], rfl, rfl⟩⟩, ⟨h, .inr ⟨rfl, rfl⟩⟩⟩

/-- A mix that completes, seen through a Bool. -/
theorem mix_of_isOk {s : State} (h : (match mix s with | .ok _ => true | .error _ => false) = true) : ∃ u f, mix s = .ok (u, f) := by
  split at h
  · rename_i r hr; exact ⟨r.1, r.2, hr⟩
  · cases h

theorem witness_FrameStepOrder : FrameBegins song { song with draws := 1 } ∧ song.seqState = .playing ∧ song.ring.length < ringDepth
    ∧ song.clk.frameInTick.toNat < song.clk.fptLatched.toNat ∧ song.pauseReq = false
    ∧ (let s : State := { song with clk := { fptLatched := 882, frameInTick := 882 } }; s.clk.fptLatched.toNat ≤ s.clk.frameInTick.toNat)
    ∧ song.seq.tick.toNat + 1 ≠ song.seq.speed.toNat ∧ ({ song.seq with tick := 5 } : SeqRegs).tick.toNat + 1 = song.seq.speed.toNat
    ∧ (rowAdvance song).seqState ≠ .finished ∧ (rowAdvance { song with seq := { song.seq with row := 63 } }).seqState = .finished
    ∧ ({ song with seqState := .stopped } : State).seqState = .stopped
    ∧ ({ song with seqState := .paused } : State).seqState = .paused ∧ song.seqState ≠ .paused
    ∧ (∃ u f, mix song = .ok (u, f))
    ∧ ringDepth ≤ (List.replicate ringDepth (Frame.mk 0 0)).length := by
  refine ⟨⟨rfl, .inr ⟨rfl, rfl⟩⟩, rfl, Nat.succ_pos _, by decide, rfl, by decide, by decide, by decide, by decide +kernel, by decide +kernel, rfl,
    rfl, nofun, mix_of_isOk (by decide +kernel), ?_⟩
  rw [List.length_replicate]

theorem witness_PausedFrames : FrameBegins song { song with draws := 1 } ∧ song.ring.length < ringDepth
    ∧ (let s : State := { song with pauseReq := true, clk := { fptLatched := 882, frameInTick := 882 } }
       s.clk.fptLatched.toNat ≤ s.clk.frameInTick.toNat ∧ s.pauseReq = true ∧ s.seqState = .playing)
    ∧ (let s : State := { song with seqState := .paused, clk := { fptLatched := 882, frameInTick := 881 } }
       s.clk.frameInTick.toNat < s.clk.fptLatched.toNat ∧ s.seqState = .paused) :=
  ⟨⟨rfl, .inr ⟨rfl, rfl⟩⟩, Nat.succ_pos _, by decide, by decide⟩

/-- An answer that is a next state, seen through `next?`. -/
theorem next_of_some {a : Answer} (h : (next? a).isSome = true) : ∃ t, a = .next t := by
  cases a with
  | next t => exact ⟨t, rfl⟩
  | fault _ => simp [next?] at h
  | refused _ => simp [next?] at h

theorem witness_FrameStepCounts : FrameBegins sounds { sounds with draws := 1 } ∧ sounds.seqState = .playing ∧ sounds.ring.length < ringDepth
    ∧ sounds.clk.frameInTick.toNat < sounds.clk.fptLatched.toNat ∧ 32 ≤ sounds.seq.tempo.toNat ∧ 8000 ≤ sounds.act.rate.toNat
    ∧ sounds.act.rate.toNat ≤ 192000 ∧ (∃ u f, mix { sounds with draws := 1 } = .ok (u, f)) ∧ ∃ t, step sounds = .next t :=
  ⟨⟨rfl, .inr ⟨rfl, rfl⟩⟩, rfl, Nat.succ_pos _, by decide, by decide, by decide, by decide, mix_of_isOk (by decide +kernel),
    next_of_some (by decide +kernel)⟩

theorem witness_TickAndStepRanges : 32 ≤ 32 ∧ 255 ≤ 255 ∧ 8000 ≤ 8000 ∧ 192000 ≤ 192000 ∧ framesPerTick 32 192000 = 15000 ∧ framesPerTick 255 8000 = 78
    ∧ cursorStep 1 8000 = 29056163 ∧ cursorStep 4095 192000 = 295 := by decide +kernel

theorem witness_ScalingRange : (-128 : Int) ≤ -128 ∧ (127 : Int) ≤ 127 ∧ (64#7).toNat ≤ 64 ∧ scaleValue (-128) 64 255 = -32640
    ∧ scaleValue 127 64 255 = 32385 := by decide +kernel

/-- A looping header of 200 frames, its loop the last 50. -/
def loopHdr : SampleHdr := { SampleHdr.zero with len := 200, loopStart := 150, loopLen := 50, loopEn := true }

theorem witness_InterpolationAndEnd : 65535 < 65536 ∧ loopHdr.loopEn = true ∧ 1 ≤ loopHdr.loopLen.toNat
    ∧ loopHdr.loopStart.toNat + loopHdr.loopLen.toNat ≤ loopHdr.len.toNat
    ∧ ({ sounding 428 64 with posInt := 199 } : Channel).posInt.toNat < loopHdr.loopStart.toNat + loopHdr.loopLen.toNat
    ∧ loopHdr.loopStart.toNat + loopHdr.loopLen.toNat ≤ ({ sounding 428 64 with posInt := 200 } : Channel).posInt.toNat
    ∧ (song.hdr 1).loopEn = false ∧ ({ sounding 428 64 with posInt := 1999 } : Channel).posInt.toNat < (song.hdr 1).len.toNat
    ∧ (song.hdr 1).len.toNat ≤ ({ sounding 428 64 with posInt := 2000 } : Channel).posInt.toNat := by decide +kernel

theorem witness_MixIsClampedSum : (∃ t f, mix sounds = .ok (t, f)) ∧ (0 : Fin 8).val < sounds.latch.chanCount.toNat
    ∧ (sounds.getCh 0).active = true ∧ (sounds.getCh 0).smp ≠ 0#5 ∧ (sounds.getCh 0).outPeriod ≠ 0#12
    ∧ (sounds.getCh 3).active = false ∧ sounds.latch.chanCount.toNat ≤ (4 : Fin 8).val := by
  exact ⟨mix_of_isOk (by decide +kernel), by decide +kernel⟩

theorem witness_SampleSoundsExactly : (song.hdr 1).loopEn = false ∧ (sounding 428 64).active = true ∧ (sounding 428 64).posInt = 0#18
    ∧ (sounding 428 64).posFrac = 0#16 ∧ (sounding 428 64).outPeriod ≠ 0#12 ∧ 8000 ≤ (44100#18).toNat ∧ (44100#18).toNat ≤ 192000
    ∧ 1 ≤ (song.hdr 1).len.toNat ∧ (song.hdr 1).len.toNat ≤ 131070 := by decide +kernel

theorem witness_QueuesFirstInFirstOut : (takes song .sinkPop).phase = .idle ∧ (takes song .sinkPop).inputs = .sinkPop :: []
    ∧ (takes song .evPop).inputs = .evPop :: [] ∧ song.ring = [] ∧ song.evq = []
    ∧ ({ song with ring := [Frame.mk 1 2] } : State).ring = Frame.mk 1 2 :: []
    ∧ ({ song with evq := [NoteEvent.mk 0 0 1 428 64 0 0] } : State).evq = NoteEvent.mk 0 0 1 428 64 0 0 :: []
    ∧ song.evq.length < evqDepth ∧ evqDepth ≤ (List.replicate evqDepth (NoteEvent.mk 0 0 1 428 64 0 0)).length := by
  refine ⟨rfl, rfl, rfl, rfl, rfl, rfl, rfl, Nat.succ_pos _, ?_⟩
  rw [List.length_replicate]

theorem witness_SinkFailure : (takes song .sinkFail).phase = .idle ∧ (takes song .sinkFail).inputs = .sinkFail :: [] := by decide

theorem witness_HostMemoryWrite : (takes song (.memWrite 0xFFFFFFFF 1)).phase = .idle
    ∧ (takes song (.memWrite 0xFFFFFFFF 1)).inputs = .memWrite 0xFFFFFFFF 1 :: [] ∧ State.reset.dutyBroken = false
    ∧ State.reset.seqState = .stopped ∧ song.seqState = .playing
    ∧ (takes sounds (.memRead 2108)).phase = .idle ∧ (takes sounds (.memRead 2108)).inputs = .memRead 2108 :: []
    ∧ (takes sounds (.memRead 2108)).mem.get (2108#32).toNat = some 64 ∧ (takes sounds (.memRead 2109)).mem.get (2109#32).toNat = none := by
  decide

theorem witness_MemoryAndQueuesKept : sounds.phase = .idle ∧ Memory.wf sounds.mem = true ∧ QueuesFit sounds ∧ ∃ t, step sounds = .next t :=
  ⟨rfl, by decide, ⟨Nat.zero_le _, Nat.zero_le _⟩, next_of_some (by decide +kernel)⟩

/-- Every sample header of the sounding song is the one it was built with, or the zero header. -/
theorem sounds_hdr (n : Nat) : sounds.hdr n = if 1 ≤ n ∧ n ≤ 31 then songHdr else SampleHdr.zero := by
  have hs : sounds.latch.samples = Vector.replicate 31 songHdr := rfl
  by_cases h : 1 ≤ n ∧ n ≤ 31
  · simp only [State.hdr, dif_pos h, if_pos h, hs, Vector.getElem_replicate]
  · simp only [State.hdr, dif_neg h, if_neg h]

/-- The sounding song is one that a run may be in: for ReadsStayInImage. -/
theorem witness_SongLoaded : SongLoaded sounds where
  channels := by decide
  order := by decide
  songLen := by decide
  patterns := by decide
  orderTab := by decide +kernel
  smpBase := by decide
  payload := by
    intro n h1 h2
    rw [sounds_hdr, if_pos ⟨h1, h2⟩]; decide
  loops := by
    intro n h
    rw [sounds_hdr] at h
    split at h <;> exact absurd h (by decide)
  defaults := by intro n; rw [sounds_hdr]; split <;> decide
  rate := by decide
  clock := by decide
  cursor := by decide +kernel

/-- A memory that agrees with the song's on the image and differs beyond it, and a sounding channel. -/
theorem witness_ReadsStayInImage : (∀ who a : Nat, a < sounds.act.len.toNat →
      byteAt { sounds with mem := [(2108, 64), (4108, 1)] } who a = byteAt sounds who a)
    ∧ sounds.mem ≠ [(2108, 64), (4108, 1)] ∧ silentChannel (sounds.getCh 0) = false ∧ (0 : Fin 8).val < sounds.latch.chanCount.toNat := by
  refine ⟨fun who a ha => ?_, by decide +kernel⟩
  have h : a ≠ 4108 := fun e => by rw [e] at ha; exact absurd ha (by decide)
  simp only [byteAt, show sounds.mem = [(2108, 64)] from rfl, Memory.get, if_neg h]

/-- The same, for SongInvariantKept and NeverStops. -/
theorem witness_SongInv : SongInv sounds where
  idle := by decide
  speed := by decide
  tick := by decide
  tempo := by decide
  volumes := by decide +kernel
  cfgRate := by decide
  song := fun _ => witness_SongLoaded

theorem witness_SongInvariantKept : SongInv sounds ∧ ∃ t, step sounds = .next t := ⟨witness_SongInv, next_of_some (by decide +kernel)⟩

/-- The steps of the whole-machine rules: an agent's step that is neither a reset, a host write of memory nor a host read of
registers 7 and 8, in a song that plays. -/
theorem witness_StateTransitions : sounds.phase = .idle ∧ sounds.seqState = .playing
    ∧ (∀ rest : List Input, sounds.inputs ≠ .reset :: rest)
    ∧ (∀ (a : BitVec 32) (v : Byte) (rest : List Input), sounds.inputs ≠ .memWrite a v :: rest)
    ∧ (∀ rest : List Input, sounds.inputs ≠ .regRead 0x07#8 :: rest ∧ sounds.inputs ≠ .regRead 0x08#8 :: rest)
    ∧ (sounds.latch.chanCount.toNat ≤ (4 : Fin 8).val) ∧ ∃ t, step sounds = .next t :=
  ⟨rfl, rfl, fun _ => nofun, fun _ _ _ => nofun, fun _ => ⟨nofun, nofun⟩, by decide, next_of_some (by decide +kernel)⟩

theorem witness_EventsNeverAffectAudio : SameButEvents sounds { sounds with evq := [NoteEvent.mk 0 0 1 428 64 0 0] } := rfl

/-- A state no run reaches, whose sample lies across the end of module memory: its FRAME step is the model's one fault. -/
def beyondMemory : State :=
  { songAt 0 { sounding 428 64 with posInt := 1 } with
    latch := { song.latch with samples := Vector.replicate 31 { songHdr with base := 0xFFFFFFFF } } }

theorem witness_FrameStepOrder_fault : beyondMemory.seqState ≠ .paused ∧ ∃ e, mix beyondMemory = .error e := by
  have h : (match mix beyondMemory with | .ok _ => false | .error _ => true) = true := by decide +kernel
  refine ⟨nofun, ?_⟩
  split at h
  · cases h
  · exact ⟨_, ‹_›⟩

theorem witness_EventsNeverAffectAudio_fault : ∃ f, step beyondMemory = .fault f := by
  have h : (match step beyondMemory with | .fault _ => true | _ => false) = true := by decide +kernel
  split at h
  · exact ⟨_, ‹_›⟩
  · cases h

end Sys2Proof.Machine
end

section
/-! PROOFS. The host port (10_state.md R39, R40): the fields of every register as the host reads it, and what each write does. -/

namespace Sys2Proof.Machine

/-! ## Fields of a word that holds a sum -/

/-- A field of a word, from the number that the word holds. -/
theorem extractLsb'_ofNat_eq {n a w : Nat} {x : BitVec w} (ha : a + w ≤ 32) (h : n / 2 ^ a % 2 ^ w = x.toNat) :
    (BitVec.ofNat 32 n).extractLsb' a w = x := by
  obtain ⟨c, hc⟩ := Nat.exists_eq_add_of_le ha
  have hp : 2 ^ 32 = 2 ^ a * (2 ^ w * 2 ^ c) := by rw [hc, Nat.pow_add, Nat.pow_add, Nat.mul_assoc]
  apply BitVec.eq_of_toNat_eq
  rw [BitVec.extractLsb'_toNat, Nat.shiftRight_eq_div_pow, BitVec.toNat_ofNat, hp, Nat.mod_mul_right_div_self,
    Nat.mod_mod_of_dvd _ (Nat.dvd_mul_right ..), h]

/-- A field that reads as 0. -/
theorem extractLsb'_ofNat_eq_zero {n a w : Nat} (ha : a + w ≤ 32) (h : n / 2 ^ a % 2 ^ w = 0) :
    (BitVec.ofNat 32 n).extractLsb' a w = 0#w :=
  extractLsb'_ofNat_eq ha (h.trans BitVec.toNat_zero.symm)

/-- A bit of a word, from the number that the word holds. -/
theorem getLsbD_ofNat_eq {n a : Nat} {b : Bool} (ha : a < 32) (h : n / 2 ^ a % 2 = bitNat b) :
    (BitVec.ofNat 32 n).getLsbD a = b := by
  rw [BitVec.getLsbD_ofNat, decide_eq_true ha, Bool.true_and, Nat.testBit_eq_decide_div_mod_eq, h]
  cases b <;> rfl

/-- A bit that reads as 0. -/
theorem getLsbD_ofNat_eq_false {n a : Nat} (ha : a < 32) (h : n / 2 ^ a % 2 = 0) : (BitVec.ofNat 32 n).getLsbD a = false :=
  getLsbD_ofNat_eq ha h

theorem bitNat_le (b : Bool) : bitNat b ≤ 1 := by cases b <;> decide

theorem seqState_code_lt (q : SeqState) : q.code < 4 := by cases q <;> decide

theorem error_code_lt (e : ErrorCode) : e.code < 6 := by cases e <;> decide

section
variable (s : State)

/-! ## The register map -/

theorem readReg_ctrl : readReg s 0x00#8 = 0#32 := rfl
theorem readReg_status : readReg s 0x01#8 = readStatus s := rfl
theorem readReg_position : readReg s 0x02#8 = readPosition s := rfl
theorem readReg_timing : readReg s 0x03#8 = readTiming s := rfl
theorem readReg_clock : readReg s 0x04#8 = readClock s := rfl
theorem readReg_frameCount : readReg s 0x05#8 = s.cnt.frameCount := rfl
theorem readReg_tickCount : readReg s 0x06#8 = s.cnt.tickCount := rfl
theorem readReg_evDrop : readReg s 0x07#8 = s.cnt.evDrop := rfl
theorem readReg_fifo : readReg s 0x08#8 = readFifo s := rfl
theorem readReg_rate : readReg s 0x09#8 = s.cfg.rate.setWidth 32 := rfl
theorem readReg_mode : readReg s 0x0A#8 = readMode s := rfl
theorem readReg_gain : readReg s 0x0B#8 = s.cfg.gain.setWidth 32 := rfl
theorem readReg_moduleLen : readReg s 0x0C#8 = s.cfg.moduleLen := rfl

/-- The indexes from 0x0D on are reserved and read as 0 (10_state.md R39). -/
theorem readReg_reserved (i : BitVec 8) (h : 0x0D ≤ i.toNat) : readReg s i = 0#32 := by
  have hne : ∀ j : BitVec 8, j.toNat < 0x0D → i ≠ j := by
    rintro j hj rfl
    omega
  unfold readReg
  iterate 12 rw [if_neg (hne _ (by decide))]

/-! ## The fields of each register (10_state.md R39) -/

/-- STATUS: the codes of the operating state and of the error. -/
theorem readStatus_codes : (readStatus s).extractLsb' 0 2 = BitVec.ofNat 2 s.seqState.code
    ∧ (readStatus s).extractLsb' 4 3 = BitVec.ofNat 3 s.error.code := by
  have hq := seqState_code_lt s.seqState
  have he := error_code_lt s.error
  have hp := bitNat_le s.pauseReq
  have hd := bitNat_le (draining s)
  constructor <;> refine extractLsb'_ofNat_eq (by decide) ?_ <;> rw [BitVec.toNat_ofNat] <;> omega

/-- `draining` is Stopped with a frame in the ring (10_state.md R38). -/
theorem draining_eq : draining s = (decide (s.seqState = .stopped) && decide (0 < s.ring.length)) := by
  rw [draining]; cases s.ring <;> simp

/-- STATUS: the pause flag, `draining`, `C`, and the bits that read as 0. -/
theorem readStatus_fields : (readStatus s).getLsbD 2 = s.pauseReq ∧ (readStatus s).getLsbD 3 = draining s
    ∧ (readStatus s).extractLsb' 8 4 = s.latch.chanCount
    ∧ (readStatus s).getLsbD 7 = false ∧ (readStatus s).extractLsb' 12 20 = 0#20 := by
  have hq := seqState_code_lt s.seqState
  have he := error_code_lt s.error
  have hp := bitNat_le s.pauseReq
  have hd := bitNat_le (draining s)
  have hc := s.latch.chanCount.isLt
  refine ⟨getLsbD_ofNat_eq (by decide) ?_, getLsbD_ofNat_eq (by decide) ?_, extractLsb'_ofNat_eq (by decide) ?_,
    getLsbD_ofNat_eq_false (by decide) ?_, extractLsb'_ofNat_eq_zero (by decide) ?_⟩ <;> omega

/-- POSITION: order, row, tick and delay count, and the bits between them that read as 0. -/
theorem readPosition_fields : (readPosition s).extractLsb' 0 7 = s.seq.order ∧ (readPosition s).extractLsb' 8 6 = s.seq.row
    ∧ (readPosition s).extractLsb' 16 5 = s.seq.tick ∧ (readPosition s).extractLsb' 24 4 = s.seq.delayCount
    ∧ (readPosition s).getLsbD 7 = false ∧ (readPosition s).extractLsb' 14 2 = 0#2
    ∧ (readPosition s).extractLsb' 21 3 = 0#3 ∧ (readPosition s).extractLsb' 28 4 = 0#4 := by
  have ho := s.seq.order.isLt
  have hr := s.seq.row.isLt
  have ht := s.seq.tick.isLt
  have hd := s.seq.delayCount.isLt
  refine ⟨extractLsb'_ofNat_eq (by decide) ?_, extractLsb'_ofNat_eq (by decide) ?_, extractLsb'_ofNat_eq (by decide) ?_,
    extractLsb'_ofNat_eq (by decide) ?_, getLsbD_ofNat_eq_false (by decide) ?_, extractLsb'_ofNat_eq_zero (by decide) ?_,
    extractLsb'_ofNat_eq_zero (by decide) ?_, extractLsb'_ofNat_eq_zero (by decide) ?_⟩ <;> omega

/-- TIMING: tempo, speed and pending speed, and the bits that read as 0. -/
theorem readTiming_fields : (readTiming s).extractLsb' 0 8 = s.seq.tempo ∧ (readTiming s).extractLsb' 8 5 = s.seq.speed
    ∧ (readTiming s).extractLsb' 16 5 = s.seq.speedPending
    ∧ (readTiming s).extractLsb' 13 3 = 0#3 ∧ (readTiming s).extractLsb' 21 11 = 0#11 := by
  have ht := s.seq.tempo.isLt
  have hs := s.seq.speed.isLt
  have hp := s.seq.speedPending.isLt
  refine ⟨extractLsb'_ofNat_eq (by decide) ?_, extractLsb'_ofNat_eq (by decide) ?_, extractLsb'_ofNat_eq (by decide) ?_,
    extractLsb'_ofNat_eq_zero (by decide) ?_, extractLsb'_ofNat_eq_zero (by decide) ?_⟩ <;> omega

/-- CLOCK: the length of the tick and the frames already produced in it. -/
theorem readClock_fields : (readClock s).extractLsb' 0 16 = s.clk.fptLatched ∧ (readClock s).extractLsb' 16 16 = s.clk.frameInTick := by
  have hf := s.clk.fptLatched.isLt
  have hi := s.clk.frameInTick.isLt
  refine ⟨extractLsb'_ofNat_eq (by decide) ?_, extractLsb'_ofNat_eq (by decide) ?_⟩ <;> omega

/-- FIFO: the occupancies of the ring and of the event queue, modulo 2^16 (log entry 16). -/
theorem readFifo_fields : (readFifo s).extractLsb' 0 16 = BitVec.ofNat 16 s.ring.length
    ∧ (readFifo s).extractLsb' 16 16 = BitVec.ofNat 16 s.evq.length := by
  constructor <;> refine extractLsb'_ofNat_eq (by decide) ?_ <;> rw [BitVec.toNat_ofNat] <;> omega

/-- CFG_MODE: the three mode bits, and the bits above that read as 0. -/
theorem readMode_fields : (readMode s).getLsbD 0 = s.cfg.interp ∧ (readMode s).getLsbD 1 = s.cfg.pan
    ∧ (readMode s).getLsbD 2 = s.cfg.arp ∧ (readMode s).extractLsb' 3 29 = 0#29 := by
  have hi := bitNat_le s.cfg.interp
  have hp := bitNat_le s.cfg.pan
  have ha := bitNat_le s.cfg.arp
  refine ⟨getLsbD_ofNat_eq (by decide) ?_, getLsbD_ofNat_eq (by decide) ?_, getLsbD_ofNat_eq (by decide) ?_,
    extractLsb'_ofNat_eq_zero (by decide) ?_⟩ <;> omega

end

/-- A number of fewer than 2^16 is the number its 16-bit field holds. -/
theorem toNat_of_eq_ofNat16 {x : BitVec 16} {n : Nat} (h : x = BitVec.ofNat 16 n) (hn : n < 2 ^ 16) : x.toNat = n := by
  rw [h, BitVec.toNat_ofNat, Nat.mod_eq_of_lt hn]

/-- Settles O6: each register's fields in turn, by the lemma about its row of 10_state.md R39. -/
theorem registerFields : Obligations.RegisterFields := by
  intro s
  obtain ⟨hstate, herror⟩ := readStatus_codes s
  obtain ⟨hpause, hdrain, hchan, hst7, hst12⟩ := readStatus_fields s
  obtain ⟨horder, hrow, htick, hdelay, hpos7, hpos14, hpos21, hpos28⟩ := readPosition_fields s
  obtain ⟨htempo, hspeed, hpending, htim13, htim21⟩ := readTiming_fields s
  obtain ⟨hfpt, hfit⟩ := readClock_fields s
  obtain ⟨hring, hevq⟩ := readFifo_fields s
  obtain ⟨hinterp, hpan, harp, hmode3⟩ := readMode_fields s
  have hrate : (s.cfg.rate.setWidth 32).toNat = s.cfg.rate.toNat := BitVec.toNat_setWidth_of_le (by decide)
  have hgain : (s.cfg.gain.setWidth 32).toNat = s.cfg.gain.toNat := BitVec.toNat_setWidth_of_le (by decide)
  rw [draining_eq] at hdrain
  simp only [readReg_status, readReg_position, readReg_timing, readReg_clock, readReg_fifo, readReg_rate, readReg_mode,
    readReg_gain, hstate, herror]
  refine ⟨⟨?_, ?_, ?_, ?_⟩, ⟨?_, ?_, ?_, ?_, ?_, ?_⟩, hpause, hdrain, hchan, hst7, hst12, horder, hrow, htick, hdelay, hpos7, hpos14,
    hpos21, hpos28, htempo, hspeed, hpending, htim13, htim21, hfpt, hfit, readReg_frameCount s, readReg_tickCount s,
    readReg_evDrop s, toNat_of_eq_ofNat16 hring, toNat_of_eq_ofNat16 hevq, hrate, hgain, hinterp, hpan, harp, hmode3,
    readReg_moduleLen s, readReg_ctrl s, readReg_reserved s⟩ <;>
    intro h <;> rw [h] <;> rfl

end Sys2Proof.Machine
end

section
/-! PROOFS. A whole step as the beginning of one agent's step and its rest (00_scope.md R8; log entries 6, 7 and 10). -/

namespace Sys2Proof.Machine

/-- The state in which the next agent's step begins: the schedule and the draw counter have moved (log entries 6 and 7). -/
def State.moved (s : State) (rest : List Input) : State := { s with inputs := rest, draws := s.draws + 1 }

/-- A step whose agent is the schedule's first. -/
theorem step_of_input {s : State} {i : Input} {rest : List Input} (hp : s.phase = .idle) (hi : s.inputs = i :: rest) :
    step s = thenNext (beginInput (s.moved rest) i) finishStep := by
  simp only [step_idle s hp, beginStep, hi]; rfl

/-- A step with nothing scheduled is the producer's. -/
theorem step_of_empty {s : State} (hp : s.phase = .idle) (hi : s.inputs = []) :
    step s = finishStep (beginFrame (s.moved [])) := by
  simp only [step_idle s hp, beginStep, hi]; rfl

/-- A step that begins with a whole agent's step is over there. -/
theorem step_of_begin {s u : State} {i : Input} {rest : List Input} (hp : s.phase = .idle) (hi : s.inputs = i :: rest)
    (hb : beginInput (s.moved rest) i = .next u) (hu : u.phase = .idle) : step s = .next u := by
  rw [step_of_input hp hi, hb, thenNext_next, finishStep_idle u hu]

/-! ## Register writes (10_state.md R40) -/

section
variable {s : State} {i : BitVec 8} {v : Word}

theorem cfgWritable_iff : cfgWritable s = true ↔ s.seqState = .stopped ∨ s.seqState = .finished := by
  simp [cfgWritable]

/-- In Playing and Paused no configuration register is written. -/
theorem writeCfg_of_busy (h : s.seqState = .playing ∨ s.seqState = .paused) : writeCfg s i v = s := by
  have hw : ¬cfgWritable s = true := by
    rw [cfgWritable_iff]; rcases h with h | h <;> simp [h]
  rw [writeCfg, if_neg hw]

/-- The read-only and the reserved indexes are not written. -/
theorem writeCfg_of_outside (h : i.toNat < 0x09 ∨ 0x0C < i.toNat) : writeCfg s i v = s := by
  have hne : ∀ j : BitVec 8, 0x09 ≤ j.toNat → j.toNat ≤ 0x0C → i ≠ j := by
    rintro j h1 h2 rfl
    omega
  unfold writeCfg
  iterate 4 rw [if_neg (hne _ (by decide) (by decide))]
  exact ite_self s

/-- The lowest bits of a word as a number. -/
theorem lowBits_toNat (v : Word) (n : Nat) : (v.extractLsb' 0 n).toNat = v.toNat % 2 ^ n := by
  rw [BitVec.extractLsb'_toNat, Nat.shiftRight_zero]

/-- The lowest bits of a word, from their number. -/
theorem lowBits_eq (v : Word) (n : Nat) : v.extractLsb' 0 n = BitVec.ofNat n (v.toNat % 2 ^ n) := by
  rw [← lowBits_toNat, BitVec.ofNat_toNat, BitVec.setWidth_eq]

theorem legalRate_iff (r : BitVec 18) : legalRate r = true ↔ 8000 ≤ r.toNat ∧ r.toNat ≤ 192000 := by
  simp [legalRate]

/-- CFG_RATE ignores a rate outside 8000 to 192000. -/
theorem writeCfg_of_illegalRate (h : v.toNat % 2 ^ 18 < 8000 ∨ 192000 < v.toNat % 2 ^ 18) : writeCfg s 0x09#8 v = s := by
  have hr : ¬legalRate (v.extractLsb' 0 18) = true := by rw [legalRate_iff, lowBits_toNat]; omega
  rw [writeCfg, if_pos rfl, if_neg hr, ite_self]

variable (hw : s.seqState = .stopped ∨ s.seqState = .finished)
include hw

theorem writeCfg_rate (h : 8000 ≤ v.toNat % 2 ^ 18 ∧ v.toNat % 2 ^ 18 ≤ 192000) :
    writeCfg s 0x09#8 v = { s with cfg := { s.cfg with rate := BitVec.ofNat 18 (v.toNat % 2 ^ 18) } } := by
  have hr : legalRate (v.extractLsb' 0 18) = true := by rw [legalRate_iff, lowBits_toNat]; exact h
  rw [writeCfg, if_pos (cfgWritable_iff.2 hw), if_pos rfl, if_pos hr, lowBits_eq]

theorem writeCfg_mode : writeCfg s 0x0A#8 v =
    { s with cfg := { s.cfg with interp := v.toNat % 2 = 1, pan := v.toNat / 2 % 2 = 1, arp := v.toNat / 4 % 2 = 1 } } := by
  have hbit : ∀ n, v.getLsbD n = decide (v.toNat / 2 ^ n % 2 = 1) := fun n => Nat.testBit_eq_decide_div_mod_eq
  rw [writeCfg, if_pos (cfgWritable_iff.2 hw), if_neg (by decide), if_pos rfl, hbit, hbit, hbit, Nat.pow_zero, Nat.div_one]
  rfl

theorem writeCfg_gain : writeCfg s 0x0B#8 v = { s with cfg := { s.cfg with gain := BitVec.ofNat 8 (v.toNat % 2 ^ 8) } } := by
  rw [writeCfg, if_pos (cfgWritable_iff.2 hw), if_neg (by decide), if_neg (by decide), if_pos rfl, lowBits_eq]

theorem writeCfg_moduleLen : writeCfg s 0x0C#8 v = { s with cfg := { s.cfg with moduleLen := v } } := by
  rw [writeCfg, if_pos (cfgWritable_iff.2 hw), if_neg (by decide), if_neg (by decide), if_neg (by decide), if_pos rfl]

end

/-- A step that writes a register other than CTRL is that write alone. -/
theorem step_of_regWrite {s : State} {i : BitVec 8} {v : Word} {rest : List Input} (hp : s.phase = .idle)
    (hi : s.inputs = .regWrite i v :: rest) (h0 : i ≠ 0x00#8) {u : State} (hu : writeCfg (s.moved rest) i v = u)
    (hup : u.phase = .idle) : step s = .next u :=
  step_of_begin hp hi (by rw [beginInput, regWrite, if_neg h0, hu]) hup

/-- Settles O7: a read and each kind of write, by the lemma about `writeCfg` that names it. -/
theorem registerAccess : Obligations.RegisterAccess := by
  intro s rest hp
  refine ⟨fun i hi => step_of_begin hp hi rfl hp, fun i v hi h0 => ⟨fun h => ?_, fun hw => ⟨?_, ?_, ?_, ?_⟩⟩⟩
  · refine step_of_regWrite hp hi h0 ?_ hp
    rcases h with h | h | h | h | ⟨rfl, h⟩
    · exact writeCfg_of_busy (.inl h)
    · exact writeCfg_of_busy (.inr h)
    · exact writeCfg_of_outside (.inl h)
    · exact writeCfg_of_outside (.inr h)
    · exact writeCfg_of_illegalRate h
  · rintro rfl hlo hhi
    exact step_of_regWrite hp hi h0 (writeCfg_rate hw ⟨hlo, hhi⟩) hp
  · rintro rfl
    exact step_of_regWrite hp hi h0 (writeCfg_mode hw) hp
  · rintro rfl
    exact step_of_regWrite hp hi h0 (writeCfg_gain hw) hp
  · rintro rfl
    exact step_of_regWrite hp hi h0 (writeCfg_moduleLen hw) hp

end Sys2Proof.Machine
end

section
/-! PROOFS. The cells of a tick (42_sequencer.md R180, R184; 10_state.md R43): the channels in order, and the step that runs
the cell of the current one. -/

namespace Sys2Proof.Machine

/-- Continuing twice is continuing once with both. -/
theorem thenNext_assoc (a : Answer) (f g : State → Answer) : thenNext (thenNext a f) g = thenNext a fun s => thenNext (f s) g := by
  cases a <;> rfl

/-- The channels of a tick stand in ascending order (10_state.md R43). -/
theorem channelsFrom_pairwise (s : State) (k : Nat) : (s.channelsFrom k).Pairwise (· < ·) := List.Pairwise.filter _ (by decide)

/-- A channel of the song comes before those above it. -/
theorem channelsFrom_eq_cons (s : State) (k : Fin 8) (hk : k.val < s.latch.chanCount.toNat) :
    s.channelsFrom k.val = k :: s.channelsFrom (k.val + 1) := by
  have hlt : ∀ j ∈ s.channelsFrom (k.val + 1), k < j := fun j hj => ((mem_channelsFrom s _ j).1 hj).1
  refine (channelsFrom_pairwise s _).eq_of_mem_iff (List.pairwise_cons.2 ⟨hlt, channelsFrom_pairwise s _⟩) fun j => ?_
  rw [List.mem_cons, mem_channelsFrom, mem_channelsFrom, Fin.ext_iff]
  omega

/-- The cells of a tick that is still to be run: the current channel's, then those of the channels above it. -/
theorem runTickCells_eq {s : State} {i : Instr} (hk : s.chan.val < s.latch.chanCount.toNat)
    (hi : decode .cell (cellBytes s s.chan) = .ok (i, [])) :
    runTickCells s = thenNext (exec i s) (runCells (s.channelsFrom (s.chan.val + 1))) := by
  rw [runTickCells, channelsFrom_eq_cons s s.chan hk, runCells_cons _ _ s i hi]

/-- Settles O14: the tick's first cell is split off the channels that take part, and the rest of the step follows. -/
theorem tickStepRunsCell : Obligations.TickStepRunsCell := by
  intro s i
  refine ⟨fun k => ⟨channelsFrom_pairwise s k, mem_channelsFrom s k⟩, rfl, fun k rest h => runCells_cons k rest s i h,
    fun hk hi => ⟨fun hp => ?_, fun hp => ?_⟩⟩
  · rw [step_busy s (by rw [hp]; decide), finishStep_startCells s hp, runTickCells_eq hk hi, thenNext_assoc]
  · rw [step_busy s (by rw [hp]; decide), finishStep_frameCells s hp, runTickCells_eq hk hi, thenNext_assoc]

end Sys2Proof.Machine
end

section
/-! PROOFS. What each agent's step can do, said once, and what every step keeps: module memory and the queues, and the
constants of a song. -/

namespace Sys2Proof.Machine

/-! ## What a host command can do (40_control.md R132 to R143) -/

/-- What a host command may make of `s`, before the rest of its step. -/
inductive CommandStep (s : State) : State → Prop where
  /-- NOP, a reserved op, or a command that the operating state ignores. -/
  | ignored : CommandStep s s
  /-- PAUSE or RESUME (40_control.md R140, R141). -/
  | pauseFlag (p : Bool) (h : s.seqState = .playing ∨ s.seqState = .paused) : CommandStep s { s with pauseReq := p }
  /-- STOP (40_control.md R142). -/
  | stopped (h : s.seqState ≠ .stopped) : CommandStep s { s with seqState := .stopped, pauseReq := false }
  /-- START with an image that fails a check (40_control.md R136). -/
  | loadError (e : ErrorCode) (h : s.seqState = .stopped ∨ s.seqState = .finished)
      (hl : loadImage (latchConfig s) = .error e) : CommandStep s (raiseLoadError (latchConfig s) e)
  /-- START with a good image (40_control.md R133). -/
  | begun (l : Latches) (h : s.seqState = .stopped ∨ s.seqState = .finished)
      (hl : loadImage (latchConfig s) = .ok l) : CommandStep s (beginSong (latchConfig s) l)

/-- A song that neither plays nor is paused is stopped or finished. -/
theorem seqState_quiet {q : SeqState} (h : ¬(q = .playing ∨ q = .paused)) : q = .stopped ∨ q = .finished := by
  cases q <;> simp at h ⊢

/-- A host command completes, in every state. -/
theorem exec_commandStep (i : Instr) (s : State) (h : i.space = .ctrl) : ∃ u, exec i s = .next u ∧ CommandStep s u := by
  cases i
  case start =>
    refine ⟨_, rfl, ?_⟩
    split
    · exact .ignored
    · rename_i hq
      dsimp only
      split
      · exact .loadError _ (seqState_quiet hq) ‹_›
      · exact .begun _ (seqState_quiet hq) ‹_›
  case pause =>
    refine ⟨_, rfl, ?_⟩
    split
    · exact .pauseFlag _ ‹_›
    · exact .ignored
  case resume =>
    refine ⟨_, rfl, ?_⟩
    split
    · exact .pauseFlag _ ‹_›
    · exact .ignored
  case stop =>
    refine ⟨_, rfl, ?_⟩
    split
    · exact .ignored
    · exact .stopped ‹_›
  case nop | rsvd5 | rsvd6 | rsvd7 => exact ⟨s, rfl, .ignored⟩
  all_goals exact absurd h (by simp [Instr.space])

/-- A write of a register other than CTRL writes configuration registers, and none while a song plays or is paused. -/
theorem writeCfg_frame (s : State) (i : BitVec 8) (v : Word) : writeCfg s i v = { s with cfg := (writeCfg s i v).cfg } := by
  unfold writeCfg
  split_ifs <;> rfl

/-! ## What a FRAME step can do (41_clock.md R160) -/

/-- What the tick processing of a FRAME step may make of `b`: the clock, the Sequencer and the cells. -/
structure TickStep (b u : State) : Prop where
  /-- Nothing but the fields named here changes. -/
  frame : u = { b with
    ch := u.ch, seq := u.seq, seqState := u.seqState, clk := u.clk, cnt := u.cnt, evq := u.evq, phase := u.phase, chan := u.chan }
  /-- The channels that take no part stay (10_state.md R22). -/
  other : ∀ k : Fin 8, b.latch.chanCount.toNat ≤ k.val → u.getCh k = b.getCh k
  /-- The event queue stays within its depth. -/
  events : b.evq.length ≤ evqDepth → u.evq.length ≤ evqDepth

theorem TickStep.latch {b u : State} (h : TickStep b u) : u.latch = b.latch := by rw [h.frame]

theorem TickStep.act {b u : State} (h : TickStep b u) : u.act = b.act := by rw [h.frame]

theorem TickStep.cfg {b u : State} (h : TickStep b u) : u.cfg = b.cfg := by rw [h.frame]

theorem TickStep.mem {b u : State} (h : TickStep b u) : u.mem = b.mem := by rw [h.frame]

theorem TickStep.ring {b u : State} (h : TickStep b u) : u.ring = b.ring := by rw [h.frame]

theorem TickStep.trans {b u v : State} (h : TickStep b u) (g : TickStep u v) : TickStep b v where
  frame := g.frame.trans (congrArg (fun w : State => { w with
    ch := v.ch, seq := v.seq, seqState := v.seqState, clk := v.clk, cnt := v.cnt, evq := v.evq, phase := v.phase, chan := v.chan })
    h.frame)
  other k hk := (g.other k (by rw [h.latch]; exact hk)).trans (h.other k hk)
  events a := g.events (h.events a)

/-- A change of the clock, the tick counters, the sequencer registers and what is left of the step. -/
theorem TickStep.control (b : State) (q : SeqRegs) (st : SeqState) (c : ClockRegs) (n : Counters) (p : Phase) (k : Fin 8) :
    TickStep b { b with seq := q, seqState := st, clk := c, cnt := n, phase := p, chan := k } :=
  ⟨rfl, fun _ _ => rfl, id⟩

/-- The row advance is a part of the tick processing. -/
theorem rowAdvance_tickStep (b : State) : TickStep b (rowAdvance b) := by
  rw [(rowAdvance_spec b).1]
  exact .control b _ _ _ _ _ _

/-- The cells of a tick are a part of the tick processing. -/
theorem CellsStep.tickStep {b u : State} (h : CellsStep (b.channelsFrom 0) b u) : TickStep b u where
  frame := by rw [h.frame]
  other k hk := h.other k fun hm => absurd ((mem_channelsFrom b 0 k).1 hm).2 (by omega)
  events := h.events

/-- The cells of a tick, then the frame: the cells complete and the step goes on from what they leave. -/
theorem tickStep_of_cells {b w t : State} (hw : TickStep b w)
    (h : thenNext (runCells (b.channelsFrom 0) w) produceFrame = .next t) : ∃ u, TickStep b u ∧ produceFrame u = .next t := by
  obtain ⟨u, hu, hc⟩ := runCells_spec (b.channelsFrom 0) w
  rw [hu, thenNext_next] at h
  rw [← channelsFrom_congr b w hw.latch] at hc
  exact ⟨u, hw.trans hc.tickStep, h⟩

/-- A FRAME step is its tick processing, after which the step is over or, where FRAME is enabled, produces a frame. -/
theorem frameStep_split {b t : State} (hb : b.phase = .idle) (h : finishStep (beginFrame b) = .next t) :
    ∃ u, TickStep b u ∧ (u.phase = .idle ∧ t = u ∨ frameEnabled b = true ∧ produceFrame u = .next t) := by
  have hcross : ∀ p, TickStep b { crossBoundary b with phase := .frameMix, seqState := p } :=
    fun p => .control b _ _ _ _ _ _
  rcases frame_cases b hb with ⟨-, e⟩ | ⟨he, -, e⟩ | ⟨he, -, -, e⟩ | ⟨he, -, -, d, rfl, ⟨-, -, e⟩ | ⟨-, -, e⟩ | ⟨-, e⟩⟩ <;>
    rw [e] at h
  · cases h
    exact ⟨b, ⟨rfl, fun _ _ => rfl, id⟩, .inl ⟨hb, rfl⟩⟩
  · exact ⟨_, .control b _ _ _ _ _ _, .inr ⟨he, h⟩⟩
  · exact ⟨_, hcross _, .inr ⟨he, h⟩⟩
  · cases h
    exact ⟨_, ((hcross _).trans (rowAdvance_tickStep _)).trans (.control _ _ _ _ _ _ _), .inl ⟨rfl, rfl⟩⟩
  · obtain ⟨u, hu, hf⟩ := tickStep_of_cells
      (((hcross _).trans (rowAdvance_tickStep _)).trans (.control _ _ _ _ _ _ _)) h
    exact ⟨u, hu, .inr ⟨he, hf⟩⟩
  · obtain ⟨u, hu, hf⟩ := tickStep_of_cells ((hcross _).trans (.control _ _ _ _ _ _ _)) h
    exact ⟨u, hu, .inr ⟨he, hf⟩⟩

/-- A whole step is the producer's FRAME step, or the beginning of another agent's step and its rest. -/
theorem step_cases {s t : State} (hp : s.phase = .idle) (h : step s = .next t) :
    (∃ rest, finishStep (beginFrame (s.moved rest)) = .next t)
    ∨ ∃ i rest u, i ≠ .frame ∧ s.inputs = i :: rest ∧ beginInput (s.moved rest) i = .next u ∧ finishStep u = .next t := by
  cases hi : s.inputs with
  | nil => exact .inl ⟨[], by rw [← step_of_empty hp hi, h]⟩
  | cons i rest =>
    rw [step_of_input hp hi] at h
    by_cases hf : i = .frame
    · subst hf
      exact .inl ⟨rest, h⟩
    · obtain ⟨u, hu, ht⟩ := (thenNext_eq_next _ _ _).1 h
      exact .inr ⟨i, rest, u, hf, rfl, hu, ht⟩

/-! ## Module memory and the queues (20_memory.md R60, 10_state.md R37) -/

/-- Module memory is canonical and both queues are within their depths. -/
def StoresFit (s : State) : Prop := Memory.wf s.mem = true ∧ QueuesFit s

/-- SINK_POP takes from the ring and nothing else but its port. -/
theorem sinkPop_frame (s : State) : sinkPop s = { s with ring := s.ring.tail, sinkOut := (sinkPop s).sinkOut } := by
  simp only [sinkPop]
  split
  · rename_i h
    have ht : s.ring.tail = s.ring := by rw [h]; rfl
    rw [ht]
  · rename_i h
    rw [h, List.tail_cons]

/-- EV_POP takes from the event queue and nothing else but its port. -/
theorem evPop_frame (s : State) : evPop s = { s with evq := s.evq.tail, evOut := (evPop s).evOut } := by
  simp only [evPop]
  split
  · rename_i h
    have ht : s.evq.tail = s.evq := by rw [h]; rfl
    rw [ht]
  · rename_i h
    rw [h, List.tail_cons]

/-- A host command keeps the stores, and leaves at most a START's trigger phase to be run. -/
theorem CommandStep.storesFit {b u : State} (h : CommandStep b u) (hp : b.phase = .idle) (hb : StoresFit b) :
    StoresFit u ∧ (u.phase = .idle ∨ u.phase = .startCells) := by
  obtain ⟨hm, hr, he⟩ := hb
  cases h with
  | ignored | pauseFlag | stopped | loadError => exact ⟨⟨hm, hr, he⟩, .inl hp⟩
  | begun => exact ⟨⟨hm, hr, Nat.zero_le _⟩, .inr rfl⟩

/-- The beginning of an agent's step, FRAME apart, keeps the stores, and leaves at most a START's trigger phase to be run. -/
theorem beginInput_storesFit {b u : State} {i : Input} (hi : i ≠ .frame) (hp : b.phase = .idle) (hb : StoresFit b)
    (h : beginInput b i = .next u) : StoresFit u ∧ (u.phase = .idle ∨ u.phase = .startCells) := by
  obtain ⟨hm, hr, he⟩ := hb
  cases i with
  | frame => exact absurd rfl hi
  | regWrite i v =>
    simp only [beginInput, regWrite] at h
    split at h
    · obtain ⟨w, hw, hc⟩ := exec_commandStep _ b (decodeCtrl_space v)
      cases hw.symm.trans h
      exact hc.storesFit hp ⟨hm, hr, he⟩
    · cases h
      rw [writeCfg_frame]
      exact ⟨⟨hm, hr, he⟩, .inl hp⟩
  | memWrite a v => cases h; exact ⟨⟨hostMemWrite_wf b a v hm, hr, he⟩, .inl hp⟩
  | regRead | memRead => cases h; exact ⟨⟨hm, hr, he⟩, .inl hp⟩
  | sinkPop =>
    cases h
    rw [sinkPop_frame]
    exact ⟨⟨hm, by simp; omega, he⟩, .inl hp⟩
  | sinkFail => cases h; exact ⟨⟨hm, Nat.zero_le _, he⟩, .inl hp⟩
  | evPop =>
    cases h
    rw [evPop_frame]
    exact ⟨⟨hm, hr, by simp; omega⟩, .inl hp⟩
  | reset => cases h; exact ⟨⟨hm, Nat.zero_le _, Nat.zero_le _⟩, .inl rfl⟩

/-- The rest of a step that is over or has START's trigger phase to run keeps the stores and leaves nothing half done. -/
theorem finishStep_storesFit {u t : State} (hp : u.phase = .idle ∨ u.phase = .startCells) (hu : StoresFit u)
    (h : finishStep u = .next t) : t.phase = .idle ∧ StoresFit t := by
  rcases hp with hp | hp
  · rw [finishStep_idle u hp] at h
    cases h
    exact ⟨hp, hu⟩
  · obtain ⟨w, hw, hc⟩ := runCells_spec (u.channelsFrom u.chan.val) u
    rw [finishStep_startCells u hp, runTickCells, hw, thenNext_next] at h
    cases h
    obtain ⟨hm, hr, he⟩ := hu
    refine ⟨rfl, ?_, ?_, hc.events he⟩
    · rw [hc.frame]; exact hm
    · rw [hc.frame]; exact hr

/-- A FRAME step keeps the stores: it adds a frame only where the ring has room. -/
theorem frameStep_storesFit {b t : State} (hp : b.phase = .idle) (hb : StoresFit b)
    (h : finishStep (beginFrame b) = .next t) : t.phase = .idle ∧ StoresFit t := by
  obtain ⟨hm, hr, he⟩ := hb
  obtain ⟨u, hu, ⟨hup, rfl⟩ | ⟨hen, hf⟩⟩ := frameStep_split hp h
  · exact ⟨hup, by rw [hu.mem]; exact hm, by rw [hu.ring]; exact hr, hu.events he⟩
  · obtain ⟨f, hframe, -⟩ := produceFrame_spec u t hf
    have hroom : b.ring.length < ringDepth := by
      simp only [frameEnabled, Bool.and_eq_true, decide_eq_true_eq] at hen
      exact hen.2
    rw [hframe]
    refine ⟨rfl, by rw [hu.mem]; exact hm, ?_, hu.events he⟩
    simp only [hu.ring, List.length_append, List.length_singleton]
    exact hroom

/-- Settles O53: by the agent whose step it is. -/
theorem memoryAndQueuesKept : Obligations.MemoryAndQueuesKept := by
  intro s t hp hm hq h
  obtain ⟨rest, hf⟩ | ⟨i, rest, u, hi, -, hu, ht⟩ := step_cases hp h
  · exact frameStep_storesFit (b := s.moved rest) hp ⟨hm, hq⟩ hf
  · obtain ⟨hfit, hup⟩ := beginInput_storesFit (b := s.moved rest) hi hp ⟨hm, hq⟩ hu
    exact finishStep_storesFit hup hfit ht

/-! ## What holds during a song (10_state.md R22, R30, R40, R41) -/

/-- The configuration, the latches and the channels that take no part are as they were. -/
structure SongConstants (s t : State) : Prop where
  /-- 10_state.md R41. -/
  act : t.act = s.act
  /-- 10_state.md R40. -/
  cfg : t.cfg = s.cfg
  /-- 10_state.md R30. -/
  latch : t.latch = s.latch
  /-- 10_state.md R22. -/
  other : ∀ k : Fin 8, s.latch.chanCount.toNat ≤ k.val → t.getCh k = s.getCh k

theorem SongConstants.trans {s t u : State} (h : SongConstants s t) (g : SongConstants t u) : SongConstants s u where
  act := g.act.trans h.act
  cfg := g.cfg.trans h.cfg
  latch := g.latch.trans h.latch
  other k hk := (g.other k (by rw [h.latch]; exact hk)).trans (h.other k hk)

/-- Where no channel changes. -/
theorem SongConstants.of_ch {s t : State} (hch : t.ch = s.ch) (hact : t.act = s.act) (hcfg : t.cfg = s.cfg)
    (hlatch : t.latch = s.latch) : SongConstants s t :=
  ⟨hact, hcfg, hlatch, fun _ _ => by rw [State.getCh, State.getCh, hch]⟩

theorem TickStep.songConstants {b u : State} (h : TickStep b u) : SongConstants b u := ⟨h.act, h.cfg, h.latch, h.other⟩

/-- The mixer leaves the channels that take no part (44_mixer.md R280). -/
theorem produceFrame_songConstants {u t : State} (h : produceFrame u = .next t) : SongConstants u t := by
  obtain ⟨f, hframe, hpaused, hmixed⟩ := produceFrame_spec u t h
  refine ⟨by rw [hframe], by rw [hframe], by rw [hframe], fun k hk => ?_⟩
  by_cases hq : u.seqState = .paused
  · exact (hpaused hq).2 k
  · have hn : k ∉ u.channelsFrom 0 := fun hm => absurd ((mem_channelsFrom u 0 k).1 hm).2 (by omega)
    rw [hmixed hq k, if_neg fun a => hn a.1]

/-- A host command given during a song leaves the song's constants, and its step is over. -/
theorem CommandStep.songConstants {b u : State} (h : CommandStep b u) (hq : b.seqState = .playing ∨ b.seqState = .paused)
    (hp : b.phase = .idle) : SongConstants b u ∧ u.phase = .idle := by
  cases h with
  | ignored | pauseFlag | stopped => exact ⟨.of_ch rfl rfl rfl rfl, hp⟩
  | loadError _ h | begun _ h => rcases hq with e | e <;> rw [e] at h <;> simp at h

/-- The beginning of an agent's step during a song, FRAME and the platform's reset apart, leaves the song's constants, and the
step is over. -/
theorem beginInput_songConstants {b u : State} {i : Input} (hi : i ≠ .frame) (hr : i ≠ .reset) (hp : b.phase = .idle)
    (hq : b.seqState = .playing ∨ b.seqState = .paused) (h : beginInput b i = .next u) :
    SongConstants b u ∧ u.phase = .idle := by
  cases i with
  | frame => exact absurd rfl hi
  | reset => exact absurd rfl hr
  | regWrite i v =>
    simp only [beginInput, regWrite] at h
    split at h
    · obtain ⟨w, hw, hc⟩ := exec_commandStep _ b (decodeCtrl_space v)
      cases hw.symm.trans h
      exact hc.songConstants hq hp
    · cases h
      rw [writeCfg_of_busy hq]
      exact ⟨.of_ch rfl rfl rfl rfl, hp⟩
  | sinkPop => cases h; rw [sinkPop_frame]; exact ⟨.of_ch rfl rfl rfl rfl, hp⟩
  | evPop => cases h; rw [evPop_frame]; exact ⟨.of_ch rfl rfl rfl rfl, hp⟩
  | regRead | memWrite | memRead | sinkFail => cases h; exact ⟨.of_ch rfl rfl rfl rfl, hp⟩

/-- Settles O59: by the agent whose step it is. -/
theorem songConstantsHold : Obligations.SongConstantsHold := by
  intro s t hp hq hr h
  have hm : ∀ rest, SongConstants s (s.moved rest) := fun rest => .of_ch rfl rfl rfl rfl
  have hc : SongConstants s t := by
    obtain ⟨rest, hf⟩ | ⟨i, rest, u, hi, hin, hu, ht⟩ := step_cases hp h
    · obtain ⟨u, hu, ⟨-, rfl⟩ | ⟨-, hf⟩⟩ := frameStep_split (b := s.moved rest) hp hf
      · exact (hm rest).trans hu.songConstants
      · exact ((hm rest).trans hu.songConstants).trans (produceFrame_songConstants hf)
    · obtain ⟨hc, hup⟩ := beginInput_songConstants (b := s.moved rest) hi (fun e => hr rest (e ▸ hin)) hp hq hu
      rw [finishStep_idle u hup] at ht
      cases ht
      exact (hm rest).trans hc
  exact ⟨hc.act, hc.cfg, hc.latch, hc.other⟩

end Sys2Proof.Machine
end


section
/-! PROOFS. Module memory (20_memory.md): the host's reads and writes of it, that the block never writes it, that the block's
reads during a song stay inside the image, and the tables of the format written out. -/

namespace Sys2Proof.Machine

/-! ## The host's reads and writes (20_memory.md R60, R72) -/

/-- A write changes the byte listed at its address and no other. -/
theorem get_put (m : Memory) (a b : Nat) (v : Byte) :
    Memory.get (Memory.put m a v) b = if b = a then some v else Memory.get m b := by
  split
  · subst b
    exact get_put_same m a v
  · rename_i h
    exact get_put_ne m a b v h

/-- While the host's duty holds, the block reads the byte the host put there, or the platform's. -/
theorem byteAt_of_duty {s : State} (h : s.dutyBroken = false) (who a : Nat) :
    byteAt s who a = (s.mem.get a).getD (Config.platformByte a) := by
  rw [byteAt, h, if_neg Bool.false_ne_true]
  cases s.mem.get a <;> rfl

/-- Once the duty is broken, every read of the block is a draw. -/
theorem byteAt_of_broken {s : State} (h : s.dutyBroken = true) (who a : Nat) :
    byteAt s who a = Config.drawnByte s.draws who a := by
  rw [byteAt, if_pos h]

/-- A byte that the host receives is the same number in the word of the port. -/
theorem byteWord_toNat (b : Byte) : (b.setWidth 32).toNat = b.toNat := BitVec.toNat_setWidth_of_le (by decide)

/-- While the host's duty holds, the schedule and the draw counter do not show in what the block reads. -/
theorem byteAt_moved {s : State} (h : s.dutyBroken = false) (rest : List Input) (who a : Nat) :
    byteAt (s.moved rest) who a = byteAt s who a := by
  rw [byteAt_of_duty (s := s.moved rest) h, byteAt_of_duty h, State.moved]

/-- A host write outside a song leaves the duty as it was. -/
theorem hostMemWrite_duty_quiet {s : State} (a : BitVec 32) (v : Byte) (h : s.seqState = .stopped ∨ s.seqState = .finished) :
    (hostMemWrite s a v).dutyBroken = s.dutyBroken := by
  rcases h with h | h <;> simp [hostMemWrite, h]

/-- A host write during a song breaks the duty. -/
theorem hostMemWrite_duty_song {s : State} (a : BitVec 32) (v : Byte) (h : s.seqState = .playing ∨ s.seqState = .paused) :
    (hostMemWrite s a v).dutyBroken = true := by
  rcases h with h | h <;> simp [hostMemWrite, h]

/-- What the block reads after a host write that keeps the duty: the byte written, and every other byte as before. -/
theorem byteAt_hostMemWrite {s : State} (a : BitVec 32) (v : Byte) (hd : s.dutyBroken = false)
    (hq : s.seqState = .stopped ∨ s.seqState = .finished) (who b : Nat) :
    byteAt (hostMemWrite s a v) who b = if b = a.toNat then v else byteAt s who b := by
  rw [byteAt_of_duty ((hostMemWrite_duty_quiet a v hq).trans hd), byteAt_of_duty hd, hostMemWrite, get_put]
  split <;> rfl

/-- Settles O51: a host's memory step is the read or the write alone, and what the block then reads depends on the duty. -/
theorem hostMemoryWrite : Obligations.HostMemoryWrite := by
  refine ⟨fun s a rest hp hi => ?_, fun s a v rest hp hi => ?_⟩
  · refine ⟨_, step_of_begin hp hi rfl hp, fun b hb => ?_, fun hn => ?_⟩
    · rw [byteWord_toNat, State.moved, hb, Option.getD_some]
    · rw [byteWord_toNat, State.moved, hn, Option.getD_none]
  · exact ⟨hostMemWrite (s.moved rest) a v, step_of_begin hp hi rfl hp, rfl, fun b => get_put s.mem a.toNat b v,
      fun hd hq who b => by rw [byteAt_hostMemWrite (s := s.moved rest) a v hd hq, byteAt_moved hd],
      fun hq => byteAt_of_broken (hostMemWrite_duty_song (s := s.moved rest) a v hq)⟩

/-! ## The block never writes module memory (20_memory.md R61) -/

theorem CellsStep.mem {ks : List (Fin 8)} {s t : State} (h : CellsStep ks s t) : t.mem = s.mem := by rw [h.frame]

/-- The cells of a tick leave memory. -/
theorem runTickCells_mem {s t : State} (h : runTickCells s = .next t) : t.mem = s.mem := by
  obtain ⟨u, hu, hc⟩ := runCells_spec (s.channelsFrom s.chan.val) s
  cases hu.symm.trans h
  exact hc.mem

/-- The mixer and the ring leave memory. -/
theorem produceFrame_mem {s t : State} (h : produceFrame s = .next t) : t.mem = s.mem := by
  obtain ⟨f, hframe, -⟩ := produceFrame_spec s t h
  rw [hframe]

/-- The rest of a step leaves memory, wherever it begins. -/
theorem finishStep_mem {s t : State} (h : finishStep s = .next t) : t.mem = s.mem := by
  cases hp : s.phase with
  | idle =>
    rw [finishStep_idle s hp] at h
    cases h
    rfl
  | startCells =>
    rw [finishStep_startCells s hp, thenNext_eq_next] at h
    obtain ⟨u, hu, ht⟩ := h
    have hm := runTickCells_mem hu
    cases ht
    exact hm
  | frameCells =>
    rw [finishStep_frameCells s hp, thenNext_eq_next] at h
    obtain ⟨u, hu, ht⟩ := h
    exact (produceFrame_mem ht).trans (runTickCells_mem hu)
  | frameMix =>
    rw [finishStep_frameMix s hp] at h
    exact produceFrame_mem h

/-- A FRAME step leaves memory. -/
theorem frameStep_mem {b t : State} (hp : b.phase = .idle) (h : finishStep (beginFrame b) = .next t) : t.mem = b.mem := by
  obtain ⟨u, hu, ⟨-, rfl⟩ | ⟨-, hf⟩⟩ := frameStep_split hp h
  · exact hu.mem
  · exact (produceFrame_mem hf).trans hu.mem

/-- A host command leaves memory. -/
theorem CommandStep.mem {b u : State} (h : CommandStep b u) : u.mem = b.mem := by cases h <;> rfl

/-- The beginning of an agent's step leaves memory, FRAME (which is `frameStep_mem`) and the host's write apart. -/
theorem beginInput_mem {b u : State} {i : Input} (hi : i ≠ .frame) (hw : ∀ a v, i ≠ .memWrite a v)
    (h : beginInput b i = .next u) : u.mem = b.mem := by
  cases i with
  | frame => exact absurd rfl hi
  | memWrite a v => exact absurd rfl (hw a v)
  | regWrite i v =>
    simp only [beginInput, regWrite] at h
    split at h
    · obtain ⟨w, hx, hc⟩ := exec_commandStep _ b (decodeCtrl_space v)
      cases hx.symm.trans h
      exact hc.mem
    · cases h
      rw [writeCfg_frame]
  | sinkPop => cases h; rw [sinkPop_frame]
  | evPop => cases h; rw [evPop_frame]
  | regRead | memRead | sinkFail | reset => cases h; rfl

/-- Settles O58: by how much of the step is done and, between steps, by the agent whose step it is. A platform reset
keeps memory in the model too (log entry 18), so its premise is not used. -/
theorem blockNeverWritesMemory : Obligations.BlockNeverWritesMemory := by
  intro s t hw _ h
  by_cases hp : s.phase = .idle
  · obtain ⟨rest, hf⟩ | ⟨i, rest, u, hi, hin, hu, ht⟩ := step_cases hp h
    · exact frameStep_mem (b := s.moved rest) hp hf
    · have hb := beginInput_mem hi (fun a v e => hw a v rest (e ▸ hin)) hu
      exact (finishStep_mem ht).trans hb
  · rw [step_busy s hp] at h
    exact finishStep_mem h

/-! ## The block's reads stay inside the image (20_memory.md R68) -/

/-- The cells of the stored patterns lie before the first sample (20_memory.md R64, R65). -/
theorem cellAddr_below_samples {c p q r k : Nat} (hp : p < q) (hr : r < 64) (hk : k < c) :
    cellAddr c p r k + 4 ≤ 1084 + q * 256 * c := by
  have hrow : (p * 64 + r) * c + k + 1 ≤ q * 64 * c := calc
    (p * 64 + r) * c + k + 1 ≤ (p * 64 + r + 1) * c := by rw [Nat.succ_mul]; omega
    _ ≤ q * 64 * c := Nat.mul_le_mul_right c (by omega)
  have hq : q * 256 * c = q * 64 * c * 4 := by ring
  simp only [cellAddr]
  omega

/-- The reads that the mixer makes for a cursor at `pos` lie in an image of `len` bytes: the frame, its interpolation
neighbour and the loop start (44_mixer.md R283, R284). -/
structure MixReadsWithin (len : Nat) (hd : SampleHdr) (pos : Nat) : Prop where
  /-- The frame under the cursor. -/
  frame : hd.base.toNat + pos < len
  /-- The next frame of the region. -/
  next : pos + 1 < regionEnd hd → hd.base.toNat + (pos + 1) < len
  /-- The loop's first frame. -/
  loopStart : hd.loopEn = true → hd.base.toNat + hd.loopStart.toNat < len

/-- A PCM fetch below 2^32 answers. -/
theorem pcm_of_lt {s : State} {k : Fin 8} {hd : SampleHdr} {j : Nat} (h : hd.base.toNat + j < 2 ^ 32) :
    pcm s k hd j = .ok (byteAt s k.val (hd.base.toNat + j)).toInt := by
  rw [pcm, if_pos h]

/-- The interpolation neighbour has a value where the mixer's reads lie in an image. -/
theorem nextFrameValue_exists {s : State} {k : Fin 8} {hd : SampleHdr} {pos len : Nat} (h : MixReadsWithin len hd pos)
    (hlen : len ≤ 2 ^ 32) : ∃ v, nextFrameValue s k hd pos = .ok v := by
  unfold nextFrameValue
  split
  · exact ⟨_, pcm_of_lt (lt_of_lt_of_le (h.next ‹_›) hlen)⟩
  · split
    · exact ⟨_, pcm_of_lt (lt_of_lt_of_le (h.loopStart ‹_›) hlen)⟩
    · exact ⟨_, rfl⟩

/-- A channel has its value where the mixer's reads lie in an image. -/
theorem sampleValue_of_within {s : State} {k : Fin 8} {len : Nat}
    (h : MixReadsWithin len (s.hdr (s.getCh k).smp.toNat) (s.getCh k).posInt.toNat) (hlen : len ≤ 2 ^ 32) :
    sampleValue s k = .ok (mixedValue s k) := by
  have hv : ∃ v, sampleValue s k = .ok v := by
    obtain ⟨v, hn⟩ := nextFrameValue_exists (s := s) (k := k) h hlen
    simp only [sampleValue, pcm_of_lt (lt_of_lt_of_le h.frame hlen), hn]
    split <;> exact ⟨_, rfl⟩
  obtain ⟨v, hv⟩ := hv
  rw [hv, sampleValue_ok hv]

section
variable {s : State} {m : Memory} {len : Nat}
  (hm : ∀ who a : Nat, a < len → byteAt { s with mem := m } who a = byteAt s who a)
include hm

/-- A PCM fetch inside an image is given by the image's bytes. -/
theorem pcm_of_agree (k : Fin 8) {hd : SampleHdr} {j : Nat} (hj : hd.base.toNat + j < len) :
    pcm { s with mem := m } k hd j = pcm s k hd j := by
  rw [pcm, pcm, hm _ _ hj]

/-- The interpolation neighbour is given by the bytes of an image that the mixer's reads lie in. -/
theorem nextFrameValue_of_agree (k : Fin 8) {hd : SampleHdr} {pos : Nat} (h : MixReadsWithin len hd pos) :
    nextFrameValue { s with mem := m } k hd pos = nextFrameValue s k hd pos :=
  ite_congr rfl (fun hn => pcm_of_agree hm k (h.next hn)) fun _ =>
    ite_congr rfl (fun hl => pcm_of_agree hm k (h.loopStart hl)) fun _ => rfl

/-- A channel's value is given by the bytes of an image that the mixer's reads lie in. -/
theorem sampleValue_of_agree {k : Fin 8} (h : MixReadsWithin len (s.hdr (s.getCh k).smp.toNat) (s.getCh k).posInt.toNat) :
    sampleValue { s with mem := m } k = sampleValue s k := by
  have hc : ({ s with mem := m } : State).getCh k = s.getCh k := rfl
  have hh : ∀ n, ({ s with mem := m } : State).hdr n = s.hdr n := fun _ => rfl
  simp only [sampleValue, hc, hh, pcm_of_agree hm k h.frame, nextFrameValue_of_agree hm k h]

end

section
variable {s : State} (hs : SongLoaded s)
include hs

/-- Every frame of a sample lies in the image (20_memory.md R66). -/
theorem SongLoaded.frame_in_image {n j : Nat} (h1 : 1 ≤ n) (h31 : n ≤ 31) (hj : j < (s.hdr n).len.toNat) :
    (s.hdr n).base.toNat + j < s.act.len.toNat := by
  obtain ⟨-, hend⟩ := hs.payload n h1 h31
  omega

/-- The region that the cursor plays ends inside the sample, and an enabled loop begins there (30_encoding.md R93). -/
theorem SongLoaded.region_in_sample (n : Nat) : regionEnd (s.hdr n) ≤ (s.hdr n).len.toNat
    ∧ ((s.hdr n).loopEn = true → (s.hdr n).loopStart.toNat < (s.hdr n).len.toNat) := by
  have hl := hs.loops n
  unfold regionEnd
  split
  · obtain ⟨h4, hle⟩ := hl ‹_›
    exact ⟨hle, fun _ => by omega⟩
  · exact ⟨Nat.le_refl _, fun h => absurd h ‹_›⟩

/-- Every byte of a cell of the song's channels lies in the image (20_memory.md R65). -/
theorem SongLoaded.cell_in_image {k : Fin 8} (hk : k.val < s.latch.chanCount.toNat) :
    cellAddr s.latch.chanCount.toNat (s.latch.orderTab[s.seq.order.toNat]'s.seq.order.isLt).toNat s.seq.row.toNat k.val + 3
      < s.act.len.toNat := by
  have hpattern : (s.latch.orderTab[s.seq.order.toNat]'s.seq.order.isLt).toNat < s.latch.patCount.toNat :=
    hs.orderTab ⟨s.seq.order.toNat, s.seq.order.isLt⟩
  have hbelow := cellAddr_below_samples hpattern s.seq.row.isLt hk
  obtain ⟨hfirst, hend⟩ := hs.payload 1 (by decide) (by decide)
  rw [← hs.smpBase] at hbelow
  omega

/-- The mixer's reads of a sounding channel lie in the image (44_mixer.md R283, R284, R286). -/
theorem SongLoaded.mixReadsWithin {k : Fin 8} (h : silentChannel (s.getCh k) = false) :
    MixReadsWithin s.act.len.toNat (s.hdr (s.getCh k).smp.toNat) (s.getCh k).posInt.toNat := by
  simp only [silentChannel, Bool.or_eq_false_iff, Bool.not_eq_false', decide_eq_false_iff_not] at h
  obtain ⟨⟨hactive, hsmp⟩, -⟩ := h
  have h1 : 1 ≤ (s.getCh k).smp.toNat := Nat.pos_of_ne_zero fun e => hsmp (BitVec.eq_of_toNat_eq e)
  have h31 : (s.getCh k).smp.toNat ≤ 31 := Nat.le_of_lt_succ (s.getCh k).smp.isLt
  obtain ⟨hregion, hloop⟩ := hs.region_in_sample (s.getCh k).smp.toNat
  exact ⟨hs.frame_in_image h1 h31 (hs.cursor k hactive hsmp),
    fun hn => hs.frame_in_image h1 h31 (lt_of_lt_of_le hn hregion),
    fun hl => hs.frame_in_image h1 h31 (hloop hl)⟩

/-- Every sounding channel of a loaded song has its value. -/
theorem SongLoaded.sampleValue_eq {k : Fin 8} (h : silentChannel (s.getCh k) = false) :
    sampleValue s k = .ok (mixedValue s k) :=
  sampleValue_of_within (hs.mixReadsWithin h) s.act.len.isLt.le

/-- The cells of the current row are given by the bytes of the image. -/
theorem SongLoaded.fetchBytes_of_agree {m : Memory}
    (hm : ∀ who a : Nat, a < s.act.len.toNat → byteAt { s with mem := m } who a = byteAt s who a)
    {k : Fin 8} (hk : k.val < s.latch.chanCount.toNat) :
    fetchBytes { s with mem := m, chan := k } = fetchBytes { s with chan := k } := by
  have hcell := hs.cell_in_image hk
  have hb : ∀ a, a < s.act.len.toNat →
      byteAt { s with mem := m, chan := k } k.val a = byteAt { s with chan := k } k.val a := hm k.val
  simp only [fetchBytes]
  rw [hb _ (by omega), hb _ (by omega), hb _ (by omega), hb _ hcell]

end

/-- Settles O56: the addresses lie in the image by the song's bounds, and what is read there is given by the image's bytes. -/
theorem readsStayInImage : Obligations.ReadsStayInImage := by
  intro s hs
  refine ⟨fun k hk => hs.cell_in_image hk, fun k hk => ?_, fun m hm k =>
    ⟨hs.fetchBytes_of_agree hm, fun hk => sampleValue_of_agree hm (hs.mixReadsWithin hk)⟩⟩
  obtain ⟨hframe, hnext, hloop⟩ := hs.mixReadsWithin hk
  exact ⟨hframe, hnext, hloop, hs.sampleValue_eq hk⟩

/-! ## The tables (30_encoding.md R97, R108, R110, R111) -/

/-- The signatures and their channel counts, as 32-bit numbers (30_encoding.md R97). -/
theorem signatureChannels_eq_some (x c : Nat) : signatureChannels x = some c ↔
    (x, c) ∈ [(0x4D2E4B2E, 4), (0x4D214B21, 4), (0x464C5434, 4), (0x3443484E, 4), (0x3643484E, 6), (0x3843484E, 8)] := by
  simp only [List.mem_cons, List.not_mem_nil, or_false, Prod.mk.injEq]
  unfold signatureChannels
  split_ifs
  case neg => rw [false_iff]; omega
  all_goals rw [Option.some.injEq]; omega

/-- An entry of the signature table as its four bytes, the most significant first (20_memory.md R62). -/
theorem quad_entry_iff {rd : Nat → Byte} {a c x n y0 y1 y2 y3 : Nat} (hx : x = (y0 * 256 + y1) * 65536 + (y2 * 256 + y3))
    (h1 : y1 < 256) (h2 : y2 < 256) (h3 : y3 < 256) :
    (quad rd a, c) = (x, n) ↔
      ((rd a).toNat, (rd (a + 1)).toNat, (rd (a + 2)).toNat, (rd (a + 3)).toNat, c) = (y0, y1, y2, y3, n) := by
  rw [hx, Prod.mk.injEq, quad_eq_iff rd a y0 y1 y2 y3 h1 h2 h3]
  simp only [Prod.mk.injEq, and_assoc]

/-- The ramp falls from 255 in the second half of its 64 phases (30_encoding.md R111). -/
theorem wave_ramp (pos : BitVec 6) :
    wave 1#2 pos = if pos.toNat < 32 then 8 * pos.toNat else 255 - 8 * (pos.toNat - 32) := by
  have hlt := pos.isLt
  have hw : wave 1#2 pos = if pos.toNat < 32 then 8 * (pos.toNat % 32) else 255 - 8 * (pos.toNat % 32) := rfl
  rw [hw]
  split <;> omega

/-- Settles O18: the signatures entry by entry, the closed tables by evaluation, the ramp by its two halves. -/
theorem tableValues : Obligations.TableValues := by
  refine ⟨fun rd a c => ?_, by decide, by decide, fun pos => ⟨wave_ramp pos, rfl, rfl⟩⟩
  rw [signatureChannels_eq_some]
  simp only [List.mem_cons, List.not_mem_nil, or_false]
  iterate 5 refine or_congr (quad_entry_iff rfl (by decide) (by decide) (by decide)) ?_
  exact quad_entry_iff rfl (by decide) (by decide) (by decide)

end Sys2Proof.Machine
end

section
/-! PROOFS. The encoding (30_encoding.md R98 to R115): decoding and encoding are inverse in both spaces, the lookup of a cell
period, and every cell completes. -/

namespace Sys2Proof

/-- Decoding the bytes of a cell word decodes the word and gives back what follows. -/
theorem decode_cell_append (w : Word) (rest : List Byte) : decode .cell (wordBytes w ++ rest) = .ok (decodeWord w, rest) := by
  simp only [wordBytes, List.cons_append, List.nil_append, decode, bytesWord_wordBytes]

/-- Decoding the bytes of a CTRL value decodes the value and gives back what follows. -/
theorem decode_ctrl_append (w : Word) (rest : List Byte) : decode .ctrl (wordBytes w ++ rest) = .ok (decodeCtrl w, rest) := by
  simp only [wordBytes, List.cons_append, List.nil_append, decode, bytesWord_wordBytes]

@[simp] theorem decodeWord_cellWord (c : Cell) : decodeWord (cellWord c) = cellKind c := by
  rw [decodeWord, wordCell_cellWord]

/-- A cell with command 0 and a nonzero parameter is an arpeggio (30_encoding.md R102). -/
theorem cellKind_arp (p : BitVec 12) (n : BitVec 8) (x y : BitVec 4) (h : (Instr.arp p n x y).wf = true) :
    cellKind ⟨p, n, 0x0#4, joinNibbles x y⟩ = .arp p n x y := by
  have hne : joinNibbles x y ≠ 0x00#8 := fun e => by
    obtain ⟨hx, hy⟩ := (joinNibbles_eq_zero x y).1 e
    subst hx hy
    exact absurd h Bool.false_ne_true
  simp only [cellKind, if_true, if_neg hne, hiNibble_joinNibbles, loNibble_joinNibbles]

/-- A cell with command 0xE has the sub-command that its parameter's first nibble selects (30_encoding.md R103). -/
theorem cellKind_extended (p : BitVec 12) (n : BitVec 8) (x y : BitVec 4) :
    cellKind ⟨p, n, 0xE#4, joinNibbles x y⟩ = extendedKind p n x y := by
  simp [cellKind]

/-- The word of a well-formed cell instruction decodes to it. -/
theorem decodeWord_encode (i : Instr) (hw : i.wf = true) (hs : i.space = .cell) : decodeWord (encode i) = i := by
  cases i
  case noEffect | pup | pdn | tporta | pan | offs | jump | vol | spd => rw [encode, decodeWord_cellWord]; rfl
  case arp => rw [encode, decodeWord_cellWord, cellKind_arp _ _ _ _ hw]
  case vib p n x y | tpvs p n x y | vibvs p n x y | trem p n x y | vsld p n x y | brk p n x y =>
    simp [encode, cellKind]
  case efilt | efpu | efpd | eglis | evwav | eftun | eloop | etwav | eun8 | ertrg | efvu | efvd | ecut | edly | epdly | einv =>
    rw [encode, decodeWord_cellWord, cellKind_extended]; rfl
  all_goals exact absurd hs (by decide)

/-- The word of a host command decodes to it. -/
theorem decodeCtrl_encode (i : Instr) (hs : i.space = .ctrl) : decodeCtrl (encode i) = i := by
  cases i
  case nop | start | pause | resume | stop | rsvd5 | rsvd6 | rsvd7 => rfl
  all_goals exact absurd hs (by simp [Instr.space])

/-- Settles O2: by the space of the instruction. -/
theorem decodeOfEncode : Obligations.DecodeOfEncode := by
  intro i rest hw
  cases hs : i.space with
  | cell => rw [decode_cell_append, decodeWord_encode i hw hs]
  | ctrl => rw [decode_ctrl_append, decodeCtrl_encode i hs]

/-- A choice between instructions that both have the word `w`. -/
theorem encode_ite {q : Prop} [Decidable q] {a b : Instr} {w : Word} (ha : q → encode a = w) (hb : ¬q → encode b = w) :
    encode (if q then a else b) = w := by
  split
  · exact ha ‹_›
  · exact hb ‹_›

/-- The word of an extended effect is the word of its cell. -/
theorem encode_extendedKind (p : BitVec 12) (n : BitVec 8) (x y : BitVec 4) :
    encode (extendedKind p n x y) = cellWord ⟨p, n, 0xE#4, joinNibbles x y⟩ := by
  unfold extendedKind
  iterate 15 refine encode_ite (fun h => by rw [h]; rfl) fun _ => ?_
  have hx : x = 0xF#4 := by bv_omega
  rw [hx]; rfl

/-- The word of a cell's effect kind is the word of the cell: the kind keeps every field. -/
theorem encode_cellKind (c : Cell) : encode (cellKind c) = cellWord c := by
  obtain ⟨p, n, cmd, param⟩ := c
  have hb := joinNibbles_nibbles param
  unfold cellKind
  refine encode_ite (fun h => encode_ite (fun h0 => ?_) fun _ => ?_) fun _ => ?_
  · simp only at h h0; rw [h, h0]; rfl
  · simp only at h; rw [h, encode, hb]
  iterate 13 refine encode_ite (fun h => by simp only at h; simp only [h, encode, hb]) fun _ => ?_
  refine encode_ite (fun h => by simp only at h; rw [h, encode_extendedKind, hb]) fun _ => ?_
  have hF : cmd = 0xF#4 := by bv_omega
  rw [hF]; rfl

/-- Settles O3: the kind of the word's fields, which is well-formed and keeps every field. -/
theorem everyCellWordDecodes : Obligations.EveryCellWordDecodes := by
  intro w
  refine ⟨decodeWord w, cellKind_wf _, cellKind_space _, decode_cell_wordBytes w, ?_⟩
  rw [decodeWord, encode_cellKind, cellWord_wordCell]

/-- Settles O1: by evaluation of the decoder on the closed words. -/
theorem writtenWordsDecode : Obligations.WrittenWordsDecode := by
  unfold Obligations.WrittenWordsDecode
  decide

/-- The command of a CTRL value is given by its bits 2 to 0 alone (30_encoding.md R112). -/
theorem decodeCtrl_congr {v w : Word} (h : v.toNat % 8 = w.toNat % 8) : decodeCtrl v = decodeCtrl w := by
  have hop : v.extractLsb' 0 3 = w.extractLsb' 0 3 := by
    rw [Machine.lowBits_eq, Machine.lowBits_eq]; exact congrArg _ h
  simp only [decodeCtrl, hop]

/-- A CTRL value with the op of a host command's word is that command. -/
theorem decodeCtrl_of_op {v : Word} {i : Instr} (hs : i.space = .ctrl) (h : v.toNat % 8 = (encode i).toNat % 8) :
    decodeCtrl v = i :=
  (decodeCtrl_congr h).trans (decodeCtrl_encode i hs)

/-- Settles O13: each op is that of its command's word, and the commands without effect are `exec`'s identity arms. -/
theorem ctrlCommands : Obligations.CtrlCommands :=
  ⟨fun _ => ⟨decodeCtrl_of_op (i := .nop) rfl, decodeCtrl_of_op (i := .start) rfl, decodeCtrl_of_op (i := .pause) rfl,
    decodeCtrl_of_op (i := .resume) rfl, decodeCtrl_of_op (i := .stop) rfl, decodeCtrl_of_op (i := .rsvd5) rfl,
    decodeCtrl_of_op (i := .rsvd6) rfl, decodeCtrl_of_op (i := .rsvd7) rfl⟩, fun _ => ⟨rfl, rfl, rfl, rfl⟩⟩

end Sys2Proof

namespace Sys2Proof.Machine

/-! ## The period lookup (30_encoding.md R108) -/

/-- The note at or below a period is the least whose period is not above it, or note 35. -/
theorem noteAtOrBelow_spec (r : Nat) (p : BitVec 12) :
    noteAtOrBelow r p ≤ 35
    ∧ (∀ j, j < noteAtOrBelow r p → p.toNat < (periodTable r j).toNat)
    ∧ ((periodTable r (noteAtOrBelow r p)).toNat ≤ p.toNat ∨ noteAtOrBelow r p = 35) := by
  cases h : (List.range 36).find? (fun n => (periodTable r n).toNat ≤ p.toNat) with
  | none =>
    have hn : noteAtOrBelow r p = 35 := by rw [noteAtOrBelow, h, Option.getD_none]
    rw [List.find?_range_eq_none] at h
    rw [hn]
    exact ⟨Nat.le_refl _, fun j hj => by simpa using h j (by omega), .inr rfl⟩
  | some n =>
    have hn : noteAtOrBelow r p = n := by rw [noteAtOrBelow, h, Option.getD_some]
    obtain ⟨hle, hmem, hbefore⟩ := List.find?_range_eq_some.1 h
    rw [hn]
    exact ⟨by have := List.mem_range.1 hmem; omega, fun j hj => by simpa using hbefore j hj, .inl (by simpa using hle)⟩

/-- The finetune-0 row falls strictly from note to note. -/
theorem periodTable_zero_strictAnti (m n : Nat) (hmn : m < n) (hn : n ≤ 35) :
    (periodTable 0 n).toNat < (periodTable 0 m).toNat := by
  have hall : ∀ n : Fin 36, ∀ m : Fin n.val, (periodTable 0 n.val).toNat < (periodTable 0 m.val).toNat := by decide
  exact hall ⟨n, by omega⟩ ⟨m, hmn⟩

/-- Settles O39: the note found in the finetune-0 row, which falls strictly from 856 at note 0 to 113 at note 35. -/
theorem lookupSnapsToTable : Obligations.LookupSnapsToTable := by
  intro p ft
  obtain ⟨hn, habove, hbelow⟩ := noteAtOrBelow_spec 0 p
  have hfirst : (periodTable 0 0).toNat = 856 := by decide
  have hlast : (periodTable 0 35).toNat = 113 := by decide
  refine ⟨noteAtOrBelow 0 p, hn, rfl, habove, hbelow, fun hp => ?_, fun hp => ?_, fun j hj hpj => ?_⟩
  · by_contra h0
    have := habove 0 (by omega)
    omega
  · by_contra h35
    have := periodTable_zero_strictAnti (noteAtOrBelow 0 p) 35 (by omega) (by decide)
    omega
  · subst hpj
    rcases Nat.lt_trichotomy (noteAtOrBelow 0 (periodTable 0 j)) j with hlt | heq | hgt
    · have := periodTable_zero_strictAnti _ j hlt hj
      omega
    · exact heq
    · exact absurd (habove j hgt) (Nat.lt_irrefl _)

/-! ## Every cell completes (30_encoding.md R105) -/

/-- A cell's step reads memory as before, for every reader. -/
theorem CellStep.sameMemory {k : Fin 8} {s t : State} (h : CellStep k s t) : SameMemory s t := by
  intro who a
  rw [h.frame]; rfl

/-- Settles O38: every cell instruction is a cell's step on the current channel. -/
theorem cellsNeverFault : Obligations.CellsNeverFault := by
  intro i s hi
  obtain ⟨t, ht, hc⟩ := exec_cellStep i s hi
  obtain ⟨horder, hrow, htick, hspeed⟩ := hc.pos
  exact ⟨t, ht, hc.frame, horder, hrow, htick, hspeed, hc.sameMemory⟩

end Sys2Proof.Machine
end

section
/-! PROOFS. What the song keeps (42_sequencer.md R200): the ranges of the sequencer, the volumes and the configuration in every
state, and of the latches, the cursors and the clock while a song plays or is paused. -/

namespace Sys2Proof.Machine

/-! ## The invariant without the phase -/

/-- The ranges that hold in every operating state (42_sequencer.md R200, 10_state.md R40). -/
structure RangesFit (s : State) : Prop where
  /-- 42_sequencer.md R200. -/
  speed : 1 ≤ s.seq.speed.toNat
  /-- 42_sequencer.md R200. -/
  tick : s.seq.tick.toNat < s.seq.speed.toNat
  /-- 42_sequencer.md R200. -/
  tempo : 32 ≤ s.seq.tempo.toNat
  /-- 42_sequencer.md R200. -/
  volumes : ∀ k : Fin 8, (s.getCh k).vol.toNat ≤ 64 ∧ (s.getCh k).outVol.toNat ≤ 64
  /-- 10_state.md R40. -/
  cfgRate : 8000 ≤ s.cfg.rate.toNat ∧ s.cfg.rate.toNat ≤ 192000

/-- A song plays or is paused. -/
def InSong (s : State) : Prop := s.seqState = .playing ∨ s.seqState = .paused

/-- What `SongInv` asks of a state, however much of its step is still to be done. -/
structure SongFits (s : State) : Prop where
  /-- In every operating state. -/
  ranges : RangesFit s
  /-- While a song plays or is paused. -/
  song : InSong s → SongLoaded s

theorem songInv_iff (s : State) : SongInv s ↔ s.phase = .idle ∧ SongFits s :=
  ⟨fun h => ⟨h.idle, ⟨h.speed, h.tick, h.tempo, h.volumes, h.cfgRate⟩, h.song⟩,
    fun ⟨hi, ⟨h1, h2, h3, h4, h5⟩, hs⟩ => ⟨hi, h1, h2, h3, h4, h5, hs⟩⟩

/-- The ranges are those of the sequencer registers, the channels and CFG_RATE. -/
theorem RangesFit.congr {s t : State} (h : RangesFit s) (hseq : t.seq = s.seq) (hch : t.ch = s.ch)
    (hrate : t.cfg.rate = s.cfg.rate) : RangesFit t where
  speed := by rw [hseq]; exact h.speed
  tick := by rw [hseq]; exact h.tick
  tempo := by rw [hseq]; exact h.tempo
  volumes k := by rw [State.getCh, hch]; exact h.volumes k
  cfgRate := by rw [hrate]; exact h.cfgRate

/-- The clock registers are in range (41_clock.md R161, R166). -/
def ClockFits (c : ClockRegs) : Prop :=
  c.frameInTick.toNat ≤ c.fptLatched.toNat ∧ 78 ≤ c.fptLatched.toNat ∧ c.fptLatched.toNat ≤ 15000

/-- A song stays loaded where the latches and the active configuration stay, the order stays in the song, the clock in its
range and every sounding cursor in its sample. -/
theorem SongLoaded.update {s t : State} (h : SongLoaded s) (hlatch : t.latch = s.latch) (hact : t.act = s.act)
    (horder : t.seq.order.toNat < s.latch.songLen.toNat) (hclock : ClockFits t.clk)
    (hcursor : ∀ k : Fin 8, (t.getCh k).active = true → (t.getCh k).smp ≠ 0#5 →
      (t.getCh k).posInt.toNat < (s.hdr (t.getCh k).smp.toNat).len.toNat) : SongLoaded t where
  channels := by rw [hlatch]; exact h.channels
  order := by rw [hlatch]; exact horder
  songLen := by rw [hlatch]; exact h.songLen
  patterns := by rw [hlatch]; exact h.patterns
  orderTab := by rw [hlatch]; exact h.orderTab
  smpBase := by rw [hlatch]; exact h.smpBase
  payload n := by rw [hdr_congr s t hlatch, hlatch, hact]; exact h.payload n
  loops n := by rw [hdr_congr s t hlatch]; exact h.loops n
  defaults n := by rw [hdr_congr s t hlatch]; exact h.defaults n
  rate := by rw [hact]; exact h.rate
  clock := hclock
  cursor k := by rw [hdr_congr s t hlatch]; exact hcursor k

/-- A song stays loaded where nothing that `SongLoaded` speaks of changes. -/
theorem SongLoaded.congr {s t : State} (h : SongLoaded s) (hlatch : t.latch = s.latch) (hact : t.act = s.act)
    (horder : t.seq.order = s.seq.order) (hclk : t.clk = s.clk) (hch : t.ch = s.ch) : SongLoaded t :=
  h.update hlatch hact (by rw [horder]; exact h.order) (by rw [hclk]; exact h.clock)
    (by simp only [State.getCh, hch]; exact h.cursor)

/-- A change outside the sequencer registers, the channels and CFG_RATE keeps what holds, if it leaves the song or leaves the
latches, the active configuration and the clock. -/
theorem SongFits.congr {s t : State} (h : SongFits s) (hseq : t.seq = s.seq) (hch : t.ch = s.ch) (hcfg : t.cfg.rate = s.cfg.rate)
    (hsong : InSong t → InSong s ∧ t.latch = s.latch ∧ t.act = s.act ∧ t.clk = s.clk) : SongFits t where
  ranges := h.ranges.congr hseq hch hcfg
  song ht := by
    obtain ⟨hs, hlatch, hact, hclk⟩ := hsong ht
    exact (h.song hs).congr hlatch hact (by rw [hseq]) hclk hch

/-! ## The cells of a tick and the frame -/

/-- In a loaded song every channel is in range. -/
theorem SongLoaded.chanFits {s : State} (h : SongLoaded s) (hr : RangesFit s) (k : Fin 8) : ChanFits s (s.getCh k) :=
  ⟨(hr.volumes k).1, (hr.volumes k).2, h.cursor k⟩

theorem CellsStep.latch {ks : List (Fin 8)} {s t : State} (h : CellsStep ks s t) : t.latch = s.latch := by rw [h.frame]

theorem CellsStep.act {ks : List (Fin 8)} {s t : State} (h : CellsStep ks s t) : t.act = s.act := by rw [h.frame]

theorem CellsStep.cfg {ks : List (Fin 8)} {s t : State} (h : CellsStep ks s t) : t.cfg = s.cfg := by rw [h.frame]

theorem CellsStep.clk {ks : List (Fin 8)} {s t : State} (h : CellsStep ks s t) : t.clk = s.clk := by rw [h.frame]

/-- The cells of a tick keep the ranges and the song. -/
theorem CellsStep.keeps {ks : List (Fin 8)} {s t : State} (h : CellsStep ks s t) (hr : RangesFit s) (hs : SongLoaded s) :
    RangesFit t ∧ SongLoaded t := by
  obtain ⟨horder, -, htick, hspeed⟩ := h.pos
  have hfits := h.fits hs.defaults (hs.chanFits hr)
  constructor
  · exact ⟨by rw [hspeed]; exact hr.speed, by rw [htick, hspeed]; exact hr.tick, h.tempo hr.tempo,
      fun k => ⟨(hfits k).1, (hfits k).2.1⟩, by rw [h.cfg]; exact hr.cfgRate⟩
  · exact hs.update h.latch h.act (by rw [horder]; exact hs.order) (by rw [h.clk]; exact hs.clock) fun k => (hfits k).2.2

/-- The end check writes the cursor and the two flags alone (44_mixer.md R286). -/
theorem endCheck_frame (hd : SampleHdr) (h : Channel) : endCheck hd h = { h with
    posInt := (endCheck hd h).posInt, active := (endCheck hd h).active, loopActive := (endCheck hd h).loopActive } := by
  unfold endCheck
  split_ifs <;> rfl

/-- A frame's advance and end check leave the volumes and the sample. -/
theorem mixedChannel_fields (s : State) (k : Fin 8) : (mixedChannel s k).vol = (s.getCh k).vol
    ∧ (mixedChannel s k).outVol = (s.getCh k).outVol ∧ (mixedChannel s k).smp = (s.getCh k).smp := by
  rw [mixedChannel, endCheck_frame]
  exact ⟨rfl, rfl, rfl⟩

/-- A channel that a frame moves stays in range (44_mixer.md R285, R286). -/
theorem mixedChannel_chanFits {s : State} (hs : SongLoaded s) (hr : RangesFit s) {k : Fin 8}
    (hk : silentChannel (s.getCh k) = false) : ChanFits s (mixedChannel s k) := by
  obtain ⟨hvol, hout, hsmp⟩ := mixedChannel_fields s k
  obtain ⟨hv, ho, hc⟩ := hs.chanFits hr k
  obtain ⟨hactive, hbound, hperiod⟩ : (s.getCh k).active = true ∧ (s.getCh k).smp ≠ 0#5 ∧ (s.getCh k).outPeriod ≠ 0#12 := by
    simpa [silentChannel, and_assoc] using hk
  refine ⟨by rw [hvol]; exact hv, by rw [hout]; exact ho, fun ha _ => ?_⟩
  rw [hsmp]
  exact (cursor_after_frame hs.rate.1 hperiod (hc hactive hbound) (hs.loops _)).2 ha

/-- A frame leaves every channel of a loaded song in range. -/
theorem produceFrame_chanFits {u t : State} (h : produceFrame u = .next t) (hr : RangesFit u) (hs : SongLoaded u) (k : Fin 8) :
    ChanFits u (t.getCh k) := by
  obtain ⟨f, -, hpaused, hmixed⟩ := produceFrame_spec u t h
  by_cases hq : u.seqState = .paused
  · rw [(hpaused hq).2 k]; exact hs.chanFits hr k
  · rw [hmixed hq k]
    split
    · rename_i hk; exact mixedChannel_chanFits hs hr hk.2
    · exact hs.chanFits hr k

/-- The frame of a FRAME step keeps the invariant, where the tick has a frame left. -/
theorem produceFrame_songInv {u t : State} (h : produceFrame u = .next t) (hr : RangesFit u) (hs : SongLoaded u)
    (hclk : u.clk.frameInTick.toNat < u.clk.fptLatched.toNat) : SongInv t := by
  have hfits := produceFrame_chanFits h hr hs
  obtain ⟨f, hframe, -⟩ := produceFrame_spec u t h
  have hseq : t.seq = u.seq := by rw [hframe]
  have hcfg : t.cfg = u.cfg := by rw [hframe]
  have hnext : t.clk = { u.clk with frameInTick := u.clk.frameInTick + 1 } := by rw [hframe]
  obtain ⟨-, hlow, hhigh⟩ := hs.clock
  have hclock : ClockFits t.clk := by
    rw [hnext]
    have hadd : (u.clk.frameInTick + 1).toNat = u.clk.frameInTick.toNat + 1 := by bv_omega
    exact ⟨hadd ▸ hclk, hlow, hhigh⟩
  refine (songInv_iff t).2 ⟨by rw [hframe], ⟨?_, ?_, ?_, fun k => ⟨(hfits k).1, (hfits k).2.1⟩, ?_⟩, fun _ => ?_⟩
  · rw [hseq]; exact hr.speed
  · rw [hseq]; exact hr.tick
  · rw [hseq]; exact hr.tempo
  · rw [hcfg]; exact hr.cfgRate
  · exact hs.update (by rw [hframe]) (by rw [hframe]) (by rw [hseq]; exact hs.order) hclock fun k => (hfits k).2.2

/-! ## A FRAME step -/

/-- The frames per tick of a legal tempo and rate (41_clock.md R161). -/
theorem latchedFpt_range {tempo : BitVec 8} {rate : BitVec 18} (ht : 32 ≤ tempo.toNat)
    (hr : 8000 ≤ rate.toNat ∧ rate.toNat ≤ 192000) :
    78 ≤ (latchedFpt tempo rate).toNat ∧ (latchedFpt tempo rate).toNat ≤ 15000 := by
  have hlt := tempo.isLt
  have hlow : 78 ≤ framesPerTick tempo.toNat rate.toNat := (Nat.le_div_iff_mul_le (by omega)).2 (by omega)
  have hhigh : framesPerTick tempo.toNat rate.toNat < 15001 := (Nat.div_lt_iff_lt_mul (by omega)).2 (by omega)
  rw [latchedFpt, BitVec.toNat_ofNat, Nat.mod_eq_of_lt (by omega)]
  omega

/-- The clock at the start of a tick: nothing of it is produced yet, and its length is in range. -/
theorem tickClock_fits {tempo : BitVec 8} {rate : BitVec 18} (ht : 32 ≤ tempo.toNat)
    (hr : 8000 ≤ rate.toNat ∧ rate.toNat ≤ 192000) : ClockFits { fptLatched := latchedFpt tempo rate, frameInTick := 0 } :=
  ⟨Nat.zero_le _, latchedFpt_range ht hr⟩

/-- The clock's part of a tick boundary keeps the ranges and the song, and the new tick has a frame left. -/
theorem crossBoundary_keeps {b : State} (hr : RangesFit b) (hs : SongLoaded b) (p : Phase) (q : SeqState) :
    RangesFit { crossBoundary b with phase := p, seqState := q } ∧ SongLoaded { crossBoundary b with phase := p, seqState := q }
    ∧ (crossBoundary b).clk.frameInTick.toNat < (crossBoundary b).clk.fptLatched.toNat := by
  have hclock := tickClock_fits hr.tempo hs.rate
  exact ⟨hr.congr rfl rfl rfl, hs.update rfl rfl hs.order hclock hs.cursor, lt_of_lt_of_le (by decide : 0 < 78) hclock.2.1⟩

/-- The row advance keeps the ranges and the song. -/
theorem rowAdvance_keeps {d : State} (hr : RangesFit d) (hs : SongLoaded d) :
    RangesFit (rowAdvance d) ∧ SongLoaded (rowAdvance d) := by
  obtain ⟨hframe, -, htick, htempo, hspeed, horder⟩ := rowAdvance_spec d
  have hch : ∀ k, (rowAdvance d).getCh k = d.getCh k := fun k => by rw [hframe]; rfl
  have hone := hspeed hr.speed
  constructor
  · exact ⟨hone, by rw [htick]; exact hone, by rw [htempo]; exact hr.tempo, fun k => by rw [hch]; exact hr.volumes k,
      by rw [hframe]; exact hr.cfgRate⟩
  · exact hs.update (by rw [hframe]) (by rw [hframe]) (horder hs.order) (by rw [hframe]; exact hs.clock)
      (by simp only [hch]; exact hs.cursor)

/-- The next tick of a row keeps the ranges. -/
theorem nextTick_rangesFit {b d : State} (hr : RangesFit d) (hseq : d.seq = b.seq)
    (hne : b.seq.tick.toNat + 1 ≠ b.seq.speed.toNat) : RangesFit { d with seq := { b.seq with tick := b.seq.tick + 1 } } := by
  have htick := hr.tick
  have hlt := b.seq.speed.isLt
  rw [hseq] at htick
  have hadd : (b.seq.tick + 1).toNat = b.seq.tick.toNat + 1 := by bv_omega
  refine ⟨by rw [← hseq]; exact hr.speed, ?_, by rw [← hseq]; exact hr.tempo, hr.volumes, hr.cfgRate⟩
  show (b.seq.tick + 1).toNat < b.seq.speed.toNat
  omega

/-- The cells of a tick, then the frame, keep the invariant. -/
theorem cellsFrame_songInv {w t : State} {ks : List (Fin 8)} (hr : RangesFit w) (hs : SongLoaded w)
    (hclk : w.clk.frameInTick.toNat < w.clk.fptLatched.toNat) (h : thenNext (runCells ks w) produceFrame = .next t) :
    SongInv t := by
  obtain ⟨u, hu, hc⟩ := runCells_spec ks w
  rw [hu, thenNext_next] at h
  obtain ⟨hru, hsu⟩ := hc.keeps hr hs
  exact produceFrame_songInv h hru hsu (by rw [hc.clk]; exact hclk)

/-- FRAME is enabled only in a song. -/
theorem inSong_of_frameEnabled {b : State} (h : frameEnabled b = true) : InSong b := by
  simp only [frameEnabled, Bool.and_eq_true, Bool.or_eq_true, decide_eq_true_eq] at h
  exact h.1

/-- A FRAME step keeps the invariant. -/
theorem frameStep_songInv {b t : State} (h : SongInv b) (ht : finishStep (beginFrame b) = .next t) : SongInv t := by
  obtain ⟨hp, hr, hsong⟩ := (songInv_iff b).1 h
  rcases frame_cases b hp with ⟨-, e⟩ | ⟨he, ha, e⟩ | ⟨he, -, -, e⟩ | ⟨he, -, -, d, hd, hcases⟩
  · rw [e] at ht; cases ht; exact h
  · rw [e] at ht
    have hs := hsong (inSong_of_frameEnabled he)
    have hleft : b.clk.frameInTick.toNat < b.clk.fptLatched.toNat := by
      simpa only [atTickBoundary, decide_eq_false_iff_not, Nat.not_le] using ha
    exact produceFrame_songInv ht (hr.congr rfl rfl rfl) (hs.congr rfl rfl rfl rfl rfl) hleft
  · rw [e] at ht
    obtain ⟨hrc, hsc, hclk⟩ := crossBoundary_keeps hr (hsong (inSong_of_frameEnabled he)) .frameMix .paused
    exact produceFrame_songInv ht hrc hsc hclk
  · obtain ⟨hrd, hsd, hclk⟩ := crossBoundary_keeps hr (hsong (inSong_of_frameEnabled he)) .frameMix .playing
    rw [← hd] at hrd hsd
    replace hclk : d.clk.frameInTick.toNat < d.clk.fptLatched.toNat := by rw [hd]; exact hclk
    have hseq : d.seq = b.seq := by rw [hd]; rfl
    obtain ⟨hra, hsa⟩ := rowAdvance_keeps hrd hsd
    have hca : (rowAdvance d).clk = d.clk := by rw [(rowAdvance_spec d).1]
    rcases hcases with ⟨-, hf, e⟩ | ⟨-, -, e⟩ | ⟨hne, e⟩ <;> rw [e] at ht
    · cases ht
      exact (songInv_iff _).2 ⟨rfl, hra.congr rfl rfl rfl, fun _ => hsa.congr rfl rfl rfl rfl rfl⟩
    · refine cellsFrame_songInv ?_ ?_ ?_ ht
      · exact hra.congr rfl rfl rfl
      · exact hsa.congr rfl rfl rfl rfl rfl
      · rw [hca]; exact hclk
    · refine cellsFrame_songInv ?_ ?_ ?_ ht
      · exact (nextTick_rangesFit hrd hseq hne).congr rfl rfl rfl
      · exact hsd.congr rfl rfl (by rw [hseq]) rfl rfl
      · exact hclk

/-! ## The other agents' steps -/

/-- Every sample header of a latched image has a volume in range and an enabled loop inside its sample, the header of length 0
that stands for any other number among them (30_encoding.md R93; log entry 14). -/
theorem readLatches_hdr {s : State} {rd : Nat → Byte} {c : Nat} (hl : s.latch = readLatches rd c) (n : Nat) :
    (s.hdr n).vol.toNat ≤ 64 ∧ ((s.hdr n).loopEn = true → 4 ≤ (s.hdr n).loopLen.toNat
      ∧ (s.hdr n).loopStart.toNat + (s.hdr n).loopLen.toNat ≤ (s.hdr n).len.toNat) := by
  unfold State.hdr
  split
  · simp only [hl]; exact readLatches_samples rd c (n - 1) (by omega)
  · exact ⟨by decide, fun h => absurd h (by decide)⟩

/-- The ranges of a song's first registers, with every channel silent (10_state.md R21, R28, R29). -/
theorem rangesFit_initial {s : State} (hseq : s.seq = SeqRegs.initial) (hch : ∀ k, s.getCh k = Channel.silent)
    (hr : 8000 ≤ s.cfg.rate.toNat ∧ s.cfg.rate.toNat ≤ 192000) : RangesFit s where
  speed := by rw [hseq]; decide
  tick := by rw [hseq]; decide
  tempo := by rw [hseq]; decide
  volumes k := by rw [hch]; decide
  cfgRate := hr

/-- The channels of a song that begins are silent (10_state.md R21). -/
theorem beginSong_getCh (s : State) (l : Latches) (k : Fin 8) : (beginSong s l).getCh k = Channel.silent := by
  simp [State.getCh, beginSong, resetSong]

/-- A START that passed its checks leaves a loaded song (40_control.md R133, R135). -/
theorem beginSong_loaded {s : State} {l : Latches} (h : loadImage s = .ok l)
    (hr : 8000 ≤ s.act.rate.toNat ∧ s.act.rate.toNat ≤ 192000) : SongLoaded (beginSong s l) := by
  obtain ⟨c, -, hsig, rfl, hlow, hhigh, hpat, hlen⟩ := loadAndCheck_ok _ _ _ h
  have hc := signatureChannels_cases _ _ hsig
  have hlt := s.act.len.isLt
  have hof := readLatches_headerOf _ c _ hc hpat hlen hlt
  generalize byteAt s headerReader = rd at *
  have hlatch : (beginSong s (readLatches rd c)).latch = readLatches rd c := rfl
  have hdr := readLatches_hdr hlatch
  have hcount : (readLatches rd c).chanCount.toNat = c := hof.channels
  constructor
  case channels => rcases hc with rfl | rfl | rfl <;> simp [beginSong, resetSong, readLatches]
  case order => exact hlow
  case songLen => exact hhigh
  case patterns => exact (Nat.mod_le _ _).trans hpat
  case orderTab => intro i; rw [hlatch, hof.orderTab i]; exact hof.patternsAbove i
  case smpBase => rw [hlatch, hcount]; exact hof.smpBase
  case payload =>
    intro n h1 h31
    simp only [State.hdr, dif_pos (And.intro h1 h31)]
    exact readLatches_payload rd c _ hlen hlt (n - 1) (by omega)
  case loops => exact fun n => (hdr n).2
  case defaults => exact fun n => (hdr n).1
  case rate => exact hr
  case clock => exact tickClock_fits (by decide) hr
  case cursor => intro k ha; rw [beginSong_getCh] at ha; exact absurd ha (by decide)

/-- What is left to do after the beginning of an agent's step, FRAME apart: nothing, or the trigger phase of a song. -/
def RestIsCells (u : State) : Prop := u.phase = .idle ∨ u.phase = .startCells ∧ InSong u

/-- A host command keeps what the song keeps. -/
theorem CommandStep.songFits {b u : State} (h : CommandStep b u) (hp : b.phase = .idle) (hb : SongFits b) :
    SongFits u ∧ RestIsCells u := by
  cases h with
  | ignored => exact ⟨hb, .inl hp⟩
  | pauseFlag p hq => exact ⟨hb.congr rfl rfl rfl fun _ => ⟨hq, rfl, rfl, rfl⟩, .inl hp⟩
  | stopped => exact ⟨hb.congr rfl rfl rfl fun hq => by simp [InSong] at hq, .inl hp⟩
  | loadError => exact ⟨hb.congr rfl rfl rfl fun hq => by simp [InSong, raiseLoadError] at hq, .inl hp⟩
  | begun l _ hl =>
    have hrate := hb.ranges.cfgRate
    exact ⟨⟨rangesFit_initial rfl (beginSong_getCh _ l) hrate, fun _ => beginSong_loaded hl hrate⟩, .inr ⟨rfl, .inl rfl⟩⟩

/-- A register write leaves CFG_RATE at a legal rate (10_state.md R40). -/
theorem writeCfg_rate_legal (s : State) (i : BitVec 8) (v : Word)
    (h : 8000 ≤ s.cfg.rate.toNat ∧ s.cfg.rate.toNat ≤ 192000) :
    8000 ≤ (writeCfg s i v).cfg.rate.toNat ∧ (writeCfg s i v).cfg.rate.toNat ≤ 192000 := by
  unfold writeCfg
  split_ifs
  case pos hl => exact (legalRate_iff _).1 hl
  all_goals exact h

/-- A register write other than CTRL keeps what the song keeps. -/
theorem writeCfg_songFits {b : State} (i : BitVec 8) (v : Word) (h : SongFits b) : SongFits (writeCfg b i v) := by
  have hrate := writeCfg_rate_legal b i v h.ranges.cfgRate
  rw [writeCfg_frame]
  exact ⟨⟨h.ranges.speed, h.ranges.tick, h.ranges.tempo, h.ranges.volumes, hrate⟩,
    fun hq => (h.song hq).congr rfl rfl rfl rfl rfl⟩

/-- The platform's reset has what the song keeps (70_reset_and_hazards.md R361). -/
theorem platformReset_songFits (s : State) : SongFits (platformReset s) := by
  have hch : ∀ k, (platformReset s).getCh k = Channel.silent := fun k => by simp [State.getCh, platformReset, State.reset]
  exact ⟨rangesFit_initial rfl hch (by simp [platformReset, State.reset]),
    fun hq => by simp [InSong, platformReset, State.reset] at hq⟩

/-- The beginning of an agent's step, FRAME apart, keeps what the song keeps. -/
theorem beginInput_songFits {b u : State} {i : Input} (hi : i ≠ .frame) (hp : b.phase = .idle) (hb : SongFits b)
    (h : beginInput b i = .next u) : SongFits u ∧ RestIsCells u := by
  cases i with
  | frame => exact absurd rfl hi
  | regWrite i v =>
    simp only [beginInput, regWrite] at h
    split at h
    · obtain ⟨w, hw, hc⟩ := exec_commandStep _ b (decodeCtrl_space v)
      cases hw.symm.trans h
      exact hc.songFits hp hb
    · cases h
      exact ⟨writeCfg_songFits i v hb, .inl (by rw [writeCfg_frame]; exact hp)⟩
  | regRead | memWrite | memRead => cases h; exact ⟨hb.congr rfl rfl rfl fun hq => ⟨hq, rfl, rfl, rfl⟩, .inl hp⟩
  | sinkPop => cases h; rw [sinkPop_frame]; exact ⟨hb.congr rfl rfl rfl fun hq => ⟨hq, rfl, rfl, rfl⟩, .inl hp⟩
  | evPop => cases h; rw [evPop_frame]; exact ⟨hb.congr rfl rfl rfl fun hq => ⟨hq, rfl, rfl, rfl⟩, .inl hp⟩
  | sinkFail => cases h; exact ⟨hb.congr rfl rfl rfl fun hq => by simp [InSong, Machine.sinkFail] at hq, .inl hp⟩
  | reset => cases h; exact ⟨platformReset_songFits b, .inl rfl⟩

/-- The rest of a step that is over or has START's trigger phase to run keeps the invariant. -/
theorem finishStep_songInv {u t : State} (hu : SongFits u) (hp : RestIsCells u) (h : finishStep u = .next t) : SongInv t := by
  rcases hp with hp | ⟨hp, hq⟩
  · rw [finishStep_idle u hp] at h
    cases h
    exact (songInv_iff _).2 ⟨hp, hu⟩
  · obtain ⟨w, hw, hc⟩ := runCells_spec (u.channelsFrom u.chan.val) u
    rw [finishStep_startCells u hp, runTickCells, hw, thenNext_next] at h
    cases h
    obtain ⟨hr, hs⟩ := hc.keeps hu.ranges (hu.song hq)
    exact (songInv_iff _).2 ⟨rfl, hr.congr rfl rfl rfl, fun _ => hs.congr rfl rfl rfl rfl rfl⟩

/-- Settles O54: by the agent whose step it is. -/
theorem songInvariantKept : Obligations.SongInvariantKept := by
  intro s t hs h
  obtain ⟨hp, hfits⟩ := (songInv_iff s).1 hs
  have hm : ∀ rest, SongFits (s.moved rest) := fun rest => hfits.congr rfl rfl rfl fun hq => ⟨hq, rfl, rfl, rfl⟩
  obtain ⟨rest, hf⟩ | ⟨i, rest, u, hi, -, hu, ht⟩ := step_cases hp h
  · exact frameStep_songInv ((songInv_iff (s.moved rest)).2 ⟨hp, hm rest⟩) hf
  · obtain ⟨hfit, hrest⟩ := beginInput_songFits (b := s.moved rest) hi hp (hm rest) hu
    exact finishStep_songInv hfit hrest ht

end Sys2Proof.Machine
end

section
/-! PROOFS. The host commands (40_control.md R130 to R145): the step that runs a command, START's checks in their order, and the
changes of the operating state. -/

namespace Sys2Proof.Machine

/-! ## The command of a step (40_control.md R130, R132, R140 to R142) -/

/-- A stopped or finished song neither plays nor is paused. -/
theorem not_busy_of_quiet {q : SeqState} (h : q = .stopped ∨ q = .finished) : ¬(q = .playing ∨ q = .paused) := by
  rcases h with rfl | rfl <;> decide

/-- Settles O8: the bytes of a CTRL value decode to its command, and a CTRL write begins with that command's `exec`. -/
theorem ctrlStepRunsCommand : Obligations.CtrlStepRunsCommand := by
  intro s v rest i hp hi hd
  have hv : decodeCtrl v = i := by
    rw [decode_ctrl_wordBytes] at hd
    cases hd
    rfl
  rw [step_of_input hp hi, beginInput, regWrite, if_pos rfl, hv]
  rfl

/-- Settles O12: each command's own test of the operating state. -/
theorem pauseResumeStop : Obligations.PauseResumeStop := by
  intro s
  refine ⟨fun h => ⟨?_, ?_, fun _ _ => rfl, ?_, fun _ _ => rfl⟩, fun h => ⟨?_, ?_⟩, fun h => ⟨?_, fun _ _ => rfl⟩, fun h => ?_⟩
  · exact congrArg Host.Outcome.next (if_pos h)
  · exact congrArg Host.Outcome.next (if_pos h)
  · exact congrArg Host.Outcome.next (if_pos h)
  · exact congrArg Host.Outcome.next (if_neg (not_busy_of_quiet h))
  · exact congrArg Host.Outcome.next (if_neg (not_busy_of_quiet h))
  · exact congrArg Host.Outcome.next (if_neg h)
  · exact congrArg Host.Outcome.next (if_pos h)

/-! ## START's checks in their order (40_control.md R135) -/

/-- An image shorter than a header. -/
theorem loadAndCheck_short {rd : Nat → Byte} {len : Nat} (h : len < 1084) : loadAndCheck rd len = .error .truncatedData :=
  if_pos h

/-- An image with a header whose signature is not in the table. -/
theorem loadAndCheck_unsigned {rd : Nat → Byte} {len : Nat} (h : 1084 ≤ len) (hsig : signatureChannels (quad rd 1080) = none) :
    loadAndCheck rd len = .error .unknownSignature := by
  simp only [loadAndCheck, if_neg (Nat.not_lt.2 h), hsig]

section
variable {rd : Nat → Byte} {len c : Nat} (hlen : 1084 ≤ len) (hsig : signatureChannels (quad rd 1080) = some c)
include hlen hsig

/-- The checks of an image with a known signature, without the sample lengths, which cannot fail (40_control.md R137). -/
theorem loadAndCheck_signed : loadAndCheck rd len =
    if (rd 950).toNat = 0 ∨ 128 < (rd 950).toNat then .error .patternIndexOutOfRange
    else if 128 < patternCount rd then .error .patternIndexOutOfRange
    else if len < declaredLen rd c then .error .truncatedData
    else .ok (readLatches rd c) := by
  simp only [loadAndCheck, if_neg (Nat.not_lt.2 hlen), hsig, sampleTooLong_false, Bool.false_eq_true, if_false]
  rfl

/-- A song length of 0 or above 128. -/
theorem loadAndCheck_songLen (h : (rd 950).toNat = 0 ∨ 128 < (rd 950).toNat) :
    loadAndCheck rd len = .error .patternIndexOutOfRange := by
  rw [loadAndCheck_signed hlen hsig, if_pos h]

variable (hlow : 1 ≤ (rd 950).toNat) (hhigh : (rd 950).toNat ≤ 128)
include hlow hhigh

/-- An order entry of 128 or above. -/
theorem loadAndCheck_order (h : ∃ i, i < 128 ∧ 128 ≤ (rd (952 + i)).toNat) :
    loadAndCheck rd len = .error .patternIndexOutOfRange := by
  have hpat : 128 < patternCount rd := by
    obtain ⟨i, hi, hge⟩ := h
    by_contra hle
    have := (patternCount_le_iff rd).1 (Nat.not_lt.1 hle) i hi
    omega
  rw [loadAndCheck_signed hlen hsig, if_neg (by omega), if_pos hpat]

variable (hord : ∀ i, i < 128 → (rd (952 + i)).toNat < 128)
include hord

/-- An image shorter than it declares. -/
theorem loadAndCheck_declared (h : len < declaredLen rd c) : loadAndCheck rd len = .error .truncatedData := by
  rw [loadAndCheck_signed hlen hsig, if_neg (by omega), if_neg (Nat.not_lt.2 ((patternCount_le_iff rd).2 hord)), if_pos h]

/-- An image that passes every check. -/
theorem loadAndCheck_good (h : declaredLen rd c ≤ len) : loadAndCheck rd len = .ok (readLatches rd c) := by
  rw [loadAndCheck_signed hlen hsig, if_neg (by omega), if_neg (Nat.not_lt.2 ((patternCount_le_iff rd).2 hord)),
    if_neg (Nat.not_lt.2 h)]

end

/-! ## START (40_control.md R132, R133, R136) -/

section
variable {s : State} (hq : s.seqState = .stopped ∨ s.seqState = .finished)
include hq

/-- START where a check fails: the code, Stopped, the active configuration and nothing else. -/
theorem exec_start_of_error {e : ErrorCode} (h : loadAndCheck (byteAt s headerReader) s.cfg.moduleLen.toNat = .error e) :
    exec .start s = .next { withActive s with error := e, seqState := .stopped } := by
  have hl : loadImage (latchConfig s) = .error e := h
  show execStart s = _
  rw [execStart, if_neg (not_busy_of_quiet hq)]
  simp only [hl]
  rfl

/-- START where every check passes: the fresh song of the latches that were read. -/
theorem exec_start_of_ok {l : Latches} (h : loadAndCheck (byteAt s headerReader) s.cfg.moduleLen.toNat = .ok l) :
    exec .start s = .next (freshSong s l) := by
  have hl : loadImage (latchConfig s) = .ok l := h
  show execStart s = _
  rw [execStart, if_neg (not_busy_of_quiet hq)]
  simp only [hl]
  rfl

end

/-- Settles O9: the image passes every check, and the latches that were read are those of its header. -/
theorem startBeginsSong : Obligations.StartBeginsSong := by
  intro s c hq hlen hsig hlow hhigh hord hdecl
  have hof := readLatches_headerOf _ c _ (signatureChannels_cases _ _ hsig) ((patternCount_le_iff _).2 hord) hdecl
    s.cfg.moduleLen.isLt
  exact ⟨_, hof, exec_start_of_ok hq (loadAndCheck_good hlen hsig hlow hhigh hord hdecl), fun _ _ => rfl⟩

/-- Settles O10: check by check, in the order of R135. -/
theorem startReportsFirstError : Obligations.StartReportsFirstError := by
  intro s hq
  exact ⟨fun hshort => exec_start_of_error hq (loadAndCheck_short hshort),
    fun hlen hsig => exec_start_of_error hq (loadAndCheck_unsigned hlen hsig),
    fun c hlen hsig => ⟨fun hsong => exec_start_of_error hq (loadAndCheck_songLen hlen hsig hsong),
      fun hlow hhigh => ⟨fun hbad => exec_start_of_error hq (loadAndCheck_order hlen hsig hlow hhigh hbad),
        fun hord hdecl => exec_start_of_error hq (loadAndCheck_declared hlen hsig hlow hhigh hord hdecl)⟩⟩⟩

/-! ## The changes of the operating state (40_control.md R131) -/

/-- A song that plays or is paused may go to every operating state. -/
theorem mem_stateMoves_of_inSong {s : State} (h : InSong s) (q : SeqState) : q ∈ stateMoves s.seqState := by
  rcases h with h | h <;> rw [h] <;> cases q <;> decide

/-- Every operating state may stay. -/
theorem mem_stateMoves_self (q : SeqState) : q ∈ stateMoves q := by cases q <;> decide

/-- Every operating state may go to Stopped. -/
theorem stopped_mem_stateMoves (q : SeqState) : SeqState.stopped ∈ stateMoves q := by cases q <;> decide

/-- A song may begin where none plays or is paused. -/
theorem playing_mem_stateMoves {q : SeqState} (h : q = .stopped ∨ q = .finished) : SeqState.playing ∈ stateMoves q := by
  rcases h with rfl | rfl <;> decide

/-- The producer has no step where no song plays or is paused. -/
theorem beginFrame_of_quiet {b : State} (h : ¬InSong b) : beginFrame b = b := by
  rw [beginFrame, if_neg fun he => h (inSong_of_frameEnabled he)]

/-- A host command makes one of the table's moves. -/
theorem CommandStep.stateMoves {b u : State} (h : CommandStep b u) : u.seqState ∈ stateMoves b.seqState := by
  cases h with
  | ignored | pauseFlag => exact mem_stateMoves_self _
  | stopped | loadError => exact stopped_mem_stateMoves _
  | begun _ hq => exact playing_mem_stateMoves hq

/-- The beginning of an agent's step, FRAME and the platform's reset apart, makes one of the table's moves and leaves at most a
START's trigger phase to be run. -/
theorem beginInput_stateMoves {b u : State} {i : Input} (hi : i ≠ .frame) (hr : i ≠ .reset) (hp : b.phase = .idle)
    (h : beginInput b i = .next u) : u.seqState ∈ stateMoves b.seqState ∧ (u.phase = .idle ∨ u.phase = .startCells) := by
  cases i with
  | frame => exact absurd rfl hi
  | reset => exact absurd rfl hr
  | regWrite i v =>
    simp only [beginInput, regWrite] at h
    split at h
    · obtain ⟨w, hw, hc⟩ := exec_commandStep _ b (decodeCtrl_space v)
      cases hw.symm.trans h
      refine ⟨hc.stateMoves, ?_⟩
      cases hc with
      | ignored | pauseFlag | stopped | loadError => exact .inl hp
      | begun => exact .inr rfl
    · cases h
      rw [writeCfg_frame]
      exact ⟨mem_stateMoves_self _, .inl hp⟩
  | regRead | memWrite | memRead => cases h; exact ⟨mem_stateMoves_self _, .inl hp⟩
  | sinkPop => cases h; rw [sinkPop_frame]; exact ⟨mem_stateMoves_self _, .inl hp⟩
  | evPop => cases h; rw [evPop_frame]; exact ⟨mem_stateMoves_self _, .inl hp⟩
  | sinkFail => cases h; exact ⟨stopped_mem_stateMoves _, .inl hp⟩

theorem CellsStep.seqState {ks : List (Fin 8)} {s t : State} (h : CellsStep ks s t) : t.seqState = s.seqState := by rw [h.frame]

/-- The rest of a step that is over or has START's trigger phase to run leaves the operating state. -/
theorem finishStep_seqState {u t : State} (hp : u.phase = .idle ∨ u.phase = .startCells) (h : finishStep u = .next t) :
    t.seqState = u.seqState := by
  rcases hp with hp | hp
  · rw [finishStep_idle u hp] at h
    cases h
    rfl
  · obtain ⟨w, hw, hc⟩ := runCells_spec (u.channelsFrom u.chan.val) u
    rw [finishStep_startCells u hp, runTickCells, hw, thenNext_next] at h
    cases h
    exact hc.seqState

/-- Settles O57: a playing or paused song may go anywhere; elsewhere FRAME has no step, and the move is the beginning's. -/
theorem stateTransitions : Obligations.StateTransitions := by
  intro s t hp hr h
  by_cases hs : InSong s
  · exact mem_stateMoves_of_inSong hs _
  · obtain ⟨rest, hf⟩ | ⟨i, rest, u, hi, hin, hu, ht⟩ := step_cases hp h
    · rw [beginFrame_of_quiet (b := s.moved rest) hs, finishStep_idle (s.moved rest) hp] at hf
      cases hf
      exact mem_stateMoves_self _
    · obtain ⟨hmove, hrest⟩ := beginInput_stateMoves (b := s.moved rest) hi (fun e => hr rest (e ▸ hin)) hp hu
      rw [finishStep_seqState hrest ht]
      exact hmove

end Sys2Proof.Machine
end

section
/-! PROOFS. A whole START step (40_control.md R133, R134, R138): the events that a trigger phase queues, and the first tick. -/

namespace Sys2Proof.Machine

/-! ## The events of a trigger phase (42_sequencer.md R184, 45_events.md R311) -/

/-- The event of a cell carries the tick count. -/
theorem emitIfNote_events (s : State) (k : Fin 8) (c : Cell) :
    ∀ e ∈ (emitIfNote s k c).evq, e ∈ s.evq ∨ e.tickIndex = s.cnt.tickCount := by
  intro e he
  unfold emitIfNote emit evPush at he
  split at he
  · split at he
    · rcases List.mem_append.1 he with he | he
      · exact .inl he
      · rw [List.mem_singleton.1 he]
        exact .inr rfl
    · exact .inl he
  · exact .inl he

theorem setSpeedTempo_events (xx : BitVec 8) (s : State) :
    (setSpeedTempo xx s).evq = s.evq ∧ (setSpeedTempo xx s).cnt = s.cnt := by
  unfold setSpeedTempo
  split_ifs <;> exact ⟨rfl, rfl⟩

theorem patternLoop_events (y : BitVec 4) (s : State) (k : Fin 8) :
    (patternLoop y s k).evq = s.evq ∧ (patternLoop y s k).cnt = s.cnt := by
  unfold patternLoop
  dsimp only
  split_ifs <;> exact ⟨rfl, rfl⟩

/-- Every cell instruction runs a cell whose trigger effect queues no event and counts nothing (43_effects.md R220 to R251). -/
theorem exec_runCell (i : Instr) (h : i.space = .cell) : ∃ (c : Cell) (t0 : TriggerEffect) (tn : TickEffect),
    (∀ s, exec i s = runCell c t0 tn s) ∧ ∀ u k, (t0 u k).evq = u.evq ∧ (t0 u k).cnt = u.cnt := by
  cases i
  case pan =>
    refine ⟨_, _, _, fun s => exec_pan s _ _ _, fun u _ => ?_⟩
    split <;> exact ⟨rfl, rfl⟩
  case ecut =>
    refine ⟨_, _, _, fun s => exec_ecut s _ _ _, fun u _ => ?_⟩
    split <;> exact ⟨rfl, rfl⟩
  case epdly =>
    refine ⟨_, _, _, fun s => exec_epdly s _ _ _, fun u _ => ?_⟩
    split <;> exact ⟨rfl, rfl⟩
  case spd => exact ⟨_, _, _, fun s => exec_spd s _ _ _, fun u _ => setSpeedTempo_events _ u⟩
  case eloop => exact ⟨_, _, _, fun s => exec_eloop s _ _ _, patternLoop_events _⟩
  case noEffect => exact ⟨_, _, _, fun s => exec_noEffect s _ _, fun _ _ => ⟨rfl, rfl⟩⟩
  case arp => exact ⟨_, _, _, fun s => exec_arp s _ _ _ _, fun _ _ => ⟨rfl, rfl⟩⟩
  case pup => exact ⟨_, _, _, fun s => exec_pup s _ _ _, fun _ _ => ⟨rfl, rfl⟩⟩
  case pdn => exact ⟨_, _, _, fun s => exec_pdn s _ _ _, fun _ _ => ⟨rfl, rfl⟩⟩
  case tporta => exact ⟨_, _, _, fun s => exec_tporta s _ _ _, fun _ _ => ⟨rfl, rfl⟩⟩
  case vib => exact ⟨_, _, _, fun s => exec_vib s _ _ _ _, fun _ _ => ⟨rfl, rfl⟩⟩
  case tpvs => exact ⟨_, _, _, fun s => exec_tpvs s _ _ _ _, fun _ _ => ⟨rfl, rfl⟩⟩
  case vibvs => exact ⟨_, _, _, fun s => exec_vibvs s _ _ _ _, fun _ _ => ⟨rfl, rfl⟩⟩
  case trem => exact ⟨_, _, _, fun s => exec_trem s _ _ _ _, fun _ _ => ⟨rfl, rfl⟩⟩
  case offs => exact ⟨_, _, _, fun s => exec_offs s _ _ _, fun _ _ => ⟨rfl, rfl⟩⟩
  case vsld => exact ⟨_, _, _, fun s => exec_vsld s _ _ _ _, fun _ _ => ⟨rfl, rfl⟩⟩
  case jump => exact ⟨_, _, _, fun s => exec_jump s _ _ _, fun _ _ => ⟨rfl, rfl⟩⟩
  case vol => exact ⟨_, _, _, fun s => exec_vol s _ _ _, fun _ _ => ⟨rfl, rfl⟩⟩
  case brk => exact ⟨_, _, _, fun s => exec_brk s _ _ _ _, fun _ _ => ⟨rfl, rfl⟩⟩
  case efilt => exact ⟨_, _, _, fun s => exec_efilt s _ _ _, fun _ _ => ⟨rfl, rfl⟩⟩
  case efpu => exact ⟨_, _, _, fun s => exec_efpu s _ _ _, fun _ _ => ⟨rfl, rfl⟩⟩
  case efpd => exact ⟨_, _, _, fun s => exec_efpd s _ _ _, fun _ _ => ⟨rfl, rfl⟩⟩
  case eglis => exact ⟨_, _, _, fun s => exec_eglis s _ _ _, fun _ _ => ⟨rfl, rfl⟩⟩
  case evwav => exact ⟨_, _, _, fun s => exec_evwav s _ _ _, fun _ _ => ⟨rfl, rfl⟩⟩
  case eftun => exact ⟨_, _, _, fun s => exec_eftun s _ _ _, fun _ _ => ⟨rfl, rfl⟩⟩
  case etwav => exact ⟨_, _, _, fun s => exec_etwav s _ _ _, fun _ _ => ⟨rfl, rfl⟩⟩
  case eun8 => exact ⟨_, _, _, fun s => exec_eun8 s _ _ _, fun _ _ => ⟨rfl, rfl⟩⟩
  case ertrg => exact ⟨_, _, _, fun s => exec_ertrg s _ _ _, fun _ _ => ⟨rfl, rfl⟩⟩
  case efvu => exact ⟨_, _, _, fun s => exec_efvu s _ _ _, fun _ _ => ⟨rfl, rfl⟩⟩
  case efvd => exact ⟨_, _, _, fun s => exec_efvd s _ _ _, fun _ _ => ⟨rfl, rfl⟩⟩
  case edly => exact ⟨_, _, _, fun s => exec_edly s _ _ _, fun _ _ => ⟨rfl, rfl⟩⟩
  case einv => exact ⟨_, _, _, fun s => exec_einv s _ _ _, fun _ _ => ⟨rfl, rfl⟩⟩
  case nop | start | pause | resume | stop | rsvd5 | rsvd6 | rsvd7 => exact absurd h (by simp [Instr.space])

/-- A cell's trigger phase queues at most events of the current tick. -/
theorem exec_trigger_events {i : Instr} {s t : State} (hi : i.space = .cell) (htick : s.seq.tick = 0#5)
    (h : exec i s = .next t) : ∀ e ∈ t.evq, e ∈ s.evq ∨ e.tickIndex = s.cnt.tickCount := by
  obtain ⟨c, t0, tn, hrun, hquiet⟩ := exec_runCell i hi
  rw [hrun, runCell, if_pos htick, triggerCell, triggerNote_eq] at h
  obtain ⟨hevq, hcnt⟩ := hquiet (s.setCh s.chan (noteResult s c)) s.chan
  cases h
  split
  · intro e he
    rw [hevq] at he
    exact .inl he
  · have hemit := emitIfNote_events (t0 (s.setCh s.chan (noteResult s c)) s.chan) s.chan c
    rwa [hevq, hcnt] at hemit

/-- A trigger phase of the tick `n` in which every queued event is of that tick. -/
structure TriggersTick (n : BitVec 32) (s : State) : Prop where
  /-- 42_sequencer.md R182. -/
  tick : s.seq.tick = 0#5
  /-- The tick's number (45_events.md R310). -/
  count : s.cnt.tickCount = n
  /-- 45_events.md R310, R311. -/
  events : ∀ e ∈ s.evq, e.tickIndex = n

/-- The cells of a trigger phase queue events of its tick alone. -/
theorem runCells_triggersTick {n : BitVec 32} {s t : State} {ks : List (Fin 8)} (hs : TriggersTick n s)
    (h : runCells ks s = .next t) : TriggersTick n t := by
  obtain ⟨u, hu, hk⟩ := runCells_keeps (P := TriggersTick n) ks (fun _ _ _ h => ⟨h.tick, h.count, h.events⟩)
    (fun i b hi _ hb => by
      obtain ⟨u, hu, hc⟩ := exec_cellStep i b hi
      obtain ⟨-, -, htick, -⟩ := hc.pos
      refine ⟨u, hu, hc.chan, htick.trans hb.tick, hc.tickCount.trans hb.count, fun e he => ?_⟩
      rcases exec_trigger_events hi hb.tick hu e he with hold | hnew
      · exact hb.events e hold
      · exact hnew.trans hb.count) s hs
  cases hu.symm.trans h
  exact hk

/-! ## The first tick -/

theorem CellsStep.pauseReq {ks : List (Fin 8)} {s t : State} (h : CellsStep ks s t) : t.pauseReq = s.pauseReq := by rw [h.frame]

theorem CellsStep.error {ks : List (Fin 8)} {s t : State} (h : CellsStep ks s t) : t.error = s.error := by rw [h.frame]

theorem CellsStep.ring {ks : List (Fin 8)} {s t : State} (h : CellsStep ks s t) : t.ring = s.ring := by rw [h.frame]

theorem CellsStep.dutyBroken {ks : List (Fin 8)} {s t : State} (h : CellsStep ks s t) : t.dutyBroken = s.dutyBroken := by rw [h.frame]

theorem CellsStep.frameCount {ks : List (Fin 8)} {s t : State} (h : CellsStep ks s t) : t.cnt.frameCount = s.cnt.frameCount := by
  rw [h.frame]

/-- A fresh song's trigger phase completes, with the song at its first tick (40_control.md R133, R134, R138). -/
theorem finishStep_freshSong (s : State) (l : Latches) : ∃ w, finishStep (freshSong s l) = .next { w with phase := .idle }
    ∧ CellsStep ((freshSong s l).channelsFrom 0) (freshSong s l) w ∧ TriggersTick 0#32 w := by
  obtain ⟨w, hw, hc⟩ := runCells_spec ((freshSong s l).channelsFrom 0) (freshSong s l)
  have hfresh : TriggersTick 0#32 (freshSong s l) := ⟨rfl, rfl, fun _ he => absurd he List.not_mem_nil⟩
  have hrun : runTickCells (freshSong s l) = .next w := hw
  refine ⟨w, ?_, hc, runCells_triggersTick hfresh hw⟩
  rw [finishStep_startCells _ rfl, hrun, thenNext_next]

/-- The length of the first tick, which fits its register (41_clock.md R161). -/
theorem freshSong_fptLatched (s : State) (l : Latches) :
    (freshSong s l).clk.fptLatched.toNat = (5 * s.cfg.rate.toNat + 125) / 250 := by
  have hrate := s.cfg.rate.isLt
  show (BitVec.ofNat 16 _).toNat = _
  rw [BitVec.toNat_ofNat]
  omega

/-- Settles O11: the command begins the fresh song, and the rest of the step is its trigger phase. -/
theorem startStepPlaysFirstTick : Obligations.StartStepPlaysFirstTick := by
  intro s v rest c hp hi hv hq hduty hlen hsig hlow hhigh hord hdecl
  have hbytes : byteAt (s.moved rest) headerReader = byteAt s headerReader := funext (byteAt_moved hduty rest headerReader)
  obtain ⟨l, hof, hstart, -⟩ := startBeginsSong (s.moved rest) c hq hlen (by rw [hbytes]; exact hsig)
    (by rw [hbytes]; exact hlow) (by rw [hbytes]; exact hhigh) (by rw [hbytes]; exact hord) (by rw [hbytes]; exact hdecl)
  rw [hbytes] at hof
  have hcmd : decode .ctrl (wordBytes v) = .ok (.start, []) := by
    rw [decode_ctrl_wordBytes, decodeCtrl_of_op (i := .start) rfl hv]
  obtain ⟨w, hw, hc, htrig⟩ := finishStep_freshSong (s.moved rest) l
  obtain ⟨horder, hrow, htick, hspeed⟩ := hc.pos
  have hfpt := freshSong_fptLatched (s.moved rest) l
  have hlatch : w.latch = l := hc.latch
  have hstep : step s = .next { w with phase := .idle } := by
    rw [ctrlStepRunsCommand s v rest .start hp hi hcmd]
    exact (congrArg (thenNext · finishStep) hstart).trans hw
  exact ⟨{ w with phase := .idle }, hstep, hc.seqState, rfl, horder, hrow, htick, hspeed, hc.frameCount, htrig.count,
    (congrArg (·.fptLatched.toNat) hc.clk).trans hfpt, congrArg (·.frameInTick) hc.clk, hc.pauseReq, hc.error, hc.ring,
    htrig.events, hlatch ▸ hof, fun a => congrArg (·.get a) hc.mem, hc.dutyBroken⟩

end Sys2Proof.Machine
end

section
/-! PROOFS. Progress (42_sequencer.md R201): every part of an agent's step completes, and a frame does where the song is loaded. -/

namespace Sys2Proof.Machine

/-- The frame of a loaded song completes: every sounding channel has its value (20_memory.md R68). -/
theorem SongLoaded.produceFrame_completes {s : State} (hs : SongLoaded s) : ∃ t, produceFrame s = .next t :=
  produceFrame_ok s fun _ _ _ hk => ⟨_, hs.sampleValue_eq hk⟩

/-- The cells of a tick, then the frame, complete in a loaded song. -/
theorem cellsFrame_completes {w : State} (ks : List (Fin 8)) (hr : RangesFit w) (hs : SongLoaded w) :
    ∃ t, thenNext (runCells ks w) produceFrame = .next t := by
  obtain ⟨u, hu, hc⟩ := runCells_spec ks w
  rw [hu, thenNext_next]
  exact (hc.keeps hr hs).2.produceFrame_completes

/-- A FRAME step completes in every state of the invariant. -/
theorem frameStep_completes {b : State} (h : SongInv b) : ∃ t, finishStep (beginFrame b) = .next t := by
  obtain ⟨hp, hr, hsong⟩ := (songInv_iff b).1 h
  rcases frame_cases b hp with ⟨-, e⟩ | ⟨he, -, e⟩ | ⟨he, -, -, e⟩ | ⟨he, -, -, d, hd, hcases⟩
  · exact ⟨b, e⟩
  · have hs := hsong (inSong_of_frameEnabled he)
    rw [e]
    exact (hs.congr rfl rfl rfl rfl rfl : SongLoaded { b with phase := .frameMix }).produceFrame_completes
  · obtain ⟨-, hs, -⟩ := crossBoundary_keeps hr (hsong (inSong_of_frameEnabled he)) .frameMix .paused
    rw [e]
    exact hs.produceFrame_completes
  · obtain ⟨hrd, hsd, -⟩ := crossBoundary_keeps hr (hsong (inSong_of_frameEnabled he)) .frameMix .playing
    rw [← hd] at hrd hsd
    have hseq : d.seq = b.seq := by rw [hd]; rfl
    obtain ⟨hra, hsa⟩ := rowAdvance_keeps hrd hsd
    rcases hcases with ⟨-, -, e⟩ | ⟨-, -, e⟩ | ⟨hne, e⟩ <;> rw [e]
    · exact ⟨_, rfl⟩
    · exact cellsFrame_completes _ (hra.congr rfl rfl rfl) (hsa.congr rfl rfl rfl rfl rfl)
    · exact cellsFrame_completes _ ((nextTick_rangesFit hrd hseq hne).congr rfl rfl rfl)
        (hsd.congr rfl rfl (by rw [hseq]) rfl rfl)

/-- The beginning of every agent's step completes. -/
theorem beginInput_completes (b : State) (i : Input) : ∃ u, beginInput b i = .next u := by
  cases i with
  | regWrite i v =>
    simp only [beginInput, regWrite]
    split
    · obtain ⟨u, hu, -⟩ := exec_commandStep _ b (decodeCtrl_space v)
      exact ⟨u, hu⟩
    · exact ⟨_, rfl⟩
  | frame | regRead | memWrite | memRead | sinkPop | sinkFail | evPop | reset => exact ⟨_, rfl⟩

/-- The rest of a step that is over or has START's trigger phase to run completes. -/
theorem finishStep_completes {u : State} (hp : RestIsCells u) : ∃ t, finishStep u = .next t := by
  rcases hp with hp | ⟨hp, -⟩
  · exact ⟨u, finishStep_idle u hp⟩
  · obtain ⟨w, hw, -⟩ := runCells_spec (u.channelsFrom u.chan.val) u
    rw [finishStep_startCells u hp, runTickCells, hw, thenNext_next]
    exact ⟨_, rfl⟩

/-- Settles O55: by the agent whose step it is, the producer's with the invariant of the state in which its step begins. -/
theorem neverStops : Obligations.NeverStops := by
  intro s hs
  obtain ⟨hp, hfits⟩ := (songInv_iff s).1 hs
  have hm : ∀ rest, SongFits (s.moved rest) := fun rest => hfits.congr rfl rfl rfl fun hq => ⟨hq, rfl, rfl, rfl⟩
  have hframe : ∀ rest, ∃ t, finishStep (beginFrame (s.moved rest)) = .next t := fun rest =>
    frameStep_completes ((songInv_iff (s.moved rest)).2 ⟨hp, hm rest⟩)
  cases hi : s.inputs with
  | nil => rw [step_of_empty hp hi]; exact hframe []
  | cons i rest =>
    rw [step_of_input hp hi]
    by_cases hf : i = .frame
    · subst hf
      exact hframe rest
    · obtain ⟨u, hu⟩ := beginInput_completes (s.moved rest) i
      rw [hu, thenNext_next]
      exact finishStep_completes (beginInput_songFits (b := s.moved rest) hf hp (hm rest) hu).2

end Sys2Proof.Machine
end

section
/-! PROOFS. The clock (41_clock.md): the FRAME step case by case, what it counts and pushes, and the lengths of a tick and of a
cursor's step. -/

namespace Sys2Proof.Machine

/-! ## The beginning of a FRAME step (41_clock.md R160) -/

theorem frameEnabled_iff (b : State) : frameEnabled b = true ↔ InSong b ∧ b.ring.length < ringDepth := by
  simp [frameEnabled, InSong]

theorem atTickBoundary_iff (b : State) : atTickBoundary b = true ↔ b.clk.fptLatched.toNat ≤ b.clk.frameInTick.toNat := by
  simp [atTickBoundary]

theorem atTickBoundary_eq_false_iff (b : State) : atTickBoundary b = false ↔ b.clk.frameInTick.toNat < b.clk.fptLatched.toNat := by
  simp [atTickBoundary]

/-- Outside a song, and while the ring is full, FRAME is not enabled. -/
theorem frameEnabled_eq_false {b : State} (h : b.seqState = .stopped ∨ b.seqState = .finished ∨ ringDepth ≤ b.ring.length) :
    frameEnabled b = false := by
  rcases h with h | h | h <;> simp [frameEnabled, h]

/-- A FRAME step begins in the moved state and is the producer's step from there. -/
theorem FrameBegins.step_eq {s b : State} (h : FrameBegins s b) :
    b.phase = .idle ∧ (∃ rest, b = s.moved rest) ∧ step s = finishStep (beginFrame b) := by
  obtain ⟨hp, ⟨rest, hi, rfl⟩ | ⟨hi, rfl⟩⟩ := h
  · exact ⟨hp, ⟨rest, rfl⟩, by rw [step_of_input hp hi]; rfl⟩
  · have hm : { s with draws := s.draws + 1 } = s.moved [] := by rw [State.moved, ← hi]
    exact ⟨hp, ⟨[], hm⟩, by rw [step_of_empty hp hi, hm]⟩

section
variable {b : State} (hp : b.phase = .idle)
include hp

theorem frameStep_notEnabled (he : frameEnabled b = false) : finishStep (beginFrame b) = .next b := by
  simpa [he] using frame_cases b hp

theorem frameStep_between (he : frameEnabled b = true) (ha : atTickBoundary b = false) :
    finishStep (beginFrame b) = produceFrame { b with phase := .frameMix } := by
  simpa [he, ha] using frame_cases b hp

theorem frameStep_pauses (he : frameEnabled b = true) (ha : atTickBoundary b = true) (hq : b.pauseReq = true) :
    finishStep (beginFrame b) = produceFrame { crossBoundary b with phase := .frameMix, seqState := .paused } := by
  simpa [he, ha, hq] using frame_cases b hp

/-- At a boundary with no pause request the song plays on, in the state `d`: it finishes, or the cells of the next row or of the
row's next tick are run, and then the frame is produced (42_sequencer.md R180). -/
theorem frameStep_sequences {d : State} (hd : d = { crossBoundary b with phase := .frameMix, seqState := .playing })
    (he : frameEnabled b = true) (ha : atTickBoundary b = true) (hq : b.pauseReq = false) :
    (b.seq.tick.toNat + 1 = b.seq.speed.toNat ∧ (rowAdvance d).seqState = .finished
      ∧ finishStep (beginFrame b) = .next { rowAdvance d with phase := .idle })
    ∨ (b.seq.tick.toNat + 1 = b.seq.speed.toNat ∧ (rowAdvance d).seqState ≠ .finished
      ∧ finishStep (beginFrame b)
        = thenNext (runCells (b.channelsFrom 0) { rowAdvance d with phase := .frameCells, chan := 0 }) produceFrame)
    ∨ (b.seq.tick.toNat + 1 ≠ b.seq.speed.toNat
      ∧ finishStep (beginFrame b) = thenNext (runCells (b.channelsFrom 0)
        { d with seq := { b.seq with tick := b.seq.tick + 1 }, phase := .frameCells, chan := 0 }) produceFrame) := by
  rcases frame_cases b hp with ⟨hn, -⟩ | ⟨-, hn, -⟩ | ⟨-, -, hn, -⟩ | ⟨-, -, -, d', hd', h⟩
  · simp [he] at hn
  · simp [ha] at hn
  · simp [hq] at hn
  · rw [hd, ← hd']
    exact h

end

/-! ## The frame of a FRAME step (41_clock.md R160, R164; 44_mixer.md R280) -/

theorem produceFrame_of_paused {x : State} (h : x.seqState = .paused) :
    produceFrame x = .next { x with
      ring := x.ring ++ [{ left := 0, right := 0 }], clk := { x.clk with frameInTick := x.clk.frameInTick + 1 }
      cnt := { x.cnt with frameCount := x.cnt.frameCount + 1 }, phase := .idle } := by
  rw [produceFrame, if_pos h]
  rfl

theorem produceFrame_of_error {x : State} {e : Fault} (h : x.seqState ≠ .paused) (hm : mix x = .error e) :
    produceFrame x = .fault e := by rw [produceFrame, if_neg h, hm]

/-- The mix leaves the ring, the clock and the counters to the frame's end, which so reads them before the mix. -/
theorem produceFrame_of_mix {x u : State} {f : Frame} (h : x.seqState ≠ .paused) (hm : mix x = .ok (u, f)) :
    produceFrame x = .next { u with
      ring := x.ring ++ [f], clk := { x.clk with frameInTick := x.clk.frameInTick + 1 }
      cnt := { x.cnt with frameCount := x.cnt.frameCount + 1 }, phase := .idle } := by
  rw [produceFrame, if_neg h, hm, mix_frame hm]
  rfl

/-- A mix that completes does so with whatever is left of the step. -/
theorem mix_phase_ok {x u : State} {f : Frame} (p : Phase) (h : mix x = .ok (u, f)) :
    mix { x with phase := p } = .ok ({ u with phase := p }, f) := by
  rw [mix_phase, h]
  rfl

/-- Settles O41: the frame by its three cases, then the FRAME step by the case of `frame_cases` that its premises select. -/
theorem frameStepOrder : Obligations.FrameStepOrder := by
  refine ⟨fun x => ⟨produceFrame_of_paused, fun h => ⟨fun _ _ => produceFrame_of_mix h, fun _ => produceFrame_of_error h⟩⟩,
    fun s b hbegins => ?_⟩
  obtain ⟨hp, ⟨rest, rfl⟩, hstep⟩ := hbegins.step_eq
  rw [hstep]
  refine ⟨fun hquiet => frameStep_notEnabled hp (frameEnabled_eq_false hquiet), fun hsong hroom => ?_⟩
  have he : frameEnabled (s.moved rest) = true := (frameEnabled_iff _).2 ⟨hsong, hroom⟩
  refine ⟨fun hlt => frameStep_between hp he ((atTickBoundary_eq_false_iff _).2 hlt), fun hle hq => ?_⟩
  rcases frameStep_sequences hp rfl he ((atTickBoundary_iff _).2 hle) hq with ⟨ht, hf, e⟩ | ⟨ht, hf, e⟩ | ⟨ht, e⟩
  · exact ⟨fun _ => ⟨fun _ => e, fun hn => absurd hf hn⟩, fun hn => absurd ht hn⟩
  · exact ⟨fun _ => ⟨fun hn => absurd hn hf, fun _ => e⟩, fun hn => absurd ht hn⟩
  · exact ⟨fun hn => absurd hn ht, fun _ => e⟩

/-- Settles O42: in Paused the frame is silence, whether the boundary has just paused the song or none is reached. -/
theorem pausedFrames : Obligations.PausedFrames := by
  intro s b hbegins hroom
  obtain ⟨hp, ⟨rest, rfl⟩, hstep⟩ := hbegins.step_eq
  rw [hstep]
  refine ⟨fun hle hq hsong => ?_, fun hlt hpaused => ?_⟩
  · rw [frameStep_pauses hp ((frameEnabled_iff _).2 ⟨hsong, hroom⟩) ((atTickBoundary_iff _).2 hle) hq,
      produceFrame_of_paused rfl, ← hp]
    rfl
  · have ha : atTickBoundary (s.moved rest) = false := (atTickBoundary_eq_false_iff _).2 hlt
    rw [frameStep_between hp ((frameEnabled_iff _).2 ⟨.inr hpaused, hroom⟩) ha,
      produceFrame_of_paused (x := { s.moved rest with phase := .frameMix }) hpaused, ← hp]
    rfl

/-! ## The lengths of a tick and of a cursor's step (41_clock.md R161, 44_mixer.md R281) -/

theorem framesPerTick_range {bpm rate : Nat} (hlo : 32 ≤ bpm) (hhi : bpm ≤ 255) (hrlo : 8000 ≤ rate) (hrhi : rate ≤ 192000) :
    78 ≤ framesPerTick bpm rate ∧ framesPerTick bpm rate ≤ 15000 :=
  ⟨(Nat.le_div_iff_mul_le (by omega)).2 (by omega), Nat.lt_succ_iff.1 ((Nat.div_lt_iff_lt_mul (by omega)).2 (by omega))⟩

/-- The frames of a legal tick fit the 16 bits that a boundary latches. -/
theorem latchedFpt_toNat {tempo : BitVec 8} {rate : BitVec 18} (ht : 32 ≤ tempo.toNat) (hrlo : 8000 ≤ rate.toNat)
    (hrhi : rate.toNat ≤ 192000) : (latchedFpt tempo rate).toNat = framesPerTick tempo.toNat rate.toNat := by
  have hfit := (framesPerTick_range ht (Nat.lt_succ_iff.1 tempo.isLt) hrlo hrhi).2
  rw [latchedFpt, BitVec.toNat_ofNat, Nat.mod_eq_of_lt (by omega)]

/-- The step falls as `p * rate` grows, so its range is that between the two extreme products. -/
theorem cursorStep_range {p rate : Nat} (hlo : 1 ≤ p) (hhi : p ≤ 4095) (hrlo : 8000 ≤ rate) (hrhi : rate ≤ 192000) :
    295 ≤ cursorStep p rate ∧ cursorStep p rate ≤ 29056163 := by
  have hmin : 1 * 8000 ≤ p * rate := Nat.mul_le_mul hlo hrlo
  have hmax : p * rate ≤ 4095 * 192000 := Nat.mul_le_mul hhi hrhi
  constructor
  · calc 295 ≤ clockConstant * 65536 / (4095 * 192000) := by decide
      _ ≤ cursorStep p rate := Nat.div_le_div_left hmax (by omega)
  · calc cursorStep p rate ≤ clockConstant * 65536 / (1 * 8000) := Nat.div_le_div_left hmin (by decide)
      _ ≤ 29056163 := by decide

/-- Settles O44: the formulas are the definitions; the ranges are `framesPerTick_range` and `cursorStep_range`, and the
examples are computed. -/
theorem tickAndStepRanges : Obligations.TickAndStepRanges :=
  ⟨fun _ _ hlo hhi hrlo hrhi => ⟨rfl, framesPerTick_range hlo hhi hrlo hrhi⟩, fun _ _ => latchedFpt_toNat, by decide,
    fun _ _ hlo hhi hrlo hrhi => ⟨rfl, cursorStep_range hlo hhi hrlo hrhi⟩,
    by decide, by decide, by decide, by decide, by decide, by decide⟩

/-! ## What a FRAME step counts (41_clock.md R160, R161) -/

/-- The state after the clock's part of a FRAME step. -/
def clocked (b : State) : State := if atTickBoundary b then crossBoundary b else b

theorem clocked_of_boundary {b : State} (h : atTickBoundary b = true) : clocked b = crossBoundary b := if_pos h

theorem clocked_of_between {b : State} (h : atTickBoundary b = false) : clocked b = b := if_neg (Bool.eq_false_iff.1 h)

/-- The clock, the two clock counters and the ring are as they were. -/
structure ClockKept (s t : State) : Prop where
  clk : t.clk = s.clk
  tickCount : t.cnt.tickCount = s.cnt.tickCount
  frameCount : t.cnt.frameCount = s.cnt.frameCount
  ring : t.ring = s.ring

theorem ClockKept.trans {s t u : State} (h : ClockKept s t) (g : ClockKept t u) : ClockKept s u :=
  ⟨g.clk.trans h.clk, g.tickCount.trans h.tickCount, g.frameCount.trans h.frameCount, g.ring.trans h.ring⟩

/-- A change of the sequencer registers and of what is left of the step keeps the clock. -/
theorem ClockKept.control {s t : State} (h : ClockKept s t) (q : SeqRegs) (p : Phase) (k : Fin 8) :
    ClockKept s { t with seq := q, phase := p, chan := k } :=
  ⟨h.clk, h.tickCount, h.frameCount, h.ring⟩

theorem rowAdvance_clockKept (s : State) : ClockKept s (rowAdvance s) := by
  rw [(rowAdvance_spec s).1]
  exact ⟨rfl, rfl, rfl, rfl⟩

theorem CellsStep.clockKept {ks : List (Fin 8)} {s t : State} (h : CellsStep ks s t) : ClockKept s t :=
  ⟨h.clk, by rw [h.frame], h.frameCount, h.ring⟩

/-- The cells of a tick, then the frame: the cells leave the clock and the operating state to the frame. -/
theorem cellsFrame_clockKept {ks : List (Fin 8)} {s w t : State} (hk : ClockKept s w)
    (h : thenNext (runCells ks w) produceFrame = .next t) :
    ∃ u, ClockKept s u ∧ u.seqState = w.seqState ∧ produceFrame u = .next t := by
  obtain ⟨u, hu, hc⟩ := runCells_spec ks w
  rw [hu, thenNext_next] at h
  exact ⟨u, hk.trans hc.clockKept, hc.seqState, h⟩

/-- An enabled FRAME step after its clock's part: the Sequencer leaves the clock, and then the song is finished and the step
over, or it is not and a frame is produced. -/
theorem frameStep_clockKept {b t : State} (hp : b.phase = .idle) (he : frameEnabled b = true)
    (h : finishStep (beginFrame b) = .next t) :
    ∃ u, ClockKept (clocked b) u
      ∧ (u.seqState = .finished ∧ t = { u with phase := .idle } ∨ u.seqState ≠ .finished ∧ produceFrame u = .next t) := by
  have hcross : ∀ p, atTickBoundary b = true →
      ClockKept (clocked b) { crossBoundary b with phase := .frameMix, seqState := p } := fun p ha => by
    rw [clocked_of_boundary ha]
    exact ⟨rfl, rfl, rfl, rfl⟩
  rcases frame_cases b hp with ⟨hn, -⟩ | ⟨-, ha, e⟩ | ⟨-, ha, -, e⟩ | ⟨-, ha, -, d, hd, hcases⟩
  · simp [he] at hn
  · have hns : b.seqState ≠ .finished := by
      rcases inSong_of_frameEnabled he with hs | hs <;> simp [hs]
    refine ⟨{ b with phase := .frameMix }, ?_, .inr ⟨hns, e ▸ h⟩⟩
    rw [clocked_of_between ha]
    exact ⟨rfl, rfl, rfl, rfl⟩
  · exact ⟨_, hcross .paused ha, .inr ⟨nofun, e ▸ h⟩⟩
  · have hkd : ClockKept (clocked b) d := hd ▸ hcross .playing ha
    have hkr : ClockKept (clocked b) (rowAdvance d) := hkd.trans (rowAdvance_clockKept d)
    rcases hcases with ⟨-, hf, e⟩ | ⟨-, hf, e⟩ | ⟨-, e⟩ <;> rw [e] at h
    · cases h
      exact ⟨_, hkr, .inl ⟨hf, rfl⟩⟩
    · obtain ⟨u, hk, hq, hu⟩ := cellsFrame_clockKept (hkr.control _ _ _) h
      exact ⟨u, hk, .inr ⟨hq ▸ hf, hu⟩⟩
    · obtain ⟨u, hk, hq, hu⟩ := cellsFrame_clockKept (hkd.control _ _ _) h
      refine ⟨u, hk, .inr ⟨?_, hu⟩⟩
      rw [hq, hd]
      nofun

/-- What an enabled FRAME step leaves in the clock, the counters and the ring: the frame is counted and pushed after the clock's
part, or the song is finished there. -/
theorem frameStep_counts {b t : State} (hp : b.phase = .idle) (he : frameEnabled b = true)
    (h : finishStep (beginFrame b) = .next t) :
    t.cnt.tickCount = (clocked b).cnt.tickCount ∧ t.clk.fptLatched = (clocked b).clk.fptLatched
    ∧ ((t.seqState = .finished ∧ t.ring = b.ring ∧ t.cnt.frameCount = b.cnt.frameCount)
      ∨ (t.seqState ≠ .finished ∧ (∃ f : Frame, t.ring = b.ring ++ [f]) ∧ t.cnt.frameCount = b.cnt.frameCount + 1
        ∧ t.clk.frameInTick = (clocked b).clk.frameInTick + 1)) := by
  obtain ⟨u, ⟨hclk, htick, hframe, hring⟩, hcases⟩ := frameStep_clockKept hp he h
  have hb : (clocked b).cnt.frameCount = b.cnt.frameCount ∧ (clocked b).ring = b.ring := by
    unfold clocked
    split <;> exact ⟨rfl, rfl⟩
  rw [hb.1] at hframe
  rw [hb.2] at hring
  rcases hcases with ⟨hf, rfl⟩ | ⟨hf, hu⟩
  · exact ⟨htick, congrArg (·.fptLatched) hclk, .inl ⟨hf, hring, hframe⟩⟩
  · obtain ⟨f, ht, -⟩ := produceFrame_spec u t hu
    rw [← hclk, ← htick, ← hframe, ← hring, ht]
    exact ⟨rfl, rfl, .inr ⟨hf, ⟨f, rfl⟩, rfl, rfl⟩⟩

/-- Settles O43: a frame between boundaries is the mix whatever is left of the step; the counts are those of `frameStep_counts`. -/
theorem frameStepCounts : Obligations.FrameStepCounts := by
  refine ⟨fun s b u f hbegins hplay hroom hlt hmix => ?_, fun s b t hbegins hsong hroom ht => ?_⟩
  · obtain ⟨hp, ⟨rest, rfl⟩, hstep⟩ := hbegins.step_eq
    have ha : atTickBoundary (s.moved rest) = false := (atTickBoundary_eq_false_iff _).2 hlt
    have hq : s.seqState ≠ .paused := by simp [hplay]
    have hup : u.phase = .idle := by
      rw [mix_frame hmix]
      exact hp
    rw [hstep, frameStep_between hp ((frameEnabled_iff _).2 ⟨.inl hplay, hroom⟩) ha,
      produceFrame_of_mix (x := { s.moved rest with phase := .frameMix }) hq (mix_phase_ok .frameMix hmix), ← hup]
    rfl
  · obtain ⟨hp, ⟨rest, rfl⟩, hstep⟩ := hbegins.step_eq
    rw [hstep] at ht
    obtain ⟨htick, hfpt, hframe⟩ := frameStep_counts hp ((frameEnabled_iff _).2 ⟨hsong, hroom⟩) ht
    by_cases hle : s.clk.fptLatched.toNat ≤ s.clk.frameInTick.toNat
    · rw [clocked_of_boundary ((atTickBoundary_iff (s.moved rest)).2 hle)] at htick hfpt hframe
      rw [if_pos hle, if_pos hle]
      refine ⟨⟨htick, hfpt, fun h32 hrlo hrhi => ?_⟩, hframe⟩
      rw [hfpt]
      exact latchedFpt_toNat h32 hrlo hrhi
    · rw [clocked_of_between ((atTickBoundary_eq_false_iff (s.moved rest)).2 (Nat.not_le.1 hle))] at htick hfpt hframe
      rw [if_neg hle, if_neg hle]
      exact ⟨⟨htick, hfpt⟩, hframe⟩

end Sys2Proof.Machine
end

section
/-! PROOFS. The Sequencer's cells and rows (42_sequencer.md): the trigger phase of every cell as its note part and what its effect
may then change, the cells that name no playable sample and those that bind one, and the row advance. -/

namespace Sys2Proof.Machine

/-! ## The flags of a note part (42_sequencer.md R184, R187, R188) -/

theorem hasNotePart_iff (c : Cell) : hasNotePart c = true ↔ c.period ≠ 0#12 ∨ c.smp ≠ 0#8 := by simp [hasNotePart]

/-- A no-op note: the sample number is past 31, or names a sample of length 0 (42_sequencer.md R188). -/
theorem noopNote_iff (s : State) (c : Cell) :
    noopNote s c = true ↔ 31 < c.smp.toNat ∨ 1 ≤ c.smp.toNat ∧ (s.hdr c.smp.toNat).len = 0#17 := by
  have hsmp : c.smp ≠ 0#8 ↔ 1 ≤ c.smp.toNat := by
    rw [ne_eq, BitVec.toNat_inj.symm, BitVec.toNat_ofNat]
    omega
  simp only [noopNote, Bool.and_eq_true, Bool.or_eq_true, decide_eq_true_eq, hsmp, and_or_left]
  exact or_congr_left (and_iff_right_of_imp fun h => by omega)

/-- The held cells are the note delays `ED1` to `EDF` (42_sequencer.md R184). -/
theorem heldNote_iff (c : Cell) : heldNote c = true ↔ c.cmd = 0xE#4 ∧ 0xD1 ≤ c.param.toNat ∧ c.param.toNat ≤ 0xDF := by
  simp only [heldNote, Bool.and_eq_true, decide_eq_true_eq, and_assoc, ne_eq, BitVec.toNat_inj.symm, hiNibble_toNat, loNibble_toNat,
    BitVec.toNat_ofNat]
  omega

theorem emitsEvent_iff (s : State) (c : Cell) :
    emitsEvent s c = true ↔ hasNotePart c = true ∧ ¬noopNote s c = true ∧ ¬heldNote c = true := by
  simp [emitsEvent, and_assoc]

/-! ## The result of a trigger phase -/

@[simp] theorem cellResult_getCh (s : State) (c : Cell) (h : Channel) : (cellResult s c h).getCh s.chan = h := setCh_getCh_same _ _ _

/-- A cell without an event writes its channel and nothing else. -/
theorem cellResult_of_silent {s : State} {c : Cell} (he : emitsEvent s c = false) (h : Channel) :
    cellResult s c h = s.setCh s.chan h := by
  rw [cellResult, he]
  rfl

/-- A held note leaves its latch, the revert and the note itself (42_sequencer.md R184). -/
theorem noteResult_of_held {s : State} {c : Cell} (hheld : heldNote c = true) : noteResult s c =
    { s.getCh s.chan with cmd := c.cmd, param := c.param, outPeriod := (s.getCh s.chan).basePeriod, outVol := (s.getCh s.chan).vol
                          dlyPeriod := c.period, dlySmp := c.smp } := by
  simp only [noteResult, hheld, if_true]

/-- A no-op note leaves its latch and the revert, and at most a held note (42_sequencer.md R188). -/
theorem noteResult_of_noop {s : State} {c : Cell} (hnoop : noopNote s c = true) : noteResult s c =
    { s.getCh s.chan with cmd := c.cmd, param := c.param, outPeriod := (s.getCh s.chan).basePeriod, outVol := (s.getCh s.chan).vol
                          dlyPeriod := (noteResult s c).dlyPeriod, dlySmp := (noteResult s c).dlySmp } := by
  unfold noteResult
  simp only [hnoop, if_true]
  split <;> rfl

/-- A note that binds its sample: the sample, its default volume, and the restart (42_sequencer.md R187, R189, R192). -/
theorem noteResult_of_binds {s : State} {c : Cell} (hheld : heldNote c = false) (hbinds : bindsSample s c = true) :
    (noteResult s c).smp = c.smp.setWidth 5
    ∧ (noteResult s c).vol = (s.hdr c.smp.toNat).vol ∧ (noteResult s c).outVol = (s.hdr c.smp.toNat).vol
    ∧ (noteResult s c).posInt = BitVec.ofNat 18 (startOffset (s.getCh s.chan) c) ∧ (noteResult s c).posFrac = 0#16
    ∧ (noteResult s c).loopActive = false
    ∧ (noteResult s c).active = startsInside s (c.smp.setWidth 5) (startOffset (s.getCh s.chan) c) := by
  have hnoop : noopNote s c = false := by
    simp only [bindsSample, Bool.and_eq_true, Bool.not_eq_true'] at hbinds
    exact hbinds.2
  simp [noteResult, hheld, hnoop, hbinds, startsInside]

/-- A restart begins inside the 18-bit cursor. -/
theorem startOffset_lt (h : Channel) (c : Cell) : startOffset h c < 2 ^ 18 := by
  have hp := c.param.isLt
  have ho := h.offsetMem.isLt
  unfold startOffset
  split_ifs <;> omega

/-- An effect that does nothing at T0 leaves its cell's note part (42_sequencer.md R193). -/
theorem triggersTo_noteResult {i : Instr} {s : State} {c : Cell} {tn : TickEffect} (ht : s.seq.tick = 0#5)
    (hexec : exec i s = runCell c noT0 tn s) : TriggersTo i s c (noteResult s c) :=
  ⟨hexec.trans (trigger_none s c tn ht), cellResult_sameMemory s c _⟩

/-- Two cells with one period and sample number have one note part, if their effects ask no more of it: neither holds it back, and
the start, the finetune and the tone-portamento target agree (42_sequencer.md R184, R187, R189, R190). -/
theorem noteResult_congr {s : State} {c d : Cell} (hperiod : c.period = d.period) (hsmp : c.smp = d.smp)
    (hc : heldNote c = false) (hd : heldNote d = false) (hstart : startOffset (s.getCh s.chan) c = startOffset (s.getCh s.chan) d)
    (hft : noteFt s (s.getCh s.chan) c = noteFt s (s.getCh s.chan) d)
    (htarget : setsTarget (s.getCh s.chan) c = setsTarget (s.getCh s.chan) d) :
    noteResult s c = { noteResult s d with cmd := c.cmd, param := c.param } := by
  have hnoop : noopNote s c = noopNote s d := by rw [noopNote, noopNote, hsmp]
  have hbinds : bindsSample s c = bindsSample s d := by rw [bindsSample, bindsSample, hsmp, hnoop]
  have hpitch : setsPitch (s.getCh s.chan) c = setsPitch (s.getCh s.chan) d := by rw [setsPitch, setsPitch, hperiod, htarget]
  simp only [noteResult, hc, hd, hnoop, hbinds, hpitch, hperiod, hsmp, hstart, hft, htarget]
  by_cases hn : noopNote s d = true
  · simp only [hn]
    rfl
  · simp only [hn]
    rfl

/-- The note part of `ED0` is that of an empty effect: the two differ in the latched effect alone (43_effects.md R248). -/
theorem noteResult_delayZero (s : State) (p : BitVec 12) (n : BitVec 8) : noteResult s ⟨p, n, 0xE#4, 0xD0#8⟩ =
    { noteResult s ⟨p, n, 0x0#4, 0x00#8⟩ with cmd := 0xE#4, param := 0xD0#8 } := by
  have hlo : loNibble 0xD0#8 = 0#4 := rfl
  have hhi : hiNibble 0xD0#8 = 0xD#4 := rfl
  exact noteResult_congr rfl rfl (by simp [heldNote, hlo]) (by simp [heldNote]) (by simp [startOffset]) (by simp [noteFt, hhi])
    (by simp [setsTarget])

/-- Settles O16: the effects of the list are `noT0`; the held note, `ED0` and the event's flags by their lemmas. -/
theorem notePartOnlyTriggers : Obligations.NotePartOnlyTriggers := by
  intro p n xx x y s ht
  refine ⟨fun i c hic => ?_, fun hy => ?_, ⟨noteResult s ⟨p, n, 0x0#4, 0x00#8⟩, ?_, ?_⟩, fun c => ?_⟩
  · simp only [List.mem_cons, List.not_mem_nil, or_false, Prod.mk.injEq] at hic
    obtain ⟨rfl, rfl⟩ | ⟨rfl, rfl⟩ | ⟨rfl, rfl⟩ | ⟨rfl, rfl⟩ | ⟨rfl, rfl⟩ | ⟨rfl, rfl⟩ | ⟨rfl, rfl⟩
      | ⟨rfl, rfl⟩ | ⟨rfl, rfl⟩ | ⟨rfl, rfl⟩ | ⟨rfl, rfl⟩ | ⟨rfl, rfl⟩ | ⟨rfl, rfl⟩ := hic
    exacts [triggersTo_noteResult ht (exec_noEffect ..), triggersTo_noteResult ht (exec_arp ..),
      triggersTo_noteResult ht (exec_pup ..), triggersTo_noteResult ht (exec_pdn ..), triggersTo_noteResult ht (exec_tpvs ..),
      triggersTo_noteResult ht (exec_vibvs ..), triggersTo_noteResult ht (exec_vsld ..), triggersTo_noteResult ht (exec_efilt ..),
      triggersTo_noteResult ht (exec_eglis ..), triggersTo_noteResult ht (exec_eun8 ..), triggersTo_noteResult ht (exec_ertrg ..),
      triggersTo_noteResult ht (exec_edly ..), triggersTo_noteResult ht (exec_einv ..)]
  · have hheld : heldNote ⟨p, n, 0xE#4, joinNibbles 0xD#4 y⟩ = true := by simp [heldNote, hy]
    have hsilent : emitsEvent s ⟨p, n, 0xE#4, joinNibbles 0xD#4 y⟩ = false := by simp [emitsEvent, hheld]
    have hrun := triggersTo_noteResult ht (exec_edly s p n y)
    rw [TriggersTo, noteResult_of_held hheld, cellResult_of_silent hsilent] at hrun
    exact hrun
  · exact triggersTo_noteResult ht (exec_noEffect s p n)
  · rw [← noteResult_delayZero]
    exact triggersTo_noteResult ht (exec_edly s p n 0#4)
  · rw [emitsEvent_iff, hasNotePart_iff, noopNote_iff, heldNote_iff]

/-! ## What an effect may change at T0 (42_sequencer.md R193) -/

/-- The effects that set the volume at T0: `Cxx`, `EAy`, `EBy` and `EC0` (42_sequencer.md R192). -/
def SetsVolume (c : Cell) : Prop :=
  c.cmd = 0xC#4 ∨ c.cmd = 0xE#4 ∧ (hiNibble c.param = 0xA#4 ∨ hiNibble c.param = 0xB#4 ∨ c.param = 0xC0#8)

/-- The effects that slide the period at T0: `E1y` and `E2y` (43_effects.md R236, R237). -/
def SlidesPeriod (c : Cell) : Prop := c.cmd = 0xE#4 ∧ (hiNibble c.param = 0x1#4 ∨ hiNibble c.param = 0x2#4)

/-- The effect that sets the finetune at T0: `E5y` (43_effects.md R240). -/
def SetsFinetune (c : Cell) : Prop := c.cmd = 0xE#4 ∧ hiNibble c.param = 0x5#4

/-- What the effect of cell `c` leaves of the note state: `g` is the channel after the note part, `h` after the effect. -/
structure EffectFrame (c : Cell) (g h : Channel) : Prop where
  /-- The bound sample. -/
  smp : h.smp = g.smp
  /-- The cursor. -/
  posInt : h.posInt = g.posInt
  /-- The cursor's fraction. -/
  posFrac : h.posFrac = g.posFrac
  /-- The loop flag. -/
  loopActive : h.loopActive = g.loopActive
  /-- The channel sounds as before. -/
  active : h.active = g.active
  /-- The tone-portamento target. -/
  portaTarget : h.portaTarget = g.portaTarget
  /-- The volume, unless the effect sets it. -/
  volume : ¬SetsVolume c → h.vol = g.vol ∧ h.outVol = g.outVol
  /-- The volume that `Cxx` sets. -/
  volumeSet : c.cmd = 0xC#4 → h.vol.toNat = min c.param.toNat 64
  /-- The period, unless the effect slides it. -/
  period : ¬SlidesPeriod c → h.basePeriod = g.basePeriod
  /-- The finetune, unless the effect sets it. -/
  finetune : ¬SetsFinetune c → h.ft = g.ft

/-- An effect that changes at most the effect memories, the loop registers and the panning flag. -/
theorem EffectFrame.of_memories {c : Cell} {g h : Channel} (hcmd : c.cmd ≠ 0xC#4)
    (hh : h = { g with
      vibSpeed := h.vibSpeed, vibDepth := h.vibDepth, vibWave := h.vibWave, tremSpeed := h.tremSpeed, tremDepth := h.tremDepth
      tremWave := h.tremWave, portaRate := h.portaRate, offsetMem := h.offsetMem, loopRow := h.loopRow, loopCount := h.loopCount
      panExplicit := h.panExplicit }) : EffectFrame c g h := by
  rw [hh]
  exact ⟨rfl, rfl, rfl, rfl, rfl, rfl, fun _ => ⟨rfl, rfl⟩, fun h => absurd h hcmd, fun _ => rfl, fun _ => rfl⟩

/-- An effect that does nothing. -/
theorem EffectFrame.refl {c : Cell} (g : Channel) (hcmd : c.cmd ≠ 0xC#4) : EffectFrame c g g := .of_memories hcmd rfl

/-- An effect that sets the volume. -/
theorem EffectFrame.of_setVolume {c : Cell} (g : Channel) (v : BitVec 7) (hset : SetsVolume c)
    (hv : c.cmd = 0xC#4 → v.toNat = min c.param.toNat 64) : EffectFrame c g (setVolume g v) :=
  ⟨rfl, rfl, rfl, rfl, rfl, rfl, fun h => absurd hset h, hv, fun _ => rfl, fun _ => rfl⟩

/-- An effect that sets the periods. -/
theorem EffectFrame.of_setPeriod {c : Cell} (g : Channel) (p : BitVec 12) (hset : SlidesPeriod c) (hcmd : c.cmd ≠ 0xC#4) :
    EffectFrame c g (setPeriod g p) :=
  ⟨rfl, rfl, rfl, rfl, rfl, rfl, fun _ => ⟨rfl, rfl⟩, fun h => absurd h hcmd, fun h => absurd hset h, fun _ => rfl⟩

/-- The trigger phase of instruction `i`, of the cell that its word encodes: the note part, an effect within its frame, the cell's
event, and any sequencer registers. -/
def TriggersFramed (i : Instr) (s : State) : Prop :=
  ∃ (h : Channel) (q : SeqRegs), exec i s = .next { cellResult s (wordCell (encode i)) h with seq := q }
    ∧ EffectFrame (wordCell (encode i)) (noteResult s (wordCell (encode i))) h

section
variable {i : Instr} {s : State} {c : Cell} {tn : TickEffect} (ht : s.seq.tick = 0#5)
include ht

/-- The trigger phase of an instruction, from its effect's result on the channel and on the sequencer registers. -/
theorem triggersFramed_of_song {t0 : TriggerEffect} {h : Channel} {q : SeqRegs} (hexec : exec i s = runCell c t0 tn s)
    (hword : encode i = cellWord c) (h0 : t0 (s.setCh s.chan (noteResult s c)) s.chan = { s.setCh s.chan h with seq := q })
    (hframe : EffectFrame c (noteResult s c) h) : TriggersFramed i s := by
  rw [TriggersFramed, hword, wordCell_cellWord]
  exact ⟨h, q, hexec.trans (trigger_seq s c t0 h q tn ht h0), hframe⟩

/-- The trigger phase of an instruction whose effect changes its channel alone. -/
theorem triggersFramed_of_channel {f : Channel → Channel} (hexec : exec i s = runCell c (fun s k => s.modCh k f) tn s)
    (hword : encode i = cellWord c) (hframe : ∀ g, EffectFrame c g (f g)) : TriggersFramed i s :=
  triggersFramed_of_song ht hexec hword (setCh_modCh s _ _ _) (hframe _)

/-- The trigger phase of an instruction whose effect does nothing there. -/
theorem triggersFramed_of_noT0 (hexec : exec i s = runCell c noT0 tn s) (hword : encode i = cellWord c) (hcmd : c.cmd ≠ 0xC#4) :
    TriggersFramed i s :=
  triggersFramed_of_song ht hexec hword rfl (.refl _ hcmd)

end

theorem slideUp_effectFrame {c : Cell} (g : Channel) (d : Nat) (hset : SlidesPeriod c) (hcmd : c.cmd ≠ 0xC#4) :
    EffectFrame c g (slideUp g d) := by
  unfold slideUp
  split
  · exact .refl g hcmd
  · exact .of_setPeriod g _ hset hcmd

theorem slideDown_effectFrame {c : Cell} (g : Channel) (d : Nat) (hset : SlidesPeriod c) (hcmd : c.cmd ≠ 0xC#4) :
    EffectFrame c g (slideDown g d) := by
  unfold slideDown
  split
  · exact .refl g hcmd
  · exact .of_setPeriod g _ hset hcmd

/-- The tempo effect writes sequencer registers alone (43_effects.md R251). -/
theorem setSpeedTempo_seq (xx : BitVec 8) (s : State) : setSpeedTempo xx s = { s with seq := (setSpeedTempo xx s).seq } := by
  unfold setSpeedTempo
  split_ifs <;> rfl

/-- The pattern loop writes its two channel registers and sequencer registers (43_effects.md R241). -/
theorem patternLoop_setCh (y : BitVec 4) (s : State) (k : Fin 8) (g : Channel) : ∃ (h : Channel) (q : SeqRegs),
    patternLoop y (s.setCh k g) k = { s.setCh k h with seq := q } ∧ h = { g with loopRow := h.loopRow, loopCount := h.loopCount } := by
  simp only [patternLoop, scheduleLoop, setCh_modCh, setCh_getCh_same]
  split_ifs
  · exact ⟨g, _, rfl, rfl⟩
  all_goals exact ⟨_, _, rfl, rfl⟩

/-- Every cell instruction's trigger phase is its note part, then an effect within its frame (42_sequencer.md R184, R193). -/
theorem exec_triggersFramed (i : Instr) (hi : i.space = .cell) (s : State) (ht : s.seq.tick = 0#5) : TriggersFramed i s := by
  cases i
  case noEffect => exact triggersFramed_of_noT0 ht (exec_noEffect ..) rfl (by simp)
  case arp => exact triggersFramed_of_noT0 ht (exec_arp ..) rfl (by simp)
  case pup => exact triggersFramed_of_noT0 ht (exec_pup ..) rfl (by simp)
  case pdn => exact triggersFramed_of_noT0 ht (exec_pdn ..) rfl (by simp)
  case tpvs => exact triggersFramed_of_noT0 ht (exec_tpvs ..) rfl (by simp)
  case vibvs => exact triggersFramed_of_noT0 ht (exec_vibvs ..) rfl (by simp)
  case vsld => exact triggersFramed_of_noT0 ht (exec_vsld ..) rfl (by simp)
  case efilt => exact triggersFramed_of_noT0 ht (exec_efilt ..) rfl (by simp)
  case eglis => exact triggersFramed_of_noT0 ht (exec_eglis ..) rfl (by simp)
  case eun8 => exact triggersFramed_of_noT0 ht (exec_eun8 ..) rfl (by simp)
  case ertrg => exact triggersFramed_of_noT0 ht (exec_ertrg ..) rfl (by simp)
  case edly => exact triggersFramed_of_noT0 ht (exec_edly ..) rfl (by simp)
  case einv => exact triggersFramed_of_noT0 ht (exec_einv ..) rfl (by simp)
  case tporta => exact triggersFramed_of_channel ht (exec_tporta ..) rfl fun _ => .of_memories (by simp) rfl
  case vib => exact triggersFramed_of_channel ht (exec_vib ..) rfl fun _ => .of_memories (by simp) rfl
  case trem => exact triggersFramed_of_channel ht (exec_trem ..) rfl fun _ => .of_memories (by simp) rfl
  case offs => exact triggersFramed_of_channel ht (exec_offs ..) rfl fun _ => .of_memories (by simp) rfl
  case evwav => exact triggersFramed_of_channel ht (exec_evwav ..) rfl fun _ => .of_memories (by simp) rfl
  case etwav => exact triggersFramed_of_channel ht (exec_etwav ..) rfl fun _ => .of_memories (by simp) rfl
  case pan =>
    cases hpan : s.act.pan with
    | false => exact triggersFramed_of_song ht (exec_pan ..) rfl (if_neg (by simp [hpan])) (.refl _ (by simp))
    | true =>
      exact triggersFramed_of_song ht (exec_pan ..) rfl ((if_pos hpan).trans (setCh_modCh s _ _ _)) (.of_memories (by simp) rfl)
  case vol p n xx =>
    exact triggersFramed_of_channel ht (exec_vol ..) rfl fun g => .of_setVolume g _ (.inl rfl) fun _ => by
      rw [volumeUp_toNat, Nat.zero_add]
  case efvu p n y =>
    exact triggersFramed_of_channel ht (exec_efvu ..) rfl fun g =>
      .of_setVolume g _ (.inr ⟨rfl, .inl (hiNibble_joinNibbles _ y)⟩) (by simp)
  case efvd p n y =>
    exact triggersFramed_of_channel ht (exec_efvd ..) rfl fun g =>
      .of_setVolume g _ (.inr ⟨rfl, .inr (.inl (hiNibble_joinNibbles _ y))⟩) (by simp)
  case ecut p n y =>
    by_cases hy : y = 0#4
    · subst hy
      exact triggersFramed_of_song ht (exec_ecut ..) rfl ((if_pos rfl).trans (setCh_modCh s _ _ _))
        (.of_setVolume _ _ (.inr ⟨rfl, .inr (.inr rfl)⟩) (by simp))
    · exact triggersFramed_of_song ht (exec_ecut ..) rfl (if_neg hy) (.refl _ (by simp))
  case efpu p n y =>
    exact triggersFramed_of_channel ht (exec_efpu ..) rfl fun g =>
      slideUp_effectFrame g _ ⟨rfl, .inl (hiNibble_joinNibbles _ y)⟩ (by simp)
  case efpd p n y =>
    exact triggersFramed_of_channel ht (exec_efpd ..) rfl fun g =>
      slideDown_effectFrame g _ ⟨rfl, .inr (hiNibble_joinNibbles _ y)⟩ (by simp)
  case eftun p n y =>
    exact triggersFramed_of_channel ht (exec_eftun ..) rfl fun _ =>
      ⟨rfl, rfl, rfl, rfl, rfl, rfl, fun _ => ⟨rfl, rfl⟩, (by simp), fun _ => rfl, fun h => absurd ⟨rfl, hiNibble_joinNibbles _ y⟩ h⟩
  case jump => exact triggersFramed_of_song ht (exec_jump ..) rfl rfl (.refl _ (by simp))
  case brk => exact triggersFramed_of_song ht (exec_brk ..) rfl rfl (.refl _ (by simp))
  case spd => exact triggersFramed_of_song ht (exec_spd ..) rfl (setSpeedTempo_seq _ _) (.refl _ (by simp))
  case eloop p n y =>
    obtain ⟨h, q, hloop, hh⟩ := patternLoop_setCh y s s.chan (noteResult s ⟨p, n, 0xE#4, joinNibbles 0x6#4 y⟩)
    exact triggersFramed_of_song ht (exec_eloop ..) rfl hloop (.of_memories (by simp) (by rw [hh]))
  case epdly p n y =>
    cases hdelay : s.seq.delayActive with
    | true => exact triggersFramed_of_song ht (exec_epdly ..) rfl (if_pos hdelay) (.refl _ (by simp))
    | false => exact triggersFramed_of_song ht (exec_epdly ..) rfl (if_neg (by simp [hdelay])) (.refl _ (by simp))
  case nop | start | pause | resume | stop | rsvd5 | rsvd6 | rsvd7 => exact absurd hi (by decide)

/-- A cell's trigger phase is its note part, then its effect within the effect's frame, then its event. -/
theorem exec_cellKind_trigger (c : Cell) (s : State) (ht : s.seq.tick = 0#5) : ∃ (h : Channel) (q : SeqRegs),
    exec (cellKind c) s = .next { cellResult s c h with seq := q } ∧ EffectFrame c (noteResult s c) h := by
  have hrun := exec_triggersFramed (cellKind c) (cellKind_space c) s ht
  rwa [TriggersFramed, encode_cellKind, wordCell_cellWord] at hrun

/-- Settles O36: the note part of a no-op note is its latch and the revert, and its effect stays in its frame. -/
theorem noopNoteIgnored : Obligations.NoopNoteIgnored := by
  intro c s ht hsmp hunplayable
  obtain ⟨h, q, hexec, hframe⟩ := exec_cellKind_trigger c s ht
  have hnoop : noopNote s c = true := by
    have hpos : c.smp.toNat ≠ 0 := fun h => hsmp (BitVec.eq_of_toNat_eq h)
    exact (noopNote_iff s c).2 (hunplayable.imp id fun hlen => ⟨by omega, hlen⟩)
  have hsilent : emitsEvent s c = false := by simp [emitsEvent, hnoop]
  rw [cellResult_of_silent hsilent] at hexec
  rw [noteResult_of_noop hnoop] at hframe
  have hch : ({ s.setCh s.chan h with seq := q } : State).getCh s.chan = h := setCh_getCh_same s s.chan h
  refine ⟨_, hexec, rfl, rfl, ?_⟩
  rw [hch]
  exact ⟨hframe.smp, hframe.posInt, hframe.posFrac, hframe.active, hframe.portaTarget,
    fun hvol hext => (hframe.volume (not_or.2 ⟨hvol, hext⟩)).1, hframe.period, hframe.finetune⟩

/-- Settles O37: the note part binds and restarts the sample, and the effect stays in its frame. -/
theorem sampleNumberBinds : Obligations.SampleNumberBinds := by
  intro c s ht hheld hlo hhi hlen
  obtain ⟨h, q, hexec, hframe⟩ := exec_cellKind_trigger c s ht
  have hnoop : noopNote s c = false := Bool.eq_false_iff.2 fun hn => by
    rcases (noopNote_iff s c).1 hn with hbig | ⟨-, hzero⟩
    · omega
    · exact hlen hzero
  have hsmp : c.smp ≠ 0#8 := by rintro h0; simp [h0] at hlo
  have hbinds : bindsSample s c = true := by simp [bindsSample, hsmp, hnoop]
  obtain ⟨hn, hvol, houtVol, hint, hfrac, hloop, hactive⟩ := noteResult_of_binds hheld hbinds
  have hwidth : (c.smp.setWidth 5).toNat = c.smp.toNat := by
    rw [BitVec.toNat_setWidth]
    omega
  have hbound : c.smp.setWidth 5 ≠ 0#5 := fun h0 => by
    rw [h0] at hwidth
    simp at hwidth
    omega
  have hch : ({ cellResult s c h with seq := q } : State).getCh s.chan = h := cellResult_getCh s c h
  refine ⟨_, hexec, ?_⟩
  rw [hch]
  refine ⟨?_, ?_, hframe.posFrac.trans hfrac, hframe.loopActive.trans hloop, ?_, fun hcmd hext => ?_, hframe.volumeSet⟩
  · rw [hframe.smp, hn, hwidth]
  · rw [hframe.posInt, hint, BitVec.toNat_ofNat, Nat.mod_eq_of_lt (startOffset_lt _ _)]
    rfl
  · rw [hframe.active, hactive, startsInside, hwidth, Bool.and_eq_true, decide_eq_true_eq, decide_eq_true_eq,
      and_iff_right hbound]
    rfl
  · obtain ⟨hv, ho⟩ := hframe.volume (not_or.2 ⟨hcmd, hext⟩)
    exact ⟨hv.trans hvol, ho.trans houtVol⟩

/-! ## The row advance (42_sequencer.md R194 to R197) -/

theorem commitSpeed_eq_rowStart (q : SeqRegs) : commitSpeed q = rowStart q := by
  unfold commitSpeed rowStart
  split_ifs with h
  · rfl
  · simp only [not_not.1 h]
    rfl

/-- The position the Sequencer computes is the one R194, R195 and R199 describe. -/
theorem rowTarget_nextPosition (q : SeqRegs) : RowTarget q (nextPosition q).1 (nextPosition q).2 := by
  have hrow := q.row.isLt
  refine ⟨fun hj => ?_, fun hj hb => ?_, fun hj hb hl => ?_, fun hj hb hl => ⟨fun hlast => ?_, fun hnext => ?_⟩⟩
  · simp [nextPosition, hj]
  · simp [nextPosition, hj, hb]
  · simp [nextPosition, hj, hb, hl]
  · simp [nextPosition, hj, hb, hl, hlast]
  · have hne : q.row.toNat ≠ 63 := by omega
    simp [nextPosition, hj, hb, hl, hne]
    omega

section
variable {s : State}

/-- A pattern delay repeats the row (42_sequencer.md R197). -/
theorem rowAdvance_repeat (h : s.seq.delayCount ≠ 0#4) : rowAdvance s =
    { s with seq := { rowStart s.seq with delayCount := s.seq.delayCount - 1, delayActive := true } } := by
  rw [rowAdvance, commitSpeed_eq_rowStart]
  exact if_pos h

variable (hdelay : s.seq.delayCount = 0#4)
include hdelay

/-- Without a pattern delay, the next position, the restart position or the end of the song (42_sequencer.md R194, R196). -/
theorem rowAdvance_move : rowAdvance s =
    if (nextPosition s.seq).1 < s.latch.songLen.toNat then
      { s with seq := { clearPending (rowStart s.seq) with order := BitVec.ofNat 7 (nextPosition s.seq).1, row := (nextPosition s.seq).2 } }
    else if s.latch.restart.toNat < s.latch.songLen.toNat then
      { s with seq := { clearPending (rowStart s.seq) with order := BitVec.ofNat 7 s.latch.restart.toNat, row := (nextPosition s.seq).2 } }
    else { s with seq := clearPending (rowStart s.seq), seqState := .finished } := by
  rw [rowAdvance, commitSpeed_eq_rowStart]
  exact if_neg (not_not.2 hdelay)

end

/-- An order index below a song length of at most 128 is the 7-bit register's value. -/
theorem order_toNat {o len : Nat} (ho : o < len) (hlen : len ≤ 128) : (BitVec.ofNat 7 o).toNat = o := by
  rw [BitVec.toNat_ofNat]
  omega

/-- Settles O40: by the pattern delay, then by where the next position lies in the order list. -/
theorem rowAdvanceOrder : Obligations.RowAdvanceOrder := by
  intro s hlen
  refine ⟨fun hdelay => ⟨s.seq.delayCount - 1, by bv_omega, rowAdvance_repeat hdelay⟩, fun hdelay =>
    ⟨_, _, rowTarget_nextPosition s.seq, fun ho => ⟨_, order_toNat ho hlen, ?_⟩, fun ho hr => ⟨_, order_toNat hr hlen, ?_⟩,
      fun ho hr => ?_⟩⟩
  · rw [rowAdvance_move hdelay, if_pos ho]
    rfl
  · rw [rowAdvance_move hdelay, if_neg (Nat.not_lt.2 ho), if_pos hr]
    rfl
  · rw [rowAdvance_move hdelay, if_neg (Nat.not_lt.2 ho), if_neg (Nat.not_lt.2 hr)]
    rfl

end Sys2Proof.Machine
end

section
/-! PROOFS. The effects (43_effects.md): an instruction's trigger phase and continuation tick from its two effects, and the effects
that act in the trigger phase alone. -/

namespace Sys2Proof.Machine

/-! ## A cell's two phases (42_sequencer.md R184, R193, R198) -/

section
variable {i : Instr} {s : State} {c : Cell} {t0 : TriggerEffect} {tn : TickEffect} {f : Channel → Channel} {h : Channel}

section
variable (ht : s.seq.tick = 0#5)
include ht

/-- An effect that leaves the channel at `h` after the note part and changes nothing else. -/
theorem triggersTo_of_effect (hexec : exec i s = runCell c t0 tn s)
    (h0 : t0 (s.setCh s.chan (noteResult s c)) s.chan = s.setCh s.chan h) : TriggersTo i s c h :=
  ⟨hexec.trans (trigger_to s c t0 h tn ht h0), cellResult_sameMemory s c h⟩

/-- An effect that changes its channel by `f`. -/
theorem triggersTo_channel (hexec : exec i s = runCell c (fun s k => s.modCh k f) tn s) :
    TriggersTo i s c (f (noteResult s c)) :=
  triggersTo_of_effect ht hexec (setCh_modCh s _ _ _)

/-- An effect that leaves the channel at `h` after the note part, and the sequencer registers at `q`. -/
theorem triggersToSeq_of_effect {q : SeqRegs} (hexec : exec i s = runCell c t0 tn s)
    (h0 : t0 (s.setCh s.chan (noteResult s c)) s.chan = { s.setCh s.chan h with seq := q }) : TriggersToSeq i s c h q :=
  ⟨hexec.trans (trigger_seq s c t0 h q tn ht h0), cellResult_seq_sameMemory s c h q⟩

end

section
variable (ht : s.seq.tick ≠ 0#5)
include ht

/-- An effect that leaves the channel at `h` at a continuation tick and changes nothing else. -/
theorem continuesTo_of_effect (hexec : exec i s = runCell c t0 tn s) (hn : tn s.seq.tick s s.chan = s.setCh s.chan h) :
    ContinuesTo i s h :=
  ⟨hexec.trans ((tick_run s c t0 tn ht).trans (congrArg _ hn)), setCh_sameMemory s s.chan h⟩

/-- An effect that changes its channel by `f` at a continuation tick. -/
theorem continuesTo_channel (hexec : exec i s = runCell c t0 (fun _ s k => s.modCh k f) s) :
    ContinuesTo i s (f (s.getCh s.chan)) :=
  continuesTo_of_effect ht hexec (modCh_setCh s _ _)

/-- An effect that does nothing at this continuation tick. -/
theorem continuesTo_same (hexec : exec i s = runCell c t0 tn s) (hn : tn s.seq.tick s s.chan = s) :
    ContinuesTo i s (s.getCh s.chan) :=
  continuesTo_of_effect ht hexec (hn.trans (setCh_getCh_self s s.chan).symm)

/-- An instruction whose effect acts in the trigger phase alone changes nothing at a continuation tick. -/
theorem exec_of_noTN (hexec : exec i s = runCell c t0 noTN s) : exec i s = .next s :=
  hexec.trans (tick_run s c t0 noTN ht)

end

end

/-- Settles O15: each of the effects is `noTN`. -/
theorem triggerOnlyEffectsContinueIdle : Obligations.TriggerOnlyEffectsContinueIdle := by
  intro p n xx x y s ht
  exact ⟨exec_of_noTN ht (exec_noEffect ..), exec_of_noTN ht (exec_pan ..), exec_of_noTN ht (exec_offs ..),
    exec_of_noTN ht (exec_jump ..), exec_of_noTN ht (exec_vol ..), exec_of_noTN ht (exec_brk ..),
    exec_of_noTN ht (exec_spd ..), exec_of_noTN ht (exec_efilt ..), exec_of_noTN ht (exec_efpu ..),
    exec_of_noTN ht (exec_efpd ..), exec_of_noTN ht (exec_eglis ..), exec_of_noTN ht (exec_evwav ..),
    exec_of_noTN ht (exec_eftun ..), exec_of_noTN ht (exec_eloop ..), exec_of_noTN ht (exec_etwav ..),
    exec_of_noTN ht (exec_eun8 ..), exec_of_noTN ht (exec_efvu ..), exec_of_noTN ht (exec_efvd ..),
    exec_of_noTN ht (exec_epdly ..), exec_of_noTN ht (exec_einv ..)⟩

/-! ## Single registers (43_effects.md R229, R239, R240, R242) -/

/-- The two low bits of a nibble select a waveform. -/
theorem waveSelect_eq (y : BitVec 4) : y.extractLsb' 0 2 = BitVec.ofNat 2 (y.toNat % 4) := by
  apply BitVec.eq_of_toNat_eq
  simp

/-- Settles O26: each effect is one register write. -/
theorem waveformsAndFinetune : Obligations.WaveformsAndFinetune := by
  intro p n y s ht
  rw [← waveSelect_eq]
  exact ⟨triggersTo_channel ht (exec_evwav ..), triggersTo_channel ht (exec_etwav ..), triggersTo_channel ht (exec_eftun ..)⟩

/-- Settles O27: by whether the configuration supports panning. -/
theorem setPanning : Obligations.SetPanning := by
  intro p n xx s ht c h
  refine triggersTo_of_effect ht (exec_pan ..) ?_
  cases hpan : s.act.pan with
  | false => exact if_neg (by simp [hpan])
  | true => exact (if_pos hpan).trans (setCh_modCh s _ _ _)

end Sys2Proof.Machine
end

section
/-! PROOFS. The effects on volume (43_effects.md R228, R231, R233, R245 to R247, R252, R255). -/

namespace Sys2Proof.Machine

/-- Settles O17: the volume that each of the three effects sets. -/
theorem volumeSetInTrigger : Obligations.VolumeSetInTrigger := by
  intro p n xx y s ht
  refine ⟨⟨_, ?_, triggersTo_channel ht (exec_vol ..)⟩, ⟨_, volumeUp_toNat _ _, triggersTo_channel ht (exec_efvu ..)⟩,
    ⟨_, volumeDown_toNat _ _, triggersTo_channel ht (exec_efvd ..)⟩⟩
  rw [volumeUp_toNat, Nat.zero_add]

/-- Settles O34: at T0 by `y = 0`, at a continuation tick by `y` being the tick. -/
theorem noteCut : Obligations.NoteCut := by
  intro p n y s
  exact ⟨fun ht => ⟨fun hy => triggersTo_of_effect ht (exec_ecut ..) ((if_pos hy).trans (setCh_modCh s _ _ _)),
      fun hy => triggersTo_of_effect ht (exec_ecut ..) (if_neg hy)⟩,
    fun ht => ⟨fun hy => continuesTo_of_effect ht (exec_ecut ..) (if_pos hy),
      fun hy => continuesTo_same ht (exec_ecut ..) (if_neg hy)⟩⟩

/-! ## The phase of a waveform (30_encoding.md R110, R111) -/

/-- A waveform's magnitude is a byte. -/
theorem wave_le (w : BitVec 2) (pos : BitVec 6) : wave w pos ≤ 255 := by
  have hsine : ∀ v ∈ sineTable, v ≤ 255 := by decide
  simp only [wave]
  split_ifs
  · have hi : pos.toNat % 32 < sineTable.length := Nat.mod_lt _ (by decide)
    rw [List.getD_eq_getElem _ _ hi]
    exact hsine _ (List.getElem_mem hi)
  · omega
  · omega
  · exact Nat.le_refl _

/-- The scaled depth of a modulation is at most that of the largest magnitude, 255, and the largest depth memory, 15. -/
theorem wave_mul_depth_div_le (w : BitVec 2) (pos : BitVec 6) (depth : BitVec 4) (d : Nat) :
    wave w pos * depth.toNat / d ≤ 255 * 15 / d :=
  Nat.div_le_div_right (Nat.mul_le_mul (wave_le w pos) (Nat.le_of_lt_succ depth.isLt))

/-- A phase steps by its rate, modulo the 64 phases of a waveform. -/
theorem phaseStep_toNat (pos : BitVec 6) (rate : BitVec 4) : (pos + rate.setWidth 6).toNat = (pos.toNat + rate.toNat) % 64 := by
  rw [BitVec.toNat_add, BitVec.toNat_setWidth_of_le (by decide)]

/-! ## Tremolo (43_effects.md R228, R255) -/

theorem clampVolume_toNat (v : Int) : (clampVolume v).toNat = (min (max v 0) 64).toNat := by
  rw [clampVolume, BitVec.toNat_ofNat]
  omega

/-- The modulated volume: up in the first half-wave, down in the second, within 0 to 64 (43_effects.md R255). -/
theorem tremolo_outVol_toNat (h : Channel) : (tremolo h).outVol.toNat =
    if h.tremPos.toNat < 32 then min (h.vol.toNat + tremoloDelta h) 64 else min (h.vol.toNat - tremoloDelta h) 64 := by
  have hclamp : (tremolo h).outVol.toNat = (min (max (tremoloVolume h) 0) 64).toNat := clampVolume_toNat _
  rw [hclamp, tremoloVolume]
  split <;> omega

/-- Settles O19: the memory at T0, the depth's bound, and the modulated volume and phase. -/
theorem tremoloEffect : Obligations.TremoloEffect := by
  intro p n x y s
  exact ⟨fun ht => triggersTo_channel ht (exec_trem ..), fun ht =>
    ⟨wave_mul_depth_div_le _ _ _ 64, _, _, tremolo_outVol_toNat _, phaseStep_toNat _ _, continuesTo_channel ht (exec_trem ..)⟩⟩

end Sys2Proof.Machine
end

section
/-! PROOFS. The effects on pitch (43_effects.md R221 to R227, R236, R237, R252 to R258), and the volume slides that go with them. -/

namespace Sys2Proof.Machine

/-! ## Portamento (43_effects.md R222, R223, R236, R237) -/

section
variable {h : Channel}

/-- Without a note there is no period to slide (43_effects.md R258). -/
theorem slideUp_of_noPeriod (h0 : h.basePeriod = 0#12) (d : Nat) : slideUp h d = h := if_pos h0

theorem slideDown_of_noPeriod (h0 : h.basePeriod = 0#12) (d : Nat) : slideDown h d = h := if_pos h0

/-- A slide up sets both periods, not below 113. -/
theorem slideUp_of_period (h0 : h.basePeriod ≠ 0#12) (d : Nat) :
    ∃ u : BitVec 12, u.toNat = max (h.basePeriod.toNat - d) 113 ∧ slideUp h d = { h with basePeriod := u, outPeriod := u } := by
  refine ⟨_, ?_, if_neg h0⟩
  have hlt := h.basePeriod.isLt
  rw [BitVec.toNat_ofNat, periodMin]
  omega

/-- A slide down sets both periods, not above 856. -/
theorem slideDown_of_period (h0 : h.basePeriod ≠ 0#12) (d : Nat) :
    ∃ u : BitVec 12, u.toNat = min (h.basePeriod.toNat + d) 856 ∧ slideDown h d = { h with basePeriod := u, outPeriod := u } := by
  refine ⟨_, ?_, if_neg h0⟩
  rw [BitVec.toNat_ofNat, periodMax]
  omega

end

/-- Settles O23: the two slides, with and without a note. -/
theorem portamentoUpDown : Obligations.PortamentoUpDown := by
  intro p n xx s ht h
  have hup := continuesTo_channel ht (exec_pup s p n xx)
  have hdown := continuesTo_channel ht (exec_pdn s p n xx)
  refine ⟨fun h0 => ?_, fun h0 => ?_⟩
  · rw [slideUp_of_noPeriod h0] at hup
    rw [slideDown_of_noPeriod h0] at hdown
    exact ⟨hup, hdown⟩
  · obtain ⟨u, hu, hslideUp⟩ := slideUp_of_period h0 xx.toNat
    obtain ⟨d, hd, hslideDown⟩ := slideDown_of_period h0 xx.toNat
    rw [hslideUp] at hup
    rw [hslideDown] at hdown
    exact ⟨u, d, hu, hup, hd, hdown⟩

/-- Settles O24: the two slides after the note part, with and without a note. -/
theorem finePortamento : Obligations.FinePortamento := by
  intro p n y s ht
  have hup := triggersTo_channel ht (exec_efpu s p n y)
  have hdown := triggersTo_channel ht (exec_efpd s p n y)
  refine ⟨⟨fun h0 => ?_, fun h0 => ?_⟩, fun h0 => ?_, fun h0 => ?_⟩
  · rwa [slideUp_of_noPeriod h0] at hup
  · obtain ⟨u, hu, hslide⟩ := slideUp_of_period h0 y.toNat
    exact ⟨u, hu, hslide ▸ hup⟩
  · rwa [slideDown_of_noPeriod h0] at hdown
  · obtain ⟨d, hd, hslide⟩ := slideDown_of_period h0 y.toNat
    exact ⟨d, hd, hslide ▸ hdown⟩

/-! ## Tone portamento (43_effects.md R224, R253) -/

section
variable {h : Channel}

theorem tonePorta_of_noPeriod (h0 : h.basePeriod = 0#12) : tonePorta h = h := if_pos h0

theorem tonePorta_of_noTarget (h0 : h.basePeriod ≠ 0#12) (htarget : h.portaTarget = 0#12) :
    tonePorta h = { h with outPeriod := h.basePeriod } := (if_neg h0).trans (if_pos htarget)

/-- A slide to a target at or above the base period rises to it at most. -/
theorem towardTarget_of_le {base target rate : Nat} (hle : base ≤ target) :
    towardTarget base target rate = min (base + rate) target := by
  unfold towardTarget
  split_ifs <;> omega

/-- A slide to a target below the base period falls to it at most. -/
theorem towardTarget_of_gt {base target rate : Nat} (hlt : target < base) :
    towardTarget base target rate = max (base - rate) target := by
  unfold towardTarget
  split_ifs <;> omega

/-- A slide toward a target sets both periods, without passing it, and clears it on arrival. -/
theorem tonePorta_of_target (h0 : h.basePeriod ≠ 0#12) (htarget : h.portaTarget ≠ 0#12) : ∃ b : BitVec 12,
    b.toNat = towardTarget h.basePeriod.toNat h.portaTarget.toNat h.portaRate.toNat
    ∧ tonePorta h = { h with
        basePeriod := b, outPeriod := b, portaTarget := if b = h.portaTarget then 0#12 else h.portaTarget } := by
  refine ⟨_, ?_, (if_neg h0).trans (if_neg htarget)⟩
  have hbase := h.basePeriod.isLt
  have htop := h.portaTarget.isLt
  rw [BitVec.toNat_ofNat]
  refine Nat.mod_eq_of_lt ?_
  rcases Nat.lt_or_ge h.portaTarget.toNat h.basePeriod.toNat with hlt | hle
  · rw [towardTarget_of_gt hlt]; omega
  · rw [towardTarget_of_le hle]; omega

end

/-- Settles O21: the rate's memory at T0, and the tick without a note, without a target and with one. -/
theorem tonePortamentoEffect : Obligations.TonePortamentoEffect := by
  intro p n xx s
  refine ⟨fun ht => triggersTo_channel ht (exec_tporta ..), fun ht => ?_⟩
  intro h
  have hrun := continuesTo_channel ht (exec_tporta s p n xx)
  refine ⟨fun h0 => ?_, fun h0 htarget => ?_, fun h0 htarget => ?_⟩
  · rwa [tonePorta_of_noPeriod h0] at hrun
  · rwa [tonePorta_of_noTarget h0 htarget] at hrun
  · obtain ⟨b, hb, hslide⟩ := tonePorta_of_target h0 htarget
    exact ⟨b, fun hle => hb.trans (towardTarget_of_le hle), fun hlt => hb.trans (towardTarget_of_gt hlt), hslide ▸ hrun⟩

/-! ## Vibrato (43_effects.md R225, R254) -/

/-- A period in 12 bits is kept exactly. -/
theorem narrowPeriod_toNat {n : Nat} (hn : n ≤ 4095) : (narrowPeriod n).toNat = n := by
  rw [narrowPeriod, if_pos (by omega), BitVec.toNat_ofInt]
  omega

section
variable {h : Channel}

theorem vibrato_of_noPeriod (h0 : h.basePeriod = 0#12) : vibrato h = h := if_pos h0

theorem vibrato_of_period (h0 : h.basePeriod ≠ 0#12) : vibrato h =
    { h with outPeriod := narrowPeriod (vibratoPeriod h), vibPos := h.vibPos + h.vibSpeed.setWidth 6 } := if_neg h0

/-- The first half-wave raises the period. -/
theorem vibratoPeriod_of_first (hpos : h.vibPos.toNat < 32) :
    vibratoPeriod h = ((h.basePeriod.toNat + vibratoDelta h : Nat) : Int) := by
  rw [vibratoPeriod, if_pos hpos, Nat.cast_add]

/-- The second half-wave lowers the period. -/
theorem vibratoPeriod_of_second (hpos : 32 ≤ h.vibPos.toNat) (hle : vibratoDelta h ≤ h.basePeriod.toNat) :
    vibratoPeriod h = ((h.basePeriod.toNat - vibratoDelta h : Nat) : Int) := by
  rw [vibratoPeriod, if_neg (Nat.not_lt.2 hpos), Nat.cast_sub hle]

end

/-- Settles O20: the memory at T0, the depth's bound, and the tick without a note and with one, by the half-wave. -/
theorem vibratoEffect : Obligations.VibratoEffect := by
  intro p n x y s
  refine ⟨fun ht => triggersTo_channel ht (exec_vib ..), fun ht => ?_⟩
  intro h d
  have hrun := continuesTo_channel ht (exec_vib s p n x y)
  refine ⟨wave_mul_depth_div_le _ _ _ 128, fun h0 => ?_, fun h0 => ?_⟩
  · rwa [vibrato_of_noPeriod h0] at hrun
  · rw [vibrato_of_period h0] at hrun
    refine ⟨_, _, fun hpos hle => ?_, fun hpos hle => ?_, phaseStep_toNat _ _, hrun⟩
    · rw [vibratoPeriod_of_first hpos]
      exact narrowPeriod_toNat hle
    · rw [vibratoPeriod_of_second hpos hle]
      exact narrowPeriod_toNat (by have := h.basePeriod.isLt; omega)

/-! ## The volume slides (43_effects.md R226, R227, R231, R252) -/

theorem tonePorta_vol (h : Channel) : (tonePorta h).vol = h.vol := by
  unfold tonePorta
  split_ifs <;> rfl

theorem vibrato_vol (h : Channel) : (vibrato h).vol = h.vol := by
  unfold vibrato
  split_ifs <;> rfl

/-- The slid volume, within 0 to 64. -/
theorem volSlide_vol_toNat (x y : BitVec 4) (h : Channel) : (volSlide x y h).vol.toNat =
    if x ≠ 0#4 then min (h.vol.toNat + x.toNat) 64 else h.vol.toNat - y.toNat := by
  unfold volSlide
  split_ifs
  · exact volumeUp_toNat _ _
  · exact volumeDown_toNat _ _

/-- A volume slide is given by the volume alone. -/
theorem volSlide_eq_setVolume (x y : BitVec 4) {g h : Channel} (hvol : g.vol = h.vol) :
    volSlide x y g = setVolume g (volSlide x y h).vol := by
  simp only [volSlide, setVolume, hvol]

/-- Settles O22: the pitch effects leave the volume, so the three slides set the same one. -/
theorem volumeSlides : Obligations.VolumeSlides := by
  intro p n x y s ht h
  obtain ⟨htporta, -⟩ := continuesTo_channel ht (exec_tporta s p n 0#8)
  obtain ⟨hvib, -⟩ := continuesTo_channel ht (exec_vib s p n 0#4 0#4)
  have hvsld := continuesTo_channel ht (exec_vsld s p n x y)
  have htpvs := continuesTo_channel ht (exec_tpvs s p n x y)
  have hvibvs := continuesTo_channel ht (exec_vibvs s p n x y)
  rw [volSlide_eq_setVolume x y (tonePorta_vol h)] at htpvs
  rw [volSlide_eq_setVolume x y (vibrato_vol h)] at hvibvs
  exact ⟨_, _, _, volSlide_vol_toNat x y h, hvsld, htporta, htpvs, hvib, hvibvs⟩

/-! ## Arpeggio (43_effects.md R221, R256) -/

/-- What an offset plays that is either a parameter's nibble or a fixed nonzero one: at offset 0 the base period (43_effects.md
R221, R256; log entry 25). -/
theorem arpStep_offset (h : Channel) (fromParam : Bool) (z : BitVec 4) {d : Nat} (hd : d ≠ 0) :
    arpStep h (if fromParam then z.toNat else d) =
      if fromParam = true ∧ z = 0#4 then h.basePeriod
      else periodTable h.ft.toNat (min (soundingNote h.basePeriod h.ft + if fromParam then z.toNat else d) 35) := by
  have hz : z.toNat = 0 ↔ z = 0#4 := BitVec.toNat_inj (y := 0#4)
  cases fromParam with
  | false => simp [arpStep, arpPeriod, ftRow, hd]
  | true => simp [arpStep, arpPeriod, ftRow, hz]

section
variable {h : Channel} {fromParam : Bool} {x y : BitVec 4} {t : BitVec 5}

theorem arpeggio_of_noPeriod (h0 : h.basePeriod = 0#12) : arpeggio fromParam x y t h = h := if_pos h0

variable (h0 : h.basePeriod ≠ 0#12)
include h0

theorem arpeggio_base (hr : t.toNat % 3 = 0) : arpeggio fromParam x y t h = { h with outPeriod := h.basePeriod } := by
  simp only [arpeggio, if_neg h0, if_pos hr]

theorem arpeggio_first (hr : t.toNat % 3 = 1) :
    arpeggio fromParam x y t h = { h with outPeriod := arpStep h (if fromParam then x.toNat else 4) } := by
  simp [arpeggio, h0, hr]

theorem arpeggio_second (hr : t.toNat % 3 = 2) :
    arpeggio fromParam x y t h = { h with outPeriod := arpStep h (if fromParam then y.toNat else 3) } := by
  simp [arpeggio, h0, hr]

end

/-- Settles O25: the note found in the channel's finetune row, and the three steps by the tick modulo 3. -/
theorem arpeggioEffect : Obligations.ArpeggioEffect := by
  intro p n x y s ht h
  have hrun : ContinuesTo (.arp p n x y) s (arpeggio s.act.arp x y s.seq.tick h) := continuesTo_of_effect ht (exec_arp ..) rfl
  refine ⟨fun h0 => ?_, fun h0 => ⟨fun hr => ?_, soundingNote h.basePeriod h.ft, ?_⟩⟩
  · rwa [arpeggio_of_noPeriod h0] at hrun
  · rwa [arpeggio_base h0 hr] at hrun
  · obtain ⟨hm, habove, hbelow⟩ := noteAtOrBelow_spec (ftRow h.ft) h.basePeriod
    refine ⟨hm, habove, hbelow, fun hr => ?_, fun hr => ?_⟩
    · rwa [arpeggio_first h0 hr, arpStep_offset h s.act.arp x (by decide)] at hrun
    · rwa [arpeggio_second h0 hr, arpStep_offset h s.act.arp y (by decide)] at hrun

end Sys2Proof.Machine
end

section
/-! PROOFS. The effects on the song position and the tempo (43_effects.md R232, R234, R241, R249, R251). -/

namespace Sys2Proof.Machine

/-- The break row is the two decimal digits, or 0 where they exceed 63 (43_effects.md R234). -/
theorem breakTarget_toNat (x y : BitVec 4) : (breakTarget x y).toNat =
    if 10 * x.toNat + y.toNat ≤ 63 then 10 * x.toNat + y.toNat else 0 := by
  simp only [breakTarget]
  split
  · rw [BitVec.toNat_ofNat]
    omega
  · rfl

/-- Settles O29: the two effects write their registers; the break row by its digits. -/
theorem jumpAndBreak : Obligations.JumpAndBreak := by
  intro p n xx x y s ht
  exact ⟨triggersToSeq_of_effect ht (exec_jump ..) rfl,
    _, breakTarget_toNat x y, triggersToSeq_of_effect ht (exec_brk ..) rfl⟩

section
variable {xx : BitVec 8} (s : State)

theorem setSpeedTempo_zero (h : xx.toNat = 0) : setSpeedTempo xx s = s := if_pos (BitVec.eq_of_toNat_eq h)

theorem setSpeedTempo_speed (h1 : 1 ≤ xx.toNat) (h31 : xx.toNat ≤ 31) :
    setSpeedTempo xx s = { s with seq := { s.seq with speedPending := xx.setWidth 5 } } := by
  have h0 : xx ≠ 0#8 := by rintro rfl; simp at h1
  exact (if_neg h0).trans (if_pos h31)

theorem setSpeedTempo_tempo (h32 : 32 ≤ xx.toNat) : setSpeedTempo xx s = { s with seq := { s.seq with tempo := xx } } := by
  have h0 : xx ≠ 0#8 := by rintro rfl; simp at h32
  exact (if_neg h0).trans (if_neg (by omega))

end

/-- Settles O30: by the range of the parameter. -/
theorem speedAndTempo : Obligations.SpeedAndTempo := by
  intro p n xx s ht c
  refine ⟨fun h0 => ?_, fun h1 h31 => ⟨xx.setWidth 5, ?_, ?_⟩, fun h32 => ?_⟩
  · exact triggersToSeq_of_effect ht (exec_spd ..) (setSpeedTempo_zero _ h0)
  · rw [BitVec.toNat_setWidth]
    omega
  · exact triggersToSeq_of_effect ht (exec_spd ..) (setSpeedTempo_speed _ h1 h31)
  · exact triggersToSeq_of_effect ht (exec_spd ..) (setSpeedTempo_tempo _ h32)

/-- Settles O32: by whether the row is a repetition. -/
theorem patternDelay : Obligations.PatternDelay := by
  intro p n y s ht c
  exact ⟨fun hd => triggersToSeq_of_effect ht (exec_epdly ..) (if_pos hd),
    fun hd => triggersToSeq_of_effect ht (exec_epdly ..) (if_neg (Bool.eq_false_iff.1 hd))⟩

/-! ## The pattern loop (43_effects.md R241) -/

section
variable {s : State} {k : Fin 8} {h : Channel} {y : BitVec 4}

/-- A repetition of the row does nothing. -/
theorem patternLoop_repetition (hd : s.seq.delayActive = true) : patternLoop y s k = s := if_pos hd

variable (hd : s.seq.delayActive = false)
include hd

/-- `y = 0` marks the row. -/
theorem patternLoop_mark : patternLoop 0#4 (s.setCh k h) k = s.setCh k { h with loopRow := s.seq.row } := by
  simp [patternLoop, hd, setCh_modCh]

variable (hy : y ≠ 0#4)
include hy

/-- A first meeting starts the count and schedules the jump. -/
theorem patternLoop_first (hcount : h.loopCount = 0#4) : patternLoop y (s.setCh k h) k =
    { s.setCh k { h with loopCount := y } with seq := { s.seq with loopjumpPending := true, loopjumpRow := h.loopRow } } := by
  simp [patternLoop, scheduleLoop, hd, hy, hcount, setCh_modCh]

/-- The last meeting ends the count. -/
theorem patternLoop_last (hcount : h.loopCount ≠ 0#4) (hlast : h.loopCount - 1#4 = 0#4) :
    patternLoop y (s.setCh k h) k = s.setCh k { h with loopCount := h.loopCount - 1#4 } := by
  simp [patternLoop, hd, hy, hcount, hlast, setCh_modCh]

/-- A later meeting counts and schedules the jump. -/
theorem patternLoop_again (hcount : h.loopCount ≠ 0#4) (hmore : h.loopCount - 1#4 ≠ 0#4) : patternLoop y (s.setCh k h) k =
    { s.setCh k { h with loopCount := h.loopCount - 1#4 } with
      seq := { s.seq with loopjumpPending := true, loopjumpRow := h.loopRow } } := by
  simp [patternLoop, scheduleLoop, hd, hy, hcount, hmore, setCh_modCh]

end

/-- Settles O31: a repetition, the mark, the first meeting, and the later ones by whether the count ends. -/
theorem patternLoopEffect : Obligations.PatternLoop := by
  intro p n y s ht c h
  have hrun {g : Channel} {q : SeqRegs} (h0 : patternLoop y (s.setCh s.chan h) s.chan = { s.setCh s.chan g with seq := q }) :
      TriggersToSeq (.eloop p n y) s c g q := triggersToSeq_of_effect ht (exec_eloop ..) h0
  refine ⟨fun hd => hrun (patternLoop_repetition hd), fun hd => ⟨fun hy => ?_, fun hy hcount => ?_, fun hy hcount => ?_⟩⟩
  · subst hy
    exact hrun (patternLoop_mark hd)
  · exact hrun (patternLoop_first hd hy hcount)
  · exact ⟨h.loopCount - 1#4, by bv_omega, fun hlast => hrun (patternLoop_last hd hy hcount hlast),
      fun hmore => hrun (patternLoop_again hd hy hcount hmore)⟩

end Sys2Proof.Machine
end

section
/-! PROOFS. The effects on the sample (43_effects.md R230, R244, R248): the sample offset, the retrigger and the note delay. -/

namespace Sys2Proof.Machine

/-! ## The sample offset (43_effects.md R230, 42_sequencer.md R189) -/

/-- A note part that restarts the sample: the cursor, and where it sounds (42_sequencer.md R189). -/
theorem noteResult_of_restarts {s : State} {c : Cell} (hheld : heldNote c = false) (hnoop : noopNote s c = false)
    (hrestarts : (bindsSample s c || setsPitch (s.getCh s.chan) c) = true) :
    (noteResult s c).posInt = BitVec.ofNat 18 (startOffset (s.getCh s.chan) c) ∧ (noteResult s c).posFrac = 0#16
    ∧ (noteResult s c).loopActive = false
    ∧ (noteResult s c).active = startsInside s (noteResult s c).smp (startOffset (s.getCh s.chan) c) := by
  simp [noteResult, hheld, hnoop, hrestarts, startsInside]

/-- A cell with a note part that is not a no-op note restarts its sample, unless it sets a tone-portamento target
(42_sequencer.md R187, R190). -/
theorem restarts_of_hasNotePart {s : State} {h : Channel} {c : Cell} (hpart : hasNotePart c = true) (hnoop : noopNote s c = false)
    (htarget : setsTarget h c = false) : (bindsSample s c || setsPitch h c) = true := by
  rw [bindsSample, setsPitch, hnoop, htarget, Bool.or_comm]
  simpa [hasNotePart] using hpart

/-- Settles O28: the memory by the effect, the start by the note part. -/
theorem sampleOffset : Obligations.SampleOffset := by
  intro p n xx s ht c h off
  refine ⟨triggersTo_channel ht (exec_offs ..), fun hpart hnoop => ?_⟩
  have hheld : heldNote c = false := by simp [c, heldNote]
  have htarget : setsTarget (s.getCh s.chan) c = false := by simp [c, setsTarget]
  have hoff : startOffset (s.getCh s.chan) c = off := if_pos rfl
  obtain ⟨hint, hfrac, hloop, hactive⟩ := noteResult_of_restarts hheld hnoop (restarts_of_hasNotePart hpart hnoop htarget)
  refine ⟨?_, hfrac, hloop, ?_⟩
  · rw [hint, BitVec.toNat_ofNat, Nat.mod_eq_of_lt (startOffset_lt _ _), hoff]
  · rw [hactive, hoff, startsInside, Bool.and_eq_true, decide_eq_true_eq, decide_eq_true_eq]

/-! ## The retrigger (43_effects.md R244) -/

/-- Settles O33: by whether the tick is one of every `y`. -/
theorem retriggerEffect : Obligations.RetriggerEffect := by
  intro p n y s ht h
  refine ⟨fun hy hr => continuesTo_of_effect ht (exec_ertrg ..) (if_pos ⟨hy, hr⟩), fun hy => ?_⟩
  exact continuesTo_same ht (exec_ertrg ..) (if_neg (not_and_or.2 (hy.imp_left not_not.2)))

/-! ## The note delay (43_effects.md R248) -/

/-- The channel after the sample number `n` of a note that starts at frame 0 (42_sequencer.md R187, R189, R192). -/
def withNoteSample (s : State) (n : BitVec 8) (h : Channel) : Channel :=
  if n ≠ 0#8 then
    { h with
      smp := n.setWidth 5, ft := (s.hdr n.toNat).ft, vol := (s.hdr n.toNat).vol, outVol := (s.hdr n.toNat).vol
      posInt := 0#18, posFrac := 0#16, loopActive := false, active := startsInside s (n.setWidth 5) 0 }
  else h

/-- The channel after the period `p` of a note that sets the pitch and starts at frame 0 (42_sequencer.md R187, R189). -/
def withNotePeriod (s : State) (p : BitVec 12) (h : Channel) : Channel :=
  if p ≠ 0#12 then
    { h with
      basePeriod := lookup p h.ft, outPeriod := lookup p h.ft
      posInt := 0#18, posFrac := 0#16, loopActive := false, active := startsInside s h.smp 0 }
  else h

section
variable {s : State} {k : Fin 8} {c : Cell}

/-- A restart begins at the first frame, unless the cell's effect is a sample offset (42_sequencer.md R189). -/
theorem startOffset_of_ne (h : Channel) (hcmd : c.cmd ≠ 0x9#4) : startOffset h c = 0 := if_neg hcmd

theorem noteSample_eq (hcmd : c.cmd ≠ 0x9#4) : noteSample s k c = s.setCh k (withNoteSample s c.smp (s.getCh k)) := by
  by_cases hn : c.smp = 0#8
  · simp [noteSample, withNoteSample, hn]
  · simp [noteSample, withNoteSample, hn, retrigger, restartAt, bindSample, startOffset_of_ne _ hcmd, modCh_setCh]

theorem notePeriod_eq (hcmd : c.cmd = 0xE#4) : notePeriod s k c = s.setCh k (withNotePeriod s c.period (s.getCh k)) := by
  by_cases hp : c.period = 0#12
  · simp [notePeriod, withNotePeriod, hp]
  · simp [notePeriod, withNotePeriod, hp, hcmd, retrigger, restartAt, startOffset, modCh_setCh]

/-- A note whose effect is an extended one other than `E5y` is its sample number and then its period (42_sequencer.md R187). -/
theorem note_eq (hnoop : noopNote s c = false) (hcmd : c.cmd = 0xE#4) (hparam : hiNibble c.param ≠ 0x5#4) :
    note s k c = s.setCh k (withNotePeriod s c.period (withNoteSample s c.smp (s.getCh k))) := by
  have hft (u : State) : noteFinetune u k c = u := if_neg (by simp [hparam])
  rw [note, hnoop, if_neg Bool.false_ne_true, hft, noteSample_eq (by simp [hcmd]), notePeriod_eq hcmd, setCh_getCh_same,
    setCh_setCh]
  rfl

end

/-- The two halves of a note at frame 0 as one record: it restarts the sample where there is either. -/
theorem withNote_eq (s : State) (c : Cell) (h : Channel) : withNotePeriod s c.period (withNoteSample s c.smp h) =
    let m := if c.smp ≠ 0#8 then c.smp.setWidth 5 else h.smp
    let f := if c.smp ≠ 0#8 then (s.hdr c.smp.toNat).ft else h.ft
    let v := if c.smp ≠ 0#8 then (s.hdr c.smp.toNat).vol else h.vol
    let b := if c.period ≠ 0#12 then lookup c.period f else h.basePeriod
    { h with
      smp := m, ft := f, vol := v, outVol := if c.smp ≠ 0#8 then v else h.outVol
      basePeriod := b, outPeriod := if c.period ≠ 0#12 then b else h.outPeriod
      posInt := if hasNotePart c then 0#18 else h.posInt
      posFrac := if hasNotePart c then 0#16 else h.posFrac
      loopActive := if hasNotePart c then false else h.loopActive
      active := if hasNotePart c then startsInside s m 0 else h.active } := by
  by_cases hn : c.smp = 0#8 <;> by_cases hp : c.period = 0#12 <;>
    simp [withNotePeriod, withNoteSample, hasNotePart, hn, hp]

/-- A released note leaves the channel at `g`, with the note's event (43_effects.md R248). -/
theorem releaseNote_of_note {s : State} {c : Cell} {g : Channel} {y : BitVec 4} {t : BitVec 5}
    (hc : delayedCell (s.getCh s.chan) = c) (ht : t ≠ 0#5) (hy : t.toNat = y.toNat) (hnote : note s s.chan c = s.setCh s.chan g) :
    releaseNote y t s s.chan =
      (if hasNotePart c && !noopNote s c then evPush s (cellEvent s c g.vol) else s).setCh s.chan g := by
  have hy0 : y ≠ 0#4 := by
    rintro rfl
    exact ht (BitVec.eq_of_toNat_eq hy)
  simp only [releaseNote, if_pos (And.intro hy0 hy), hc, hnote, emitIfNote_setCh]

/-- What a cell instruction completes with reads memory as before. -/
theorem sameMemory_of_exec {i : Instr} {s t : State} (hi : i.space = .cell) (hexec : exec i s = .next t) : SameMemory s t := by
  obtain ⟨u, hu, hstep⟩ := exec_cellStep i s hi
  obtain rfl : u = t := Host.Outcome.next.inj (hu.symm.trans hexec)
  exact hstep.sameMemory

/-- Settles O35: a no-op note leaves the channel; another one is its sample number and then its period. -/
theorem noteDelayReleases : Obligations.NoteDelayReleases := by
  intro p n y s ht h c
  refine ⟨fun hy => continuesTo_same ht (exec_edly ..) (if_neg fun hr => hy hr.2), fun hy hparam => ?_⟩
  have hrun {g : Channel} (hnote : note s s.chan c = s.setCh s.chan g) :=
    (exec_edly s p n y).trans ((tick_run s _ _ _ ht).trans (congrArg _ (releaseNote_of_note rfl ht hy hnote)))
  rcases Bool.eq_false_or_eq_true (noopNote s c) with hnoop | hnoop
  · have hnote : note s s.chan c = s.setCh s.chan h := (if_pos hnoop).trans (setCh_getCh_self s s.chan).symm
    exact ⟨h, hrun hnote, sameMemory_of_exec rfl (hrun hnote), fun _ => rfl, fun hf => absurd (hnoop.symm.trans hf) nofun⟩
  · have hnote : note s s.chan c = s.setCh s.chan (withNotePeriod s h.dlyPeriod (withNoteSample s h.dlySmp h)) :=
      note_eq hnoop rfl (by rw [hparam]; decide)
    refine ⟨_, hrun hnote, sameMemory_of_exec rfl (hrun hnote), fun hf => absurd (hnoop.symm.trans hf) nofun, fun _ => ?_⟩
    exact withNote_eq s c h

end Sys2Proof.Machine
end

section
/-! PROOFS. The mixer (44_mixer.md): scaling and interpolation as bounded floor divisions, the end check, the frame as the sum of
its channels, and how long a sample that does not loop sounds. -/

namespace Sys2Proof.Machine

/-! ## Scaling (44_mixer.md R287) -/

/-- A sample value times a volume and a gain: the product of the two factors is at most 64 * 255. -/
theorem mul_volume_gain_range {v : Int} {outVol : BitVec 7} (gain : BitVec 8) (hlo : -128 ≤ v) (hhi : v ≤ 127)
    (hvol : outVol.toNat ≤ 64) :
    -128 * (64 * 255) ≤ v * outVol.toNat * gain.toNat ∧ v * outVol.toNat * gain.toNat ≤ 127 * (64 * 255) := by
  have hfactor : outVol.toNat * gain.toNat ≤ 64 * 255 := Nat.mul_le_mul hvol (Nat.lt_succ_iff.1 gain.isLt)
  rw [mul_assoc, ← Nat.cast_mul]
  generalize outVol.toNat * gain.toNat = n at hfactor ⊢
  have hlow : -128 * (n : Int) ≤ v * n := Int.mul_le_mul_of_nonneg_right hlo (by omega)
  have hhigh : v * n ≤ 127 * (n : Int) := Int.mul_le_mul_of_nonneg_right hhi (by omega)
  omega

/-- Settles O45: the range is that of the product, divided by 64. -/
theorem scalingRange : Obligations.ScalingRange := by
  refine ⟨fun v outVol gain hlo hhi hvol => ?_, fun v => ?_, by decide, by decide⟩
  · obtain ⟨hlow, hhigh⟩ := mul_volume_gain_range gain hlo hhi hvol
    refine ⟨rfl, ?_⟩
    simp only [scaleValue, asr]
    omega
  · have hgain : scaleValue v 64#7 128#8 = v * 64 * 128 / 2 ^ 6 := rfl
    omega

/-! ## Interpolation (44_mixer.md R284) -/

/-- A difference of two frames, weighted by a fraction, lies between 0 and the difference. -/
theorem asr_weighted_between (d : Int) {f : Nat} (hf : f < 65536) :
    min d 0 ≤ asr (d * f) 16 ∧ asr (d * f) 16 ≤ max d 0 := by
  simp only [asr]
  rcases le_total 0 d with hd | hd
  · have hlow : 0 ≤ d * f := Int.mul_nonneg hd (by omega)
    have hhigh : d * f ≤ d * 65536 := Int.mul_le_mul_of_nonneg_left (by omega) hd
    omega
  · have hlow : d * 65536 ≤ d * f := Int.mul_le_mul_of_nonpos_left hd (by omega)
    have hhigh : d * f ≤ 0 := Int.mul_nonpos_of_nonpos_of_nonneg hd (by omega)
    omega

theorem interpolate_between (v0 v1 : Int) {f : Nat} (hf : f < 65536) :
    min v0 v1 ≤ interpolate v0 v1 f ∧ interpolate v0 v1 f ≤ max v0 v1 := by
  have hbetween := asr_weighted_between (v1 - v0) hf
  simp only [interpolate]
  omega

/-! ## The end check (44_mixer.md R286) -/

section
variable {hd : SampleHdr} {h : Channel}

theorem regionEnd_of_loops (hl : hd.loopEn = true) : regionEnd hd = hd.loopStart.toNat + hd.loopLen.toNat := if_pos hl

theorem regionEnd_of_oneShot (hl : hd.loopEn = false) : regionEnd hd = hd.len.toNat := if_neg (Bool.eq_false_iff.1 hl)

/-- Before the end of its region a cursor stays. -/
theorem endCheck_before (he : h.posInt.toNat < regionEnd hd) : endCheck hd h = h := if_neg (Nat.not_le.2 he)

/-- A sample that does not loop falls silent at its end. -/
theorem endCheck_silences (hl : hd.loopEn = false) (he : regionEnd hd ≤ h.posInt.toNat) :
    endCheck hd h = { h with active := false } := by
  rw [endCheck, if_pos he, hl]
  rfl

/-- A sample that loops goes back by the overshoot. -/
theorem endCheck_wraps (hl : hd.loopEn = true) (he : regionEnd hd ≤ h.posInt.toNat) :
    endCheck hd h = { h with
      loopActive := true
      posInt := BitVec.ofNat 18 (hd.loopStart.toNat + (h.posInt.toNat - regionEnd hd) % hd.loopLen.toNat) } := by
  rw [endCheck, if_pos he, if_pos hl]

/-- A place in a loop that lies inside its sample fits the cursor. -/
theorem loopPlace_toNat (h1 : 1 ≤ hd.loopLen.toNat) (hle : hd.loopStart.toNat + hd.loopLen.toNat ≤ hd.len.toNat) (past : Nat) :
    (BitVec.ofNat 18 (hd.loopStart.toNat + past % hd.loopLen.toNat)).toNat = hd.loopStart.toNat + past % hd.loopLen.toNat
    ∧ hd.loopStart.toNat + past % hd.loopLen.toNat < hd.loopStart.toNat + hd.loopLen.toNat := by
  have hpast := Nat.mod_lt past h1
  have hlen := hd.len.isLt
  rw [BitVec.toNat_ofNat, Nat.mod_eq_of_lt (by omega)]
  omega

end

/-- Settles O46: interpolation adds a weighted difference; the end check by whether the sample loops and the cursor is at the
end of its region. -/
theorem interpolationAndEnd : Obligations.InterpolationAndEnd := by
  refine ⟨fun v0 v1 f hf => ?_, fun hd h => ⟨fun hl h1 hle => ?_, fun hl => ?_⟩⟩
  · obtain ⟨hlow, hhigh⟩ := interpolate_between v0 v1 hf
    exact ⟨hlow, hhigh, rfl⟩
  · rw [← regionEnd_of_loops hl]
    refine ⟨endCheck_before, fun he => ?_⟩
    obtain ⟨hplace, hlt⟩ := loopPlace_toNat h1 hle (h.posInt.toNat - regionEnd hd)
    rw [← regionEnd_of_loops hl, ← hplace] at hlt
    exact ⟨_, hplace, hlt, endCheck_wraps hl he⟩
  · rw [← regionEnd_of_oneShot hl]
    exact ⟨endCheck_before, endCheck_silences hl⟩

/-! ## What the mixer writes (44_mixer.md R285, R286, R290) -/

theorem MixerWrites.refl (h : Channel) : MixerWrites h h := ⟨rfl, id, id⟩

theorem MixerWrites.trans {h g k : Channel} (hg : MixerWrites h g) (hk : MixerWrites g k) : MixerWrites h k := by
  obtain ⟨eg, hactive, hloop⟩ := hg
  obtain ⟨ek, kactive, kloop⟩ := hk
  refine ⟨?_, hactive ∘ kactive, kloop ∘ hloop⟩
  rw [eg] at ek
  exact ek

theorem advanceCursor_writes (rate : BitVec 18) (h : Channel) : MixerWrites h (advanceCursor rate h) := ⟨rfl, id, id⟩

theorem endCheck_writes (hd : SampleHdr) (h : Channel) : MixerWrites h (endCheck hd h) := by
  rcases Nat.lt_or_ge h.posInt.toNat (regionEnd hd) with he | he
  · rw [endCheck_before he]
    exact .refl h
  · cases hl : hd.loopEn with
    | false => rw [endCheck_silences hl he]; exact ⟨rfl, nofun, id⟩
    | true => rw [endCheck_wraps hl he]; exact ⟨rfl, id, fun _ => rfl⟩

theorem mixedChannel_writes (s : State) (k : Fin 8) : MixerWrites (s.getCh k) (mixedChannel s k) :=
  (advanceCursor_writes _ _).trans (endCheck_writes _ _)

/-! ## The frame (44_mixer.md R280 to R291) -/

/-- MIX, where it completes: the clamped sums of the parts, and the channels that sound have moved. -/
theorem mix_spec {s t : State} {f : Frame} (h : mix s = .ok (t, f)) :
    f.left = clampSample ((s.channelsFrom 0).map fun k => leftPart s k (mixedValue s k)).sum
    ∧ f.right = clampSample ((s.channelsFrom 0).map fun k => rightPart s k (mixedValue s k)).sum
    ∧ ∀ k : Fin 8, t.getCh k =
        if k.val < s.latch.chanCount.toNat ∧ silentChannel (s.getCh k) = false then mixedChannel s k else s.getCh k := by
  simp only [mix] at h
  split at h
  · cases h
  · rename_i s1 acc hmix
    obtain ⟨-, hch, hacc⟩ := mixChannels_spec _ (channelsFrom_nodup s 0) s _ _ _ hmix
    cases h
    subst hacc
    simpa [mem_channelsFrom] using hch

/-- Settles O47: the sums and the channels are those of `mix_spec`; by whether the channel takes part and sounds. -/
theorem mixIsClampedSum : Obligations.MixIsClampedSum := by
  intro s t f hmix
  obtain ⟨hleft, hright, hch⟩ := mix_spec hmix
  have hframe := mix_frame hmix
  refine ⟨by rw [hleft, clampSample_toInt], by rw [hright, clampSample_toInt], hframe, fun who a => ?_, fun k => ?_⟩
  · rw [hframe]
    rfl
  · rw [hch k]
    refine ⟨?_, fun hk hactive hsmp hperiod => ?_, fun hquiet => ?_⟩
    · split
      · exact mixedChannel_writes s k
      · exact .refl _
    · have hsounds : silentChannel (s.getCh k) = false := by simp [silentChannel, hactive, hsmp, hperiod]
      rw [if_pos ⟨hk, hsounds⟩, mixedChannel_afterFrame s k hsounds]
    · refine if_neg fun ⟨hk, hsounds⟩ => ?_
      have hin := Nat.not_le.2 hk
      have hsilent : silentChannel (s.getCh k) = true := (silentChannel_iff _).2 (by tauto)
      exact absurd (hsilent.symm.trans hsounds) nofun

/-! ## How long a sample that does not loop sounds (44_mixer.md R281, R285, R286, R292) -/

/-- The cursor in 1/65536 frame (10_state.md R24). -/
def cursorOf (h : Channel) : Nat := h.posInt.toNat * 65536 + h.posFrac.toNat

/-- The cursor lies before a frame where its integer part does. -/
theorem cursorOf_lt_iff (h : Channel) (len : Nat) : cursorOf h < len * 65536 ↔ h.posInt.toNat < len := by
  have hfrac := h.posFrac.isLt
  simp only [cursorOf]
  omega

section
variable {hd : SampleHdr} {rate : BitVec 18}

/-- A frame of a sample that does not loop: the cursor takes its step, and the channel stays active inside the sample. -/
theorem afterFrame_oneShot {h : Channel} (hl : hd.loopEn = false) (hrate : 8000 ≤ rate.toNat) (hactive : h.active = true)
    (hperiod : h.outPeriod ≠ 0#12) (hin : h.posInt.toNat < hd.len.toNat) :
    (afterFrame hd rate h).outPeriod = h.outPeriod
    ∧ cursorOf (afterFrame hd rate h) = cursorOf h + cursorStep h.outPeriod.toNat rate.toNat
    ∧ (afterFrame hd rate h).active = decide ((afterFrame hd rate h).posInt.toNat < hd.len.toNat) := by
  have hcursor : cursorOf (advanceCursor rate h) = cursorOf h + cursorStep h.outPeriod.toNat rate.toNat :=
    (cursor_after_frame hrate hperiod hin (by simp [hl])).1
  rw [afterFrame_active hd rate h hactive, ← hcursor]
  rcases Nat.lt_or_ge (advanceCursor rate h).posInt.toNat hd.len.toNat with he | he
  · rw [endCheck_before (by rwa [regionEnd_of_oneShot hl])]
    exact ⟨rfl, rfl, hactive.trans (decide_eq_true he).symm⟩
  · rw [endCheck_silences hl (by rwa [regionEnd_of_oneShot hl])]
    exact ⟨rfl, rfl, (decide_eq_false (Nat.not_lt.2 he)).symm⟩

/-- From any cursor inside the sample the channel is active while the steps have not reached the sample's end. -/
theorem active_after_frames (hl : hd.loopEn = false) (hrate : 8000 ≤ rate.toNat) (n : Nat) (h : Channel) (hactive : h.active = true)
    (hperiod : h.outPeriod ≠ 0#12) (hin : h.posInt.toNat < hd.len.toNat) :
    ((afterFrame hd rate)^[n] h).active
      = decide (cursorOf h + n * cursorStep h.outPeriod.toNat rate.toNat < hd.len.toNat * 65536) := by
  induction n generalizing h with
  | zero => simpa [cursorOf_lt_iff, hactive] using hin
  | succ n ih =>
    obtain ⟨hperiod', hcursor, hactive'⟩ := afterFrame_oneShot hl hrate hactive hperiod hin
    rw [Function.iterate_succ_apply, Nat.succ_mul, Nat.add_comm (n * _), ← Nat.add_assoc, ← hcursor]
    by_cases he : (afterFrame hd rate h).posInt.toNat < hd.len.toNat
    · rw [ih _ (hactive'.trans (decide_eq_true he)) (hperiod' ▸ hperiod) he, hperiod']
    · have hsilent := hactive'.trans (decide_eq_false he)
      have hend := (cursorOf_lt_iff (afterFrame hd rate h) hd.len.toNat).not.2 he
      rw [Function.iterate_fixed (afterFrame_inactive hd rate _ hsilent), hsilent, decide_eq_false (by omega)]

end

/-- Settles O48: `active_after_frames` from frame 0. -/
theorem sampleSoundsExactly : Obligations.SampleSoundsExactly := by
  intro hd rate h n hl hactive hint hfrac hperiod hrate _ hlen _
  have hstart : cursorOf h = 0 := by simp [cursorOf, hint, hfrac]
  rw [active_after_frames hl hrate n h hactive hperiod (by rw [hint]; exact hlen), hstart, Nat.zero_add]

end Sys2Proof.Machine
end

section
/-! PROOFS. The two queues (45_events.md): each is first-in first-out, and the event queue never affects anything else. -/

namespace Sys2Proof.Machine

/-! ## First-in first-out (45_events.md R313, R314, R316) -/

theorem sinkPop_of_empty {s : State} (h : s.ring = []) : sinkPop s = s := by simp only [sinkPop, h]

theorem sinkPop_of_cons {s : State} {f : Frame} {r : List Frame} (h : s.ring = f :: r) :
    sinkPop s = { s with ring := r, sinkOut := some f } := by simp only [sinkPop, h]

theorem evPop_of_empty {s : State} (h : s.evq = []) : evPop s = s := by simp only [evPop, h]

theorem evPop_of_cons {s : State} {e : NoteEvent} {q : List NoteEvent} (h : s.evq = e :: q) :
    evPop s = { s with evq := q, evOut := some e } := by simp only [evPop, h]

theorem evPush_of_room {s : State} (e : NoteEvent) (h : s.evq.length < evqDepth) : evPush s e = { s with evq := s.evq ++ [e] } :=
  if_pos h

/-- A full event queue keeps its events and counts the new one. -/
theorem evPush_of_full {s : State} (e : NoteEvent) (h : evqDepth ≤ s.evq.length) :
    evPush s e = { s with cnt := { s.cnt with
      evDrop := if s.cnt.evDrop = BitVec.allOnes 32 then s.cnt.evDrop else s.cnt.evDrop + 1 } } :=
  if_neg (Nat.not_lt.2 h)

/-- The drop counter counts up to its largest value and stays there. -/
theorem saturatingCount_toNat (d : BitVec 32) :
    (if d = BitVec.allOnes 32 then d else d + 1).toNat = min (d.toNat + 1) (2 ^ 32 - 1) := by
  split
  · subst d
    decide
  · rename_i h
    have hne : d.toNat ≠ 2 ^ 32 - 1 := fun e => h (BitVec.eq_of_toNat_eq (by rw [e, BitVec.toNat_allOnes]))
    bv_omega

/-- Settles O49: a pop's step is the pop alone; each operation by whether its queue is empty, or full. -/
theorem queuesFirstInFirstOut : Obligations.QueuesFirstInFirstOut := by
  refine ⟨fun s rest hp => ⟨fun hi => ⟨fun h => ?_, fun f r h => ?_⟩, fun hi => ⟨fun h => ?_, fun e q h => ?_⟩⟩,
    fun s e => ⟨evPush_of_room e, fun h => ⟨_, saturatingCount_toNat s.cnt.evDrop, evPush_of_full e h⟩⟩⟩
  · exact step_of_begin hp hi (congrArg _ (sinkPop_of_empty (s := s.moved rest) h)) hp
  · exact step_of_begin hp hi (congrArg _ (sinkPop_of_cons (s := s.moved rest) h)) hp
  · exact step_of_begin hp hi (congrArg _ (evPop_of_empty (s := s.moved rest) h)) hp
  · exact step_of_begin hp hi (congrArg _ (evPop_of_cons (s := s.moved rest) h)) hp

/-! ## The agents' operations (00_scope.md R8) -/

theorem SameButEvents.phase {s t : State} (h : SameButEvents s t) : t.phase = s.phase := by rw [h]

theorem SameButEvents.inputs {s t : State} (h : SameButEvents s t) : t.inputs = s.inputs := by rw [h]

theorem moved_blind (rest : List Input) : EventBlind fun s => s.moved rest := .of _ fun _ _ _ _ => rfl

theorem sinkPop_blind : EventBlind sinkPop := by
  refine EventBlind.of _ fun s q o d => ?_
  cases h : s.ring with
  | nil => rw [sinkPop_of_empty h, sinkPop_of_empty (s := s.withEvents q o d) h]; rfl
  | cons f r => rw [sinkPop_of_cons h, sinkPop_of_cons (s := s.withEvents q o d) h]; rfl

/-- Each side pops its own event, if it has one, and both differ from before at most in the events. -/
theorem evPop_blind : EventBlind evPop := by
  refine EventBlind.of _ fun s q o d => ?_
  rw [evPop_frame s, evPop_frame (s.withEvents q o d)]
  rfl

/-- A write of a register other than CTRL depends on the operating state alone. -/
theorem writeCfg_blind (i : BitVec 8) (v : Word) : EventBlind fun s => writeCfg s i v := by
  refine EventBlind.of _ fun s q o d => ?_
  have hw : cfgWritable (s.withEvents q o d) = cfgWritable s := rfl
  simp only [writeCfg, hw]
  split_ifs <;> rfl

/-- EV_DROP and FIFO are the registers that show the events (10_state.md R39). -/
theorem readReg_withEvents (s : State) (q : List NoteEvent) (o : Option NoteEvent) (d : BitVec 32) {i : BitVec 8}
    (hdrop : i ≠ 0x07#8) (hfifo : i ≠ 0x08#8) : readReg (s.withEvents q o d) i = readReg s i := by
  simp only [readReg, if_neg hdrop, if_neg hfifo]
  rfl

theorem regRead_blind {i : BitVec 8} (hdrop : i ≠ 0x07#8) (hfifo : i ≠ 0x08#8) :
    EventBlind fun s => { s with readData := readReg s i } :=
  .of _ fun s q o d => by rw [readReg_withEvents s q o d hdrop hfifo]; rfl

/-- START reads the image and the configuration, and an accepted one empties the event queue (40_control.md R133, R138). -/
theorem execStart_blind {s t : State} (h : SameButEvents s t) : AnswersAlike (execStart s) (execStart t) := by
  obtain ⟨q, o, d, rfl⟩ := (sameButEvents_iff s t).1 h
  have hq : (s.withEvents q o d).seqState = s.seqState := rfl
  have hl : loadImage (latchConfig (s.withEvents q o d)) = loadImage (latchConfig s) := rfl
  simp only [execStart, hq, hl]
  split
  · exact h
  · cases loadImage (latchConfig s) <;> exact rfl

/-- A host command answers alike on states that differ at most in the events. -/
theorem command_blind {i : Instr} {s t : State} (hi : i.space = .ctrl) (h : SameButEvents s t) :
    AnswersAlike (exec i s) (exec i t) := by
  have hflag (p : Bool) : EventBlind fun s =>
      if s.seqState = .playing ∨ s.seqState = .paused then { s with pauseReq := p } else s :=
    .ite (fun s => s.seqState = .playing ∨ s.seqState = .paused) (fun _ _ _ _ => Iff.rfl) (.of _ fun _ _ _ _ => rfl) .id
  cases i
  case start => exact execStart_blind h
  case pause => exact hflag true s t h
  case resume => exact hflag false s t h
  case stop =>
    have hset : EventBlind fun s => { s with seqState := .stopped, pauseReq := false } := .of _ fun _ _ _ _ => rfl
    exact EventBlind.ite (fun s => s.seqState = .stopped) (fun _ _ _ _ => Iff.rfl) .id hset s t h
  case nop | rsvd5 | rsvd6 | rsvd7 => exact h
  all_goals exact absurd hi (by simp [Instr.space])

/-! ## Nothing but the events depends on the events (45_events.md R313, R314) -/

/-- The beginning of an agent's step answers alike, a host read of EV_DROP or FIFO apart. -/
theorem beginInput_blind {i : Input} (hdrop : i ≠ .regRead 0x07#8) (hfifo : i ≠ .regRead 0x08#8) {s t : State}
    (h : SameButEvents s t) : AnswersAlike (beginInput s i) (beginInput t i) := by
  cases i with
  | frame => exact beginFrame_blind s t h
  | regWrite i v =>
    simp only [beginInput, regWrite]
    split
    · exact command_blind (decodeCtrl_space v) h
    · exact writeCfg_blind i v s t h
  | regRead i => exact regRead_blind (fun e => hdrop (e ▸ rfl)) (fun e => hfifo (e ▸ rfl)) s t h
  | memWrite a v => exact EventBlind.of (fun s => hostMemWrite s a v) (fun _ _ _ _ => rfl) s t h
  | memRead a => exact EventBlind.of (fun s => hostMemRead s a) (fun _ _ _ _ => rfl) s t h
  | sinkPop => exact sinkPop_blind s t h
  | sinkFail => exact EventBlind.of sinkFail (fun _ _ _ _ => rfl) s t h
  | evPop => exact evPop_blind s t h
  | reset => exact EventBlind.of platformReset (fun _ _ _ _ => rfl) s t h

/-- A step answers alike on states that differ at most in the events, a host read of EV_DROP or FIFO apart. -/
theorem step_blind {s t : State} (h : SameButEvents s t)
    (hread : ∀ rest : List Input, s.inputs ≠ .regRead 0x07#8 :: rest ∧ s.inputs ≠ .regRead 0x08#8 :: rest) :
    AnswersAlike (step s) (step t) := by
  by_cases hp : s.phase = .idle
  · have hpt : t.phase = .idle := h.phase.trans hp
    cases hi : s.inputs with
    | nil =>
      rw [step_of_empty hp hi, step_of_empty hpt (h.inputs.trans hi)]
      exact finishStep_blind _ _ ((moved_blind []).comp beginFrame_blind s t h)
    | cons i rest =>
      obtain ⟨hdrop, hfifo⟩ := hread rest
      rw [step_of_input hp hi, step_of_input hpt (h.inputs.trans hi)]
      exact (beginInput_blind (fun e => hdrop (e ▸ hi)) (fun e => hfifo (e ▸ hi)) (moved_blind rest s t h)).thenNext
        finishStep_blind
  · rw [step_busy s hp, step_busy t (h.phase ▸ hp)]
    exact finishStep_blind s t h

theorem AnswersAlike.of_next {s : State} {b : Answer} (h : AnswersAlike (.next s) b) : ∃ t, b = .next t ∧ SameButEvents s t := by
  cases b with
  | next t => exact ⟨t, rfl, h⟩
  | fault | refused => exact h.elim

theorem AnswersAlike.of_fault {f : Fault} {b : Answer} (h : AnswersAlike (.fault f) b) : b = .fault f := by
  cases b with
  | fault g => exact congrArg _ (Eq.symm h)
  | next | refused => exact h.elim

/-- Settles O60: by `step_blind`, read for each answer of the first state. -/
theorem eventsNeverAffectAudio : Obligations.EventsNeverAffectAudio := by
  intro s1 s2 hsame hread
  have halike := step_blind hsame hread
  refine ⟨fun t1 h => ?_, fun f h => ?_⟩
  · exact (h ▸ halike).of_next
  · exact (h ▸ halike).of_fault

end Sys2Proof.Machine
end

section
/-! PROOFS. The sink's failure (60_exceptions.md R336). -/

namespace Sys2Proof.Machine

/-- Settles O50: the step begins with `sinkFail`, which leaves the phase idle, so nothing of the step is left. -/
theorem sinkFailure : Obligations.SinkFailure := by
  intro s rest hp hi
  have hbegin : beginInput (s.moved rest) .sinkFail = .next (sinkFail (s.moved rest)) := rfl
  exact step_of_begin hp hi hbegin ((sinkFail_phase _).trans hp)

end Sys2Proof.Machine
end

section
/-! PROOFS. Reset (70_reset_and_hazards.md R360 to R362): the values that the platform's reset gives, what the host then reads,
and that reset has what every step keeps. -/

namespace Sys2Proof.Machine

/-! ## The platform's reset (70_reset_and_hazards.md R360, R361) -/

/-- Every channel is silent after the platform's reset (70_reset_and_hazards.md R361). -/
@[simp] theorem platformReset_getCh (s : State) (k : Fin 8) : (platformReset s).getCh k = Channel.silent := by
  simp [State.getCh, platformReset, State.reset]

@[simp] theorem platformReset_phase (s : State) : (platformReset s).phase = .idle := rfl
@[simp] theorem platformReset_inputs (s : State) : (platformReset s).inputs = s.inputs := rfl

/-- The platform's reset leaves module memory and the host's duty (10_state.md R20; log entry 18). -/
theorem platformReset_sameImage (s : State) : SameImage s (platformReset s) := ⟨fun _ => rfl, rfl⟩

/-- The block starts as the platform's reset leaves it. -/
theorem platformReset_reset : platformReset State.reset = State.reset := rfl

/-- Settles O5: the step is `platformReset` alone, which leaves the phase idle; the registers are those of `State.reset`. -/
theorem platformReset_step : Obligations.PlatformReset := by
  intro s rest hp hi
  have hstep : step s = .next (platformReset (s.moved rest)) := step_of_begin hp hi rfl (platformReset_phase _)
  have himage : SameImage s (platformReset (s.moved rest)) := platformReset_sameImage (s.moved rest)
  exact ⟨_, hstep, platformReset_getCh _, rfl, rfl, rfl, rfl, rfl, rfl, rfl, rfl, rfl, rfl, rfl, platformReset_inputs _, himage⟩

/-! ## What the host reads after reset (70_reset_and_hazards.md R362) -/

/-- STATUS: Stopped, no pause asked for, nothing to drain, no error, `C = 0`. -/
theorem readStatus_reset : readStatus State.reset = 0#32 := rfl

/-- POSITION: the first row of the first order entry, at tick 0 and without a pattern delay. -/
theorem readPosition_reset : readPosition State.reset = 0#32 := rfl

/-- TIMING: tempo 125 (`0x7D`) and speed 6, with no speed pending. -/
theorem readTiming_reset : readTiming State.reset = 0x0000067D#32 := rfl

/-- CLOCK: no tick has a length yet. -/
theorem readClock_reset : readClock State.reset = 0#32 := rfl

/-- FIFO: both queues are empty. -/
theorem readFifo_reset : readFifo State.reset = 0#32 := rfl

/-- Settles O4: register by register; the three counters are 0. -/
theorem resetRegisters : Obligations.ResetRegisters := by
  unfold Obligations.ResetRegisters
  simp only [readReg_status, readReg_position, readReg_timing, readReg_clock, readReg_frameCount, readReg_tickCount,
    readReg_evDrop, readReg_fifo]
  exact ⟨readStatus_reset, readPosition_reset, readTiming_reset, readClock_reset, rfl, rfl, rfl, readFifo_reset⟩

/-! ## What every step keeps holds at reset -/

/-- Both queues are empty at reset (70_reset_and_hazards.md R361). -/
theorem reset_queuesFit : QueuesFit State.reset := ⟨Nat.zero_le _, Nat.zero_le _⟩

/-- Settles O52: reset has what the platform's reset gives, so its song invariant is that of `platformReset`. -/
theorem resetSatisfiesInvariants : Obligations.ResetSatisfiesInvariants := by
  have hfits : SongFits State.reset := platformReset_reset ▸ platformReset_songFits State.reset
  exact ⟨(songInv_iff _).2 ⟨rfl, hfits⟩, reset_mem_wf, reset_queuesFit⟩

end Sys2Proof.Machine
end
